-- ==== Sys2Proof/Word.lean ====
section
/-! DEFINITION. The word types of the PMU Register Engine: the byte of a PMU register or of a register address (R8, R9) and the
32-bit command word (R90). -/

namespace Sys2Proof

/-- A PMU register byte, a mask, or an 8-bit register address (R8, R9). -/
abbrev Byte := BitVec 8

/-- The 32-bit command word `W` of `CMD` (R90) and the width of `ARG` (R23). -/
abbrev Word := BitVec 32

end Sys2Proof
end

