-- ==== Sys2Proof/Config.lean ====
section
/-! DEFINITION. What an implementation fixes: the configuration record `CFG` (R6) with the constraints of R7, and the model's one
free value, the content of a PMU register that nothing has written (R281). The reference instance `CFG_REF` is
`Config.reference` in Machine/Reference.lean. -/

namespace Sys2Proof

/-- One value per DC-DC rail, index 0, 1, 2 (R6, `A_DCDC` and `W_DCDC`). -/
structure PerRail (α : Type) where
  rail0 : α
  rail1 : α
  rail2 : α
  deriving DecidableEq, Repr

/-- The width of a DC-DC code field, "6 or 7 bits depending on rail" (R6, R7). -/
inductive CodeWidth where
  | six
  | seven
  deriving DecidableEq, Repr

/-- One entry `(addr, keep, or)` of a bus-power-mode table (R6, `BPM`). -/
structure RegPatch where
  addr : Byte
  keep : Byte
  orBits : Byte
  deriving DecidableEq, Repr

/-- The four entries of one bus-power mode (R6, R232). -/
structure BpmTable where
  e0 : RegPatch
  e1 : RegPatch
  e2 : RegPatch
  e3 : RegPatch
  deriving DecidableEq, Repr

/-- The configuration record `CFG`, field for field the table of R6. It is constant for the life of the engine and no command can
change it (R6, R21). -/
structure Config where
  /-- `DEV_ADDR`, carried by every bus request (R33) and left out of the trace (R36) -/
  devAddr : BitVec 7
  /-- `A_BAT_V` -/
  aBatV : Byte
  /-- `A_BAT_I_IN` -/
  aBatIIn : Byte
  /-- `A_BAT_I_OUT` -/
  aBatIOut : Byte
  /-- `A_BAT_ICHG` -/
  aBatIchg : Byte
  /-- `A_BAT_P` -/
  aBatP : Byte
  /-- `A_VIN_V` -/
  aVinV : Byte
  /-- `A_VIN_I` -/
  aVinI : Byte
  /-- `A_VBUS_V` -/
  aVbusV : Byte
  /-- `A_VBUS_I` -/
  aVbusI : Byte
  /-- `A_APS_V` -/
  aApsV : Byte
  /-- `A_TEMP` -/
  aTemp : Byte
  /-- `A_CC_IN` -/
  aCcIn : Byte
  /-- `A_CC_OUT` -/
  aCcOut : Byte
  /-- `K_COULOMB_NUM`, the numerator of `K_COULOMB` (R160) -/
  kCoulombNum : Nat
  /-- `K_COULOMB_DEN`, the unit of the coulomb results (R160); no rule computes with it -/
  kCoulombDen : Nat
  /-- `A_DCDC[0..2]` -/
  aDcdc : PerRail Byte
  /-- `W_DCDC[0..2]` -/
  wDcdc : PerRail CodeWidth
  /-- `DCDC_BASE_MV` -/
  dcdcBaseMv : Nat
  /-- `DCDC_STEP_MV` -/
  dcdcStepMv : Nat
  /-- `A_LDO` -/
  aLdo : Byte
  /-- `LDO_HI_INDEX` -/
  ldoHiIndex : Fin 2
  /-- `LDO_MIN_MV` -/
  ldoMinMv : Nat
  /-- `LDO_MAX_MV` -/
  ldoMaxMv : Nat
  /-- `LDO_STEP_MV` -/
  ldoStepMv : Nat
  /-- `A_CHG` -/
  aChg : Byte
  /-- `CHG_MASK` -/
  chgMask : Byte
  /-- `CHG_SHIFT` -/
  chgShift : Fin 8
  /-- `CHG_TABLE[0..15]`, mA -/
  chgTable : List Nat
  /-- `MA_CHG_DEFAULT` -/
  maChgDefault : Nat
  /-- `A_BRIGHT` -/
  aBright : Byte
  /-- `BRIGHT_MASK` -/
  brightMask : Byte
  /-- `BRIGHT_SHIFT` -/
  brightShift : Fin 8
  /-- `BRIGHT_MAX` -/
  brightMax : Nat
  /-- `A_PWRPATH` -/
  aPwrpath : Byte
  /-- `PP_KEEP` -/
  ppKeep : Byte
  /-- `PP_OR` -/
  ppOr : Byte
  /-- `A_DCCTL_A` -/
  aDcctlA : Byte
  /-- `A_DCCTL_B` -/
  aDcctlB : Byte
  /-- `DCCTL_KEEP_A` -/
  dcctlKeepA : Byte
  /-- `DCCTL_KEEP_B` -/
  dcctlKeepB : Byte
  /-- `A_CHGV` -/
  aChgv : Byte
  /-- `CHGV_KEEP` -/
  chgvKeep : Byte
  /-- `CHGV_OR` -/
  chgvOr : Byte
  /-- `RAIL_MCU` -/
  railMcu : Fin 3
  /-- `MV_MCU` -/
  mvMcu : Nat
  /-- `RAIL_DISP` -/
  railDisp : Fin 3
  /-- `MV_DISP` -/
  mvDisp : Nat
  /-- `MV_LDO[0]` -/
  mvLdo0 : Nat
  /-- `MV_LDO[1]` -/
  mvLdo1 : Nat
  /-- `A_OUTEN` -/
  aOuten : Byte
  /-- `B_EN_LDO` -/
  bEnLdo : Fin 8
  /-- `B_EN_DCDC` -/
  bEnDcdc : Fin 8
  /-- `B_SLEEP_DCDC` -/
  bSleepDcdc : Fin 8
  /-- `A_LED` -/
  aLed : Byte
  /-- `B_LED` -/
  bLed : Fin 8
  /-- `LED_ON_LEVEL` -/
  ledOnLevel : Bool
  /-- `A_ADCEN` -/
  aAdcen : Byte
  /-- `V_ADC_ON` -/
  vAdcOn : Byte
  /-- `V_ADC_OFF` -/
  vAdcOff : Byte
  /-- `A_DISPRST` -/
  aDisprst : Byte
  /-- `B_DISPRST` -/
  bDisprst : Fin 8
  /-- `L_RST_DEASSERT` -/
  lRstDeassert : Bool
  /-- `T_HOLD_MS` -/
  tHoldMs : Nat
  /-- `A_STATUS` -/
  aStatus : Byte
  /-- `B_EXTPWR` -/
  bExtpwr : Fin 8
  /-- `A_EXTFLAG` -/
  aExtflag : Byte
  /-- `B_EXTFLAG` -/
  bExtflag : Fin 8
  /-- `BPM[SINK][0..3]` -/
  bpmSink : BpmTable
  /-- `BPM[SOURCE][0..3]` -/
  bpmSource : BpmTable
  /-- `A_PWROFF` -/
  aPwroff : Byte
  /-- `B_PWROFF` -/
  bPwroff : Fin 8
  deriving DecidableEq, Repr

/-- The scale of the DC-DC codes (R7). -/
def Config.dcdcScale (c : Config) : Bool := decide (c.dcdcBaseMv = 700) && decide (c.dcdcStepMv = 25)

/-- The LDO codes fit a nibble (R7, D17). -/
def Config.ldoFits (c : Config) : Bool :=
  decide (c.ldoMinMv ≤ c.ldoMaxMv) && decide (0 < c.ldoStepMv) && decide ((c.ldoMaxMv - c.ldoMinMv) / c.ldoStepMv ≤ 15)

/-- The brightness field is the high nibble, with 12 as its largest code (R7). -/
def Config.brightScale (c : Config) : Bool :=
  decide (c.brightMask = 0xF0#8) && decide (c.brightShift.val = 4) && decide (c.brightMax = 12)

/-- The constraints every `CFG` must meet that the field types do not already carry (R7): these and no others. -/
def Config.meetsR7 (c : Config) : Bool :=
  decide (c.chgTable.length = 16) && decide (c.chgTable.Nodup)
    && c.chgTable.contains 100 && c.chgTable.contains 1320 && !c.chgTable.contains 500
    && decide (c.maChgDefault = 100) && c.brightScale && c.dcdcScale && decide (100 ≤ c.tHoldMs) && c.ldoFits

/-- The coulomb results fit the 96 bits of `RES` (R186). -/
def Config.resultsFit (c : Config) : Bool := decide (c.kCoulombNum * (2 ^ 32 - 1) < 2 ^ 95)

/-- FREE VALUE (R281, U15): the byte a PMU register holds when nothing the model records has written it, a function of its address.
It has no body, so no proof can learn what it is. DESIGN CHOICE, log entry 2. -/
opaque Config.powerOnByte : Nat → Byte

end Sys2Proof
end

