-- ==== Sys2Proof/Machine/Reference.lean ====
section
/-! DEFINITION. The reference configuration `CFG_REF` (R6): an example instance only (D31). Every statement that is not about reset
or about `CFG_REF` by name holds for every `CFG`. -/

namespace Sys2Proof

/-- `CFG_REF`, the last column but one of the table of R6. -/
def Config.reference : Config where
  devAddr := 0x34#7
  aBatV := 0x78#8
  aBatIIn := 0x7A#8
  aBatIOut := 0x7C#8
  aBatIchg := 0x7A#8
  aBatP := 0x70#8
  aVinV := 0x56#8
  aVinI := 0x58#8
  aVbusV := 0x5A#8
  aVbusI := 0x5C#8
  aApsV := 0x7E#8
  aTemp := 0x5E#8
  aCcIn := 0xB0#8
  aCcOut := 0xB4#8
  kCoulombNum := 3640888888888889
  kCoulombDen := 10000000000000000
  aDcdc := ⟨0x26#8, 0x23#8, 0x27#8⟩
  wDcdc := ⟨.seven, .six, .seven⟩
  dcdcBaseMv := 700
  dcdcStepMv := 25
  aLdo := 0x28#8
  ldoHiIndex := 0
  ldoMinMv := 1800
  ldoMaxMv := 3300
  ldoStepMv := 100
  aChg := 0x33#8
  chgMask := 0x0F#8
  chgShift := 0
  chgTable := [100, 190, 280, 360, 450, 550, 630, 700, 780, 880, 960, 1000, 1080, 1160, 1240, 1320]
  maChgDefault := 100
  aBright := 0x28#8
  brightMask := 0xF0#8
  brightShift := 4
  brightMax := 12
  aPwrpath := 0x30#8
  ppKeep := 0x04#8
  ppOr := 0x02#8
  aDcctlA := 0x92#8
  aDcctlB := 0x93#8
  dcctlKeepA := 0xF8#8
  dcctlKeepB := 0xF8#8
  aChgv := 0x35#8
  chgvKeep := 0x1C#8
  chgvOr := 0xA2#8
  railMcu := 0
  mvMcu := 3350
  railDisp := 2
  mvDisp := 2800
  mvLdo0 := 3300
  mvLdo1 := 2000
  aOuten := 0x12#8
  bEnLdo := 2
  bEnDcdc := 1
  bSleepDcdc := 1
  aLed := 0x94#8
  bLed := 1
  ledOnLevel := false
  aAdcen := 0x82#8
  vAdcOn := 0xFF#8
  vAdcOff := 0x00#8
  aDisprst := 0x96#8
  bDisprst := 1
  lRstDeassert := false
  tHoldMs := 100
  aStatus := 0x00#8
  bExtpwr := 3
  aExtflag := 0x30#8
  bExtflag := 7
  bpmSink := ⟨⟨0xE0#8, 0x0F#8, 0xF0#8⟩, ⟨0xE1#8, 0xF8#8, 0x02#8⟩, ⟨0xE2#8, 0xFF#8, 0x04#8⟩, ⟨0xE3#8, 0xFF#8, 0x00#8⟩⟩
  bpmSource := ⟨⟨0xE2#8, 0xFB#8, 0x00#8⟩, ⟨0xE1#8, 0xF8#8, 0x07#8⟩, ⟨0xE0#8, 0xFF#8, 0x00#8⟩, ⟨0xE3#8, 0xFF#8, 0x00#8⟩⟩
  aPwroff := 0x32#8
  bPwroff := 7

end Sys2Proof
end

