-- ==== Sys2Proof/Syntax.lean ====
section
/-! DEFINITION. The 35 commands of the opcode map (R95), one constructor per row of spec/opcode_table.json, in the table's order.
An operand of a constructor is an operand that travels in the command word (R91, R92); scalar and span operands travel in `ARG`
and `DBUF` and are no part of the syntax. -/

namespace Sys2Proof

/-- The bus-power mode of `BUSPWR` (R92, R232): `W[0]` = 0 is SINK, 1 is SOURCE. -/
inductive BusMode where
  | sink
  | source
  deriving DecidableEq, Repr

/-- The commands of R95. Field widths are those of R91: `addr`, `mask`, `index` a byte; `len`, `bit`, `shift` three bits. -/
inductive Instr where
  /-- `RDREG addr, len` (R120) -/
  | rdreg (addr : Byte) (len : BitVec 3)
  /-- `WRREG addr, len` (R121) -/
  | wrreg (addr : Byte) (len : BitVec 3)
  /-- `RDBIT addr, bit` (R130) -/
  | rdbit (addr : Byte) (bit : BitVec 3)
  /-- `SETBIT addr, bit, v` (R131) -/
  | setbit (addr : Byte) (bit : BitVec 3) (v : Bool)
  /-- `RDFLD addr, mask, shift` (R132) -/
  | rdfld (addr mask : Byte) (shift : BitVec 3)
  /-- `WRFLD addr, mask, shift` (R133) -/
  | wrfld (addr mask : Byte) (shift : BitVec 3)
  /-- `DEC8` (R150) -/
  | dec8
  /-- `DEC12` (R151) -/
  | dec12
  /-- `DEC13` (R152) -/
  | dec13
  /-- `DEC16` (R153) -/
  | dec16
  /-- `DEC24` (R154) -/
  | dec24
  /-- `DEC32` (R155) -/
  | dec32
  /-- `RD_BATV` (R163) -/
  | rdBatv
  /-- `RD_BATI` (R164) -/
  | rdBati
  /-- `RD_BATICHG` (R165) -/
  | rdBatichg
  /-- `RD_BATP` (R166) -/
  | rdBatp
  /-- `RD_VINV` (R167) -/
  | rdVinv
  /-- `RD_VINI` (R168) -/
  | rdVini
  /-- `RD_VBUSV` (R169) -/
  | rdVbusv
  /-- `RD_VBUSI` (R170) -/
  | rdVbusi
  /-- `RD_APSV` (R171) -/
  | rdApsv
  /-- `RD_TEMP` (R172) -/
  | rdTemp
  /-- `RD_CCIN` (R173) -/
  | rdCcin
  /-- `RD_CCOUT` (R174) -/
  | rdCcout
  /-- `RD_BATPCT` (R175) -/
  | rdBatpct
  /-- `CVT_PCT` (R176) -/
  | cvtPct
  /-- `WR_DCDC index` (R190) -/
  | wrDcdc (index : Byte)
  /-- `WR_LDO index` (R192) -/
  | wrLdo (index : Byte)
  /-- `WR_CHGI` (R194) -/
  | wrChgi
  /-- `WR_BRIGHT` (R196) -/
  | wrBright
  /-- `INIT` (R211) -/
  | init
  /-- `SLEEP_PREP` (R236) -/
  | sleepPrep
  /-- `SLEEP_RESTORE` (R237) -/
  | sleepRestore
  /-- `BUSPWR mode` (R232) -/
  | buspwr (mode : BusMode)
  /-- `PWROFF` (R242) -/
  | pwroff
  deriving DecidableEq, Repr

end Sys2Proof
end

