-- ==== Sys2Proof/Machine/State.lean ====
section
/-! DEFINITION. The state as plain data. The engine's own registers are the seven of R21 (`CMD`, `ARG`, `DBUF`, `RES`, `STATUS`,
`SEQ_PC`, `TMP`). Beside them State carries the command in progress (R41), the two records of what has happened (the trace of R36,
the values the host has read, R32) and the other three agents of R20 as data: the target's registers, the collaborators' answers to
come, and the host's accesses to come. A statement that holds for every State therefore holds for every configuration, every
target, every pattern of bus failures and hangs, and every host. -/

namespace Sys2Proof.Machine

/-- The exception code of `STATUS.ERR` (R29). -/
inductive ErrCode where
  /-- 0, `OK` -/
  | ok
  /-- 1, `BusError` (R250) -/
  | busError
  /-- 2, `InvalidArgument` (R251) -/
  | invalidArgument
  /-- 3, `IllegalCommand` (R252) -/
  | illegalCommand
  deriving DecidableEq, Repr

/-- The fields of `STATUS` (R29). Software never writes the register and reads it whole: `Status.toByte` is the byte it reads, whose
reserved bit 7 is 0. -/
structure Status where
  /-- bit 0 -/
  busy : Bool
  /-- bit 1 -/
  done : Bool
  /-- bits 3:2 -/
  err : ErrCode
  /-- bit 4 -/
  wrote : Bool
  /-- bit 5 -/
  inited : Bool
  /-- bit 6 -/
  failw : Bool
  deriving DecidableEq, Repr

/-- The span buffer `DBUF[0..3]` (R24). `b0` travels first on the bus. -/
structure DataBuf where
  b0 : Byte
  b1 : Byte
  b2 : Byte
  b3 : Byte
  deriving DecidableEq, Repr

/-- The events of the trace (R36). -/
inductive Event where
  /-- `Rd(addr, n, bytes)` -/
  | rd (addr : Byte) (n : Nat) (bytes : List Byte)
  /-- `RdFail(addr, n)` -/
  | rdFail (addr : Byte) (n : Nat)
  /-- `Wr(addr, bytes)` -/
  | wr (addr : Byte) (bytes : List Byte)
  /-- `WrFail(addr, bytes)` -/
  | wrFail (addr : Byte) (bytes : List Byte)
  /-- `Slp(ms)` -/
  | slp (ms : Nat)
  deriving DecidableEq, Repr

/-- The entries of a micro-program (R210). -/
inductive Entry where
  /-- `RD(a, n)` -/
  | rd (addr : Byte) (n : Nat)
  /-- `WR(a, bytes)` -/
  | wr (addr : Byte) (bytes : List Byte)
  /-- `RMW(a, keep, or)` -/
  | rmw (addr keep orBits : Byte)
  /-- `SB(a, bit, v)` -/
  | sb (addr : Byte) (bit : Nat) (v : Bool)
  /-- `SLP(ms)` -/
  | slp (ms : Nat)
  /-- `BR(a, bit, t1, t0)` -/
  | br (addr : Byte) (bit : Nat) (t1 t0 : Nat)
  deriving DecidableEq, Repr

/-- One numbered line of a micro-program: an entry and the `JMP(t)` it may carry (R210). -/
structure Line where
  entry : Entry
  jmp : Option Nat := none
  deriving DecidableEq, Repr

/-- The thirteen physical quantities of the read converters (R161). -/
inductive Quantity where
  | batV
  | batI
  | batIchg
  | batP
  | vinV
  | vinI
  | vbusV
  | vbusI
  | apsV
  | temp
  | ccIn
  | ccOut
  | batPct
  deriving DecidableEq, Repr

/-- What a command writes, beyond `STATUS` and `SEQ_PC`, when it completes without exception (R24, R25, R29). -/
inductive Finish where
  /-- nothing: the write and sequencer commands -/
  | keep
  /-- `STATUS.INITED <- 1`: `INIT` (R211) -/
  | inited
  /-- the bytes read go to `DBUF` (R120) -/
  | toDbuf
  /-- `RES <- (b >> bit) & 1` (R130) -/
  | bitOf (bit : Nat)
  /-- `RES <- (b & mask) >> shift` (R132) -/
  | fieldOf (mask : Byte) (shift : Nat)
  /-- `RES <-` the converted quantity (R162) -/
  | quantity (q : Quantity)
  /-- `RES <-` a value computed before any traffic (the decoders, `CVT_PCT`) -/
  | value (v : Int)
  deriving DecidableEq, Repr

/-- A command in progress: what the blocked engine must still know to go on when the collaborator it waits for answers (R41). The
index of the entry in progress is `SEQ_PC` and the byte of a half-done read-modify-write is `TMP`. -/
structure Running where
  /-- the micro-program, entry 0 first -/
  prog : List Line
  /-- what the command writes when it completes -/
  fin : Finish
  /-- the bytes of the `RD` entries completed so far, in order -/
  got : List Byte
  /-- the read half of the `RMW` in progress has been answered -/
  half : Bool
  deriving DecidableEq, Repr

/-- How the bus collaborator ends one transaction (R33). -/
inductive BusResult where
  /-- success -/
  | ack
  /-- communication failure; for a write, which of the bytes sent the chip had latched before it failed (R262, per byte) -/
  | nack (landed : List Bool)
  /-- no answer, ever (R264) -/
  | never
  deriving DecidableEq, Repr

/-- The bus side's answer to one transaction: how many steps it lets the engine wait, what the target changed in its own registers
in the meantime (R20 (3), R61), and how the transaction ends. -/
structure Reply where
  delay : Nat := 0
  selfChanges : List (Byte × Byte) := []
  result : BusResult := .ack
  deriving DecidableEq, Repr

/-- The time collaborator's answer to one `Sleep` (R16, R264): how many steps it lets the engine wait, and whether it returns. -/
structure TimerReply where
  delay : Nat := 0
  returns : Bool := true
  deriving DecidableEq, Repr

/-- The engine registers the host can read (R32). -/
inductive HostReg where
  | cmd
  | arg
  | dbuf (k : Fin 4)
  | res
  | status
  | seqPc
  deriving DecidableEq, Repr

/-- What can come to the engine from outside: the host's accesses (R32) and reset (R45, R280). -/
inductive Input where
  /-- the host writes `CMD`, which starts a command (R30, R35) -/
  | cmd (w : Word)
  /-- the host writes `ARG` (R23) -/
  | arg (v : Word)
  /-- the host writes `DBUF[k]` (R24) -/
  | dbuf (k : Fin 4) (b : Byte)
  /-- the host reads a register (R32) -/
  | read (r : HostReg)
  /-- reset; if it cuts off a write transaction, which of its bytes the chip had latched (R45, R262) -/
  | reset (landed : List Bool)
  deriving DecidableEq, Repr

/-- The target's registers as the bus side records them: strictly rising addresses below 256, each with its byte. An address that is
not listed holds no byte the model knows (log entry 2). -/
abbrev Memory := List Host.Cell

/-- The state of the machine. -/
structure State where
  /-- `CFG`; a parameter of the step, constant (R6, R21; log entry 1) -/
  cfg : Config
  /-- `CMD` (R30) -/
  cmd : Word
  /-- `ARG` (R23) -/
  arg : Word
  /-- `DBUF[0..3]` (R24) -/
  dbuf : DataBuf
  /-- `RES`, signed two's complement (R25) -/
  res : BitVec 96
  /-- `STATUS` (R29) -/
  status : Status
  /-- `SEQ_PC` (R27) -/
  seqPc : BitVec 8
  /-- `TMP` (R28) -/
  tmp : Byte
  /-- the command in progress while the engine is blocked (R41) -/
  run : Option Running
  /-- the trace of the last command started (R36) -/
  trace : List Event
  /-- the traces of the commands before it, joined in order (R73 (d)) -/
  history : List Event
  /-- what the host has read, in order (R32) -/
  seen : List (HostReg × BitVec 96)
  /-- the target's registers (R61, R78) -/
  target : Memory
  /-- the bus side's answers to the transactions to come; when there are none left the target is the reference target of R78 and
  answers at once (log entry 3) -/
  replies : List Reply
  /-- the time collaborator's answers to come; when there are none left it returns at once -/
  timer : List TimerReply
  /-- the host's accesses and resets to come -/
  inputs : List Input
  deriving DecidableEq, Repr

/-- Faults: none. No behaviour of this block stops it: an exception ends the command and control is back with the host (R256, "No
operation is fatal to the process", R253), and a collaborator that never answers leaves it waiting (R264). -/
inductive Fault where
  deriving DecidableEq, Repr

/-- Refusals. -/
inductive Refusal where
  /-- an instruction that has no meaning yet. Raised by no arm of `exec` (every command of R95 has its meaning); it would be safe. -/
  | notModelled (mnemonic : String)
  deriving DecidableEq, Repr

/-- The machine right after reset (R45, R280): `STATUS` = 0x00, `SEQ_PC` = 0, engine idle, no bus transaction, no sleep. `CMD`, `ARG`,
`DBUF`, `RES` and `TMP` are unspecified by R45; zero is the model's choice (DESIGN CHOICE, log entry 4, unsafe). `CFG` is fixed
before reset; here it is the example instance `CFG_REF` (DESIGN CHOICE, log entry 1, unsafe). Nothing is listed of the target's
registers (R281). -/
def State.reset : State where
  cfg := Config.reference
  cmd := 0
  arg := 0
  dbuf := ⟨0, 0, 0, 0⟩
  res := 0
  status := ⟨false, false, .ok, false, false, false⟩
  seqPc := 0
  tmp := 0
  run := none
  trace := []
  history := []
  seen := []
  target := []
  replies := []
  timer := []
  inputs := []

end Sys2Proof.Machine
end

