-- ==== Sys2Proof/Machine/Operands.lean ====
section
/-! DEFINITION. Operand forms: the bytes of `DBUF`, the value of `ARG`, the domain checks of the operands (R94 check 2), and the
keep and or masks of the register operations. -/

namespace Sys2Proof.Machine

/-- `DBUF[0..3]` as the list of its bytes, first on the bus first (R24). -/
def DataBuf.toList (d : DataBuf) : List Byte := [d.b0, d.b1, d.b2, d.b3]

/-- `DBUF[k]` (R24). -/
def DataBuf.get (d : DataBuf) (k : Fin 4) : Byte :=
  match k with
  | 0 => d.b0
  | 1 => d.b1
  | 2 => d.b2
  | 3 => d.b3

/-- `DBUF[k] <- b` (R24). -/
def DataBuf.put (d : DataBuf) (k : Fin 4) (b : Byte) : DataBuf :=
  match k with
  | 0 => { d with b0 := b }
  | 1 => { d with b1 := b }
  | 2 => { d with b2 := b }
  | 3 => { d with b3 := b }

/-- `DBUF[0..len-1] <- bytes`, the rest unchanged (R120). -/
def DataBuf.load (d : DataBuf) (bytes : List Byte) : DataBuf :=
  ⟨bytes.getD 0 d.b0, bytes.getD 1 d.b1, bytes.getD 2 d.b2, bytes.getD 3 d.b3⟩

/-- The request of a write converter or of `CVT_PCT`: `ARG` whole, unsigned (R23, R92). -/
def State.argNat (s : State) : Nat := s.arg.toNat

/-- The field value of `WRFLD`: `ARG[7:0]` (R92, R133). -/
def State.argByte (s : State) : Byte := s.arg.extractLsb' 0 8

/-- A span lies inside the address space (R62). -/
def spanFits (addr : Byte) (n : Nat) : Bool := decide (addr.toNat + n ≤ 256)

/-- The domain check of `RDREG` and `WRREG` (R122). -/
def spanLegal (addr : Byte) (len : Nat) : Bool :=
  decide (1 ≤ len) && decide (len ≤ 4) && spanFits addr len

/-- `1 << bit` as a byte (R131, R210). -/
def bitMask (bit : Nat) : Byte := 1#8 <<< bit

/-- The keep mask of `SB(a, bit, v)` (R131, R210). -/
def sbKeep (bit : Nat) (v : Bool) : Byte := if v then 0xFF#8 else ~~~bitMask bit

/-- The or mask of `SB(a, bit, v)` (R131, R210). -/
def sbOr (bit : Nat) (v : Bool) : Byte := if v then bitMask bit else 0x00#8

/-- The byte an `RMW(a, keep, or)` writes after reading `b` (R17). -/
def rmwByte (keep orBits b : Byte) : Byte := (b &&& keep) ||| orBits

/-- `(b >> bit) & 1 = 1` (R130, R210). -/
def bitSet (b : Byte) (bit : Nat) : Bool := (b >>> bit) &&& 1#8 == 1#8

/-- `(value << shift) & mask` as a byte (R133, R194): the bits shifted past bit 7 are lost. -/
def fieldBits (mask : Byte) (shift : Nat) (value : Byte) : Byte := (value <<< shift) &&& mask

/-- The rail of a DC-DC index (R92, R190). -/
def railOf (index : Byte) : Option (Fin 3) :=
  match index.toNat with
  | 0 => some 0
  | 1 => some 1
  | 2 => some 2
  | _ => none

/-- The field of an LDO index (R92, R192). -/
def ldoOf (index : Byte) : Option (Fin 2) :=
  match index.toNat with
  | 0 => some 0
  | 1 => some 1
  | _ => none

/-- The value of one rail. -/
def atRail {α : Type} (p : PerRail α) (r : Fin 3) : α :=
  match r with
  | 0 => p.rail0
  | 1 => p.rail1
  | 2 => p.rail2

/-- The number of bits of a DC-DC code (R6). -/
def widthBits : CodeWidth → Nat
  | .six => 6
  | .seven => 7

end Sys2Proof.Machine
end

