-- ==== Sys2Proof/Machine/Convert.lean ====
section
/-! DEFINITION. The conversion layer: the raw-value decoders (R150 to R155), the percentage function (R177), the spans and results
of the thirteen read converters (R161), and the codes of the four write converters (R191, R193, R195, R197). All of it is exact
integer arithmetic (R10, R11). -/

namespace Sys2Proof.Machine

/-- `dec8` (R150) -/
def dec8 (b0 : Byte) : Nat := b0.toNat

/-- `dec12` (R151): the low byte is added whole. -/
def dec12 (hi lo : Byte) : Nat := hi.toNat * 2 ^ 4 + lo.toNat

/-- `dec13` (R152): the low byte is added whole. -/
def dec13 (hi lo : Byte) : Nat := hi.toNat * 2 ^ 5 + lo.toNat

/-- `dec16` (R153) -/
def dec16 (hi lo : Byte) : Nat := hi.toNat * 2 ^ 8 + lo.toNat

/-- `dec24` (R154) -/
def dec24 (b0 b1 b2 : Byte) : Nat := b0.toNat * 2 ^ 16 + b1.toNat * 2 ^ 8 + b2.toNat

/-- `dec32` (R155) -/
def dec32 (b0 b1 b2 b3 : Byte) : Nat :=
  b0.toNat * 2 ^ 24 + b1.toNat * 2 ^ 16 + b2.toNat * 2 ^ 8 + b3.toNat

/-- The percentage function `pct` (R177): µV to `10^-4` percent. -/
def pct (v : Nat) : Nat := if v < 3248088 then 0 else min (v - 3120712) 1000000

/-- The spans a read converter reads, in order (R161, R164). -/
def Quantity.spans (c : Config) : Quantity → List (Byte × Nat)
  | .batV => [(c.aBatV, 2)]
  | .batI => [(c.aBatIIn, 2), (c.aBatIOut, 2)]
  | .batIchg => [(c.aBatIchg, 2)]
  | .batP => [(c.aBatP, 3)]
  | .vinV => [(c.aVinV, 2)]
  | .vinI => [(c.aVinI, 2)]
  | .vbusV => [(c.aVbusV, 2)]
  | .vbusI => [(c.aVbusI, 2)]
  | .apsV => [(c.aApsV, 2)]
  | .temp => [(c.aTemp, 2)]
  | .ccIn => [(c.aCcIn, 4)]
  | .ccOut => [(c.aCcOut, 4)]
  | .batPct => [(c.aBatV, 2)]

/-- The spans a read converter reads lie inside the 256 addresses of the PMU (R62). R7 does not list this; it is what R253 ("never"
for `InvalidArgument` of an `RD_*` command) needs of a `CFG`. DEDUCED, log entry 6. -/
def Quantity.spansFit (c : Config) (q : Quantity) : Bool := (q.spans c).all (fun x => spanFits x.1 x.2)

/-- Byte `k` of the bytes a command has read. -/
def byteAt (got : List Byte) (k : Nat) : Byte := got.getD k 0

/-- The 12-bit value of the two bytes at position `k`. -/
def raw12 (got : List Byte) (k : Nat) : Nat := dec12 (byteAt got k) (byteAt got (k + 1))

/-- The 13-bit value of the two bytes at position `k`. -/
def raw13 (got : List Byte) (k : Nat) : Nat := dec13 (byteAt got k) (byteAt got (k + 1))

/-- The 24-bit value of the first three bytes. -/
def raw24 (got : List Byte) : Nat := dec24 (byteAt got 0) (byteAt got 1) (byteAt got 2)

/-- The 32-bit value of the first four bytes. -/
def raw32 (got : List Byte) : Nat := dec32 (byteAt got 0) (byteAt got 1) (byteAt got 2) (byteAt got 3)

/-- The integer a read converter puts into `RES` (R161, R163 to R175), from the bytes it read, in order. -/
def Quantity.result (c : Config) (got : List Byte) : Quantity → Int
  | .batV => 1100 * raw12 got 0
  | .batI => 500 * ((raw13 got 0 : Int) - raw13 got 2)
  | .batIchg => 500 * raw12 got 0
  | .batP => 550 * raw24 got
  | .vinV => 1700 * raw12 got 0
  | .vinI => 625 * raw12 got 0
  | .vbusV => 1700 * raw12 got 0
  | .vbusI => 375 * raw12 got 0
  | .apsV => 1400 * raw12 got 0
  | .temp => (raw12 got 0 : Int) - 1447
  | .ccIn => c.kCoulombNum * raw32 got
  | .ccOut => c.kCoulombNum * raw32 got
  | .batPct => pct (1100 * raw12 got 0)

/-- `enc_dcdc(mV, w)` (R191): a low clamp, a truncating division, and a mask at the top. -/
def encDcdc (c : Config) (mv w : Nat) : Nat :=
  if mv < c.dcdcBaseMv then 0 else (mv - c.dcdcBaseMv) / c.dcdcStepMv % 2 ^ w

/-- `enc_ldo(mV)` (R193): clamped at both ends. -/
def encLdo (c : Config) (mv : Nat) : Nat := (min (max mv c.ldoMinMv) c.ldoMaxMv - c.ldoMinMv) / c.ldoStepMv

/-- `enc_chg(mA)` (R195): the index in `CHG_TABLE`, or none. -/
def encChg (c : Config) (ma : Nat) : Option Nat := c.chgTable.findIdx? (fun x => x == ma)

/-- `enc_bright(b)` (R197): none for 0, else clamped at the top. -/
def encBright (c : Config) (b : Nat) : Option Nat := if b = 0 then none else some (min b c.brightMax)

/-- The register operation of a DC-DC write of `mv` to rail `r` (R190, R216). -/
def dcdcEntry (c : Config) (r : Fin 3) (mv : Nat) : Entry :=
  let w := widthBits (atRail c.wDcdc r)
  .rmw (atRail c.aDcdc r) (~~~BitVec.ofNat 8 (2 ^ w - 1)) (BitVec.ofNat 8 (encDcdc c mv w))

/-- The register operation of an LDO write of `mv` to index `k` (R192, R218). -/
def ldoEntry (c : Config) (k : Fin 2) (mv : Nat) : Entry :=
  if k = c.ldoHiIndex then .rmw c.aLdo 0x0F#8 (BitVec.ofNat 8 (encLdo c mv) <<< 4)
  else .rmw c.aLdo 0xF0#8 (BitVec.ofNat 8 (encLdo c mv))

/-- The register operation of a charging-current write of code `k` (R194, R223). -/
def chgEntry (c : Config) (k : Nat) : Entry :=
  .rmw c.aChg (~~~c.chgMask) (fieldBits c.chgMask c.chgShift (BitVec.ofNat 8 k))

/-- The register operation of a brightness write of code `k` (R196). -/
def brightEntry (c : Config) (k : Nat) : Entry :=
  .rmw c.aBright (~~~c.brightMask) (fieldBits c.brightMask c.brightShift (BitVec.ofNat 8 k))

/-- The register operation of one entry of a bus-power-mode table (R230, R232). -/
def patchEntry (p : RegPatch) : Entry := .rmw p.addr p.keep p.orBits

/-- The four entries of a bus-power mode, in order (R230, R232). -/
def bpmEntries (c : Config) (m : BusMode) : List Entry :=
  let t := match m with
    | .sink => c.bpmSink
    | .source => c.bpmSource
  [patchEntry t.e0, patchEntry t.e1, patchEntry t.e2, patchEntry t.e3]

end Sys2Proof.Machine
end

