-- ==== Sys2Proof/Machine/Flags.lean ====
section
/-! DEFINITION. The fields of `STATUS` (R29): its byte, and what starting a command, a completed write, and the completion of a
command do to it. -/

namespace Sys2Proof.Machine

/-- The code of `STATUS[3:2]` (R29, R250 to R252). -/
def ErrCode.code : ErrCode → BitVec 2
  | .ok => 0
  | .busError => 1
  | .invalidArgument => 2
  | .illegalCommand => 3

/-- The byte the host reads from `STATUS` (R29): bit 7 is reserved and reads 0. -/
def Status.toByte (t : Status) : Byte :=
  0#1 ++ BitVec.ofBool t.failw ++ BitVec.ofBool t.inited ++ BitVec.ofBool t.wrote ++ t.err.code
    ++ BitVec.ofBool t.done ++ BitVec.ofBool t.busy

/-- The host writes `CMD` (R29, R35): `BUSY <- 1`, `DONE`, `ERR`, `WROTE`, `FAILW` cleared, `INITED` kept. -/
def Status.started (t : Status) : Status := ⟨true, false, .ok, false, t.inited, false⟩

/-- A `MemWrite` completed without failure (R29): `WROTE <- 1`. -/
def Status.afterWrite (t : Status) : Status := { t with wrote := true }

/-- The command completes without exception (R29, R35). -/
def Status.completed (t : Status) : Status := ⟨false, true, .ok, t.wrote, t.inited, false⟩

/-- The command completes with an exception (R256): `ERR` and `FAILW` are recorded, `WROTE` and `INITED` stay. -/
def Status.failed (t : Status) (e : ErrCode) (failw : Bool) : Status := ⟨false, true, e, t.wrote, t.inited, failw⟩

/-- An `INIT` completes with `ERR = OK` (R29, R211): `INITED <- 1`. -/
def Status.withInited (t : Status) : Status := { t with inited := true }

end Sys2Proof.Machine
end

