-- ==== Sys2Proof/Machine/Ops.lean ====
section
/-! DEFINITION. The named operations: the target's registers, the bus and timer primitives (R15, R16) with the trace, starting and
completing a command (R35), and taking an exception (R18, R256). -/

namespace Sys2Proof.Machine

/-- The canonical form of the target's registers: addresses strictly rising and inside the 256 addresses of R37. -/
def Memory.wf (m : Memory) : Bool :=
  decide (m.Pairwise (fun x y => x.1 < y.1)) && m.all (fun x => decide (x.1 < 256))

/-- The byte listed for an address, if one is. -/
def Memory.find (m : Memory) (a : Nat) : Option Byte :=
  match m with
  | [] => none
  | (k, v) :: rest => if k = a then some v else Memory.find rest a

/-- What register `a` holds: the byte listed, else the free value of R281. -/
def Memory.byte (m : Memory) (a : Nat) : Byte := (Memory.find m a).getD (Config.powerOnByte a)

/-- The registers with `b` at `a`, the list kept sorted. -/
def Memory.insert (m : Memory) (a : Nat) (b : Byte) : Memory :=
  match m with
  | [] => [(a, b)]
  | (k, v) :: rest =>
    if a < k then (a, b) :: (k, v) :: rest
    else if a = k then (a, b) :: rest
    else (k, v) :: Memory.insert rest a b

/-- Register `a` takes the byte `b`. There is no register beyond 0xFF (R37), and the checks of R62 and R122 let no transaction go
there. -/
def Memory.put (m : Memory) (a : Nat) (b : Byte) : Memory := if a < 256 then Memory.insert m a b else m

/-- The bytes of the span of `n` registers at `a`, lowest address first (R62, R78). -/
def Memory.span (m : Memory) (a n : Nat) : List Byte := (List.range n).map (fun k => Memory.byte m (a + k))

/-- The span at `a` takes the bytes, lowest address first (R62, R78). -/
def Memory.putSpan (m : Memory) (a : Nat) (bytes : List Byte) : Memory :=
  match bytes with
  | [] => m
  | b :: rest => Memory.putSpan (Memory.put m a b) (a + 1) rest

/-- A write that failed (R262): of each byte, the chip had latched it (`true`) or not (`false`, and so for a byte the draw says
nothing of). -/
def Memory.landSpan (m : Memory) (a : Nat) (bytes : List Byte) (landed : List Bool) : Memory :=
  match bytes with
  | [] => m
  | b :: rest => Memory.landSpan (if landed.headD false then Memory.put m a b else m) (a + 1) rest landed.tail

/-- The target changes registers of its own (R20 (3)). -/
def Memory.selfChange (m : Memory) (changes : List (Byte × Byte)) : Memory :=
  changes.foldl (fun acc x => Memory.put acc x.1.toNat x.2) m

/-- How the bus side answers the next transaction. When no answer is listed it is the reference target's (R78): at once, and
without failure. -/
def State.nextReply (s : State) : Reply := s.replies.headD {}

/-- How the time collaborator answers the next `Sleep`. -/
def State.nextTimer (s : State) : TimerReply := s.timer.headD {}

/-- The target's registers when the next transaction is served: after the changes it makes by itself until then (R20 (3), R61). -/
def State.targetNow (s : State) : Memory := Memory.selfChange s.target s.nextReply.selfChanges

/-- The next transaction is being served: its answer is used up. -/
def State.takeReply (s : State) : State := { s with replies := s.replies.tail, target := s.targetNow }

/-- One event is appended to the trace of the command (R36). -/
def State.log (s : State) (e : Event) : State := { s with trace := s.trace ++ [e] }

/-- What becomes of a request to a collaborator: it answers, it fails, or it has not answered yet. -/
inductive Served (α : Type) where
  | answered (x : α) (s : State)
  | failed (s : State)
  | waiting

/-- `MemRead(addr, n)` (R15, R62). -/
def State.memRead (s : State) (a : Byte) (n : Nat) : Served (List Byte) :=
  if s.nextReply.delay ≠ 0 then .waiting
  else
    match s.nextReply.result with
    | .never => .waiting
    | .nack _ => .failed (s.takeReply.log (.rdFail a n))
    | .ack => .answered (Memory.span s.targetNow a.toNat n) (s.takeReply.log (.rd a n (Memory.span s.targetNow a.toNat n)))

/-- `MemWrite(addr, len(bytes), bytes)` (R15, R62). A success sets `WROTE` (R29); after a failure each byte addressed is the old
one or the one sent (R262). -/
def State.memWrite (s : State) (a : Byte) (bytes : List Byte) : Served Unit :=
  if s.nextReply.delay ≠ 0 then .waiting
  else
    match s.nextReply.result with
    | .never => .waiting
    | .nack landed =>
      .failed ({ s.takeReply with target := Memory.landSpan s.targetNow a.toNat bytes landed }.log (.wrFail a bytes))
    | .ack =>
      .answered () ({ s.takeReply with
        target := Memory.putSpan s.targetNow a.toNat bytes
        status := s.status.afterWrite }.log (.wr a bytes))

/-- `Sleep(ms)` (R16): it never fails. -/
def State.sleep (s : State) (ms : Nat) : Served Unit :=
  if s.nextTimer.delay ≠ 0 ∨ s.nextTimer.returns = false then .waiting
  else .answered () ({ s with timer := s.timer.tail }.log (.slp ms))

/-- The host's write of `CMD` starts a command (R35): the flags, `SEQ_PC <- 0`, and a new, empty trace. It is also the only way out
of the exception of the command before, whose flags it clears (R257): there is no return instruction. -/
def State.startCommand (s : State) : State :=
  { s with
    status := s.status.started
    seqPc := 0
    run := none
    history := s.history ++ s.trace
    trace := [] }

/-- TAKING AN EXCEPTION (R18, R256): `ERR` takes its code, `FAILW` is recorded, `SEQ_PC` keeps the entry in progress, the command
completes. `RES`, `DBUF`, `ARG`, `WROTE` and `INITED` are as they were. -/
def State.raise (s : State) (e : ErrCode) (failw : Bool) : State :=
  { s with status := s.status.failed e failw, run := none }

/-- `RES <- v` (R12, R25). -/
def State.setRes (s : State) (v : Int) : State := { s with res := BitVec.ofInt 96 v }

/-- What the command writes when it completes without exception, from the bytes its `RD` entries read (R24, R25, R29). -/
def State.finish (s : State) (fin : Finish) (got : List Byte) : State :=
  match fin with
  | .keep => s
  | .inited => { s with status := s.status.withInited }
  | .toDbuf => { s with dbuf := s.dbuf.load got }
  | .bitOf bit => s.setRes (if bitSet (byteAt got 0) bit then 1 else 0)
  | .fieldOf mask shift => s.setRes (((byteAt got 0) &&& mask) >>> shift).toNat
  | .quantity q => s.setRes (q.result s.cfg got)
  | .value v => s.setRes v

/-- The command completes without exception (R35): `BUSY <- 0`, `DONE <- 1`, and its results are final. -/
def State.complete (s : State) (fin : Finish) (got : List Byte) : State :=
  ({ s with status := s.status.completed, run := none }).finish fin got

/-- An exception before anything has started: `SEQ_PC` is 0 and there is no bus traffic (R94, R251, R252). -/
def State.reject (s : State) (e : ErrCode) : State := s.startCommand.raise e false

end Sys2Proof.Machine
end

