-- ==== Sys2Proof/Machine/Sequencer.lean ====
section
/-! DEFINITION. The engine that runs micro-programs (R210): one entry at a time, in order, each entry one or two transactions or one
sleep; and the engine that waits for a collaborator (R41, R264). -/

namespace Sys2Proof.Machine

/-- What becomes of the entry in progress: it is done and `SEQ_PC` has moved, an exception has ended the command, or the engine is
waiting for a collaborator. -/
inductive EntryResult where
  | done (r : Running) (s : State)
  | raised (s : State)
  | waiting (r : Running) (s : State)

/-- An entry completed: `SEQ_PC` moves to the target of the `JMP` it carries, else to the next index (R27, R210). -/
def State.advance (s : State) (jmp : Option Nat) : State :=
  match jmp with
  | none => { s with seqPc := s.seqPc + 1 }
  | some t => { s with seqPc := BitVec.ofNat 8 t }

/-- The write half of `RMW(addr, keep, or)` (R17), with the byte read in `TMP`. -/
def rmwWrite (a keep orBits : Byte) (jmp : Option Nat) (r : Running) (s : State) : EntryResult :=
  match s.memWrite a [rmwByte keep orBits s.tmp] with
  | .waiting => .waiting r s
  | .failed s1 => .raised (s1.raise .busError true)
  | .answered _ s1 => .done { r with half := false } (s1.advance jmp)

/-- `RMW(addr, keep, or)` (R17): the read strictly before the write; if the read fails the write is not issued. -/
def rmwEntry (a keep orBits : Byte) (jmp : Option Nat) (r : Running) (s : State) : EntryResult :=
  if r.half then rmwWrite a keep orBits jmp r s
  else
    match s.memRead a 1 with
    | .waiting => .waiting r s
    | .failed s1 => .raised (s1.raise .busError false)
    | .answered bytes s1 => rmwWrite a keep orBits jmp { r with half := true } { s1 with tmp := byteAt bytes 0 }

/-- One entry of a micro-program (R210). -/
def runEntry (l : Line) (r : Running) (s : State) : EntryResult :=
  match l.entry with
  | .rd a n =>
    match s.memRead a n with
    | .waiting => .waiting r s
    | .failed s1 => .raised (s1.raise .busError false)
    | .answered bytes s1 => .done { r with got := r.got ++ bytes } (s1.advance l.jmp)
  | .wr a bytes =>
    match s.memWrite a bytes with
    | .waiting => .waiting r s
    | .failed s1 => .raised (s1.raise .busError true)
    | .answered _ s1 => .done r (s1.advance l.jmp)
  | .rmw a keep orBits => rmwEntry a keep orBits l.jmp r s
  | .sb a bit v => rmwEntry a (sbKeep bit v) (sbOr bit v) l.jmp r s
  | .slp ms =>
    match s.sleep ms with
    | .waiting => .waiting r s
    | .failed s1 => .raised s1
    | .answered _ s1 => .done r (s1.advance l.jmp)
  | .br a bit t1 t0 =>
    match s.memRead a 1 with
    | .waiting => .waiting r s
    | .failed s1 => .raised (s1.raise .busError false)
    | .answered bytes s1 =>
      .done r { s1 with seqPc := BitVec.ofNat 8 (if bitSet (byteAt bytes 0) bit then t1 else t0) }

/-- The engine runs the entry at `SEQ_PC` until the command ends, with `SEQ_PC` at the end index or by an exception, or a
collaborator lets it wait (R210, R264). Every branch of a micro-program goes forward, so one round for each entry and one for the
end index are enough; a command that had used them up would wait and go on in the next step. -/
def drive : Nat → Running → State → State
  | 0, r, s => { s with run := some r }
  | n + 1, r, s =>
    match r.prog[s.seqPc.toNat]? with
    | none => s.complete r.fin r.got
    | some l =>
      match runEntry l r s with
      | .done r' s' => drive n r' s'
      | .raised s' => s'
      | .waiting r' s' => { s' with run := some r' }

/-- A command's micro-program runs from its entry 0 (R27, R35). -/
def runCommand (prog : List Line) (fin : Finish) (s : State) : State :=
  drive (prog.length + 1) ⟨prog, fin, [], false⟩ s.startCommand

/-- Whether the entry in progress is a sleep, which waits for the timer and not for the bus. -/
def Running.sleeping (r : Running) (s : State) : Bool :=
  match r.prog[s.seqPc.toNat]? with
  | some l =>
    match l.entry with
    | .slp _ => true
    | .rd _ _ => false
    | .wr _ _ => false
    | .rmw _ _ _ => false
    | .sb _ _ _ => false
    | .br _ _ _ _ => false
  | none => false

/-- The bus side answers the pending transaction in this step. -/
def State.busReady (s : State) : Bool := s.nextReply.delay == 0 && s.nextReply.result != .never

/-- The timer answers the pending sleep in this step. -/
def State.timerReady (s : State) : Bool := s.nextTimer.delay == 0 && s.nextTimer.returns

/-- The collaborator the command in progress waits for answers in this step. -/
def Running.ready (r : Running) (s : State) : Bool := if r.sleeping s then s.timerReady else s.busReady

/-- One step of a delay is over. -/
def Reply.tick (x : Reply) : Reply := { x with delay := x.delay - 1 }

/-- One step of a delay is over. -/
def TimerReply.tick (x : TimerReply) : TimerReply := { x with delay := x.delay - 1 }

/-- The collaborator has not answered: one step of its delay is over, and a hung one stays as it is (R264). -/
def State.tick (s : State) (r : Running) : State :=
  if r.sleeping s then
    { s with timer := match s.timer with
        | [] => []
        | x :: rest => x.tick :: rest }
  else
    { s with replies := match s.replies with
        | [] => []
        | x :: rest => x.tick :: rest }

/-- The answer to the request a reset cuts off is dropped with it. -/
def State.dropRequest (s : State) (r : Running) : State :=
  if r.sleeping s then { s with timer := s.timer.tail }
  else { s with replies := s.replies.tail, target := s.targetNow }

/-- The write transaction the command in progress waits for, if it is one: its address and bytes. -/
def Running.pendingWrite (r : Running) (s : State) : Option (Byte × List Byte) :=
  match r.prog[s.seqPc.toNat]? with
  | some l =>
    match l.entry with
    | .rd _ _ => none
    | .wr a bytes => some (a, bytes)
    | .rmw a keep orBits => if r.half then some (a, [rmwByte keep orBits s.tmp]) else none
    | .sb a bit v => if r.half then some (a, [rmwByte (sbKeep bit v) (sbOr bit v) s.tmp]) else none
    | .slp _ => none
    | .br _ _ _ _ => none
  | none => none

/-- The command in progress is abandoned "between or inside bus transactions" (R45): a write cut off leaves each byte old or as
sent (R262). -/
def State.abandon (s : State) (r : Running) (landed : List Bool) : State :=
  let s1 := s.dropRequest r
  match r.pendingWrite s with
  | some (a, bytes) => { s1 with target := Memory.landSpan s1.target a.toNat bytes landed }
  | none => s1

end Sys2Proof.Machine
end

