-- ==== Sys2Proof/Machine/BitField.lean ====
section
/-! DEFINITION. The BitField commands `RDBIT`, `SETBIT`, `RDFLD`, `WRFLD` (R130 to R134). -/

namespace Sys2Proof.Machine

/-- `RDBIT addr, bit` (R130) -/
def execRdbit (addr : Byte) (bit : BitVec 3) (s : State) : Host.Outcome State Fault Refusal :=
  .next (runCommand [{ entry := .rd addr 1 }] (.bitOf bit.toNat) s)

/-- `SETBIT addr, bit, v` (R131) -/
def execSetbit (addr : Byte) (bit : BitVec 3) (v : Bool) (s : State) : Host.Outcome State Fault Refusal :=
  .next (runCommand [{ entry := .rmw addr (sbKeep bit.toNat v) (sbOr bit.toNat v) }] .keep s)

/-- `RDFLD addr, mask, shift` (R132) -/
def execRdfld (addr mask : Byte) (shift : BitVec 3) (s : State) : Host.Outcome State Fault Refusal :=
  .next (runCommand [{ entry := .rd addr 1 }] (.fieldOf mask shift.toNat) s)

/-- `WRFLD addr, mask, shift` with `ARG[7:0]` (R133) -/
def execWrfld (addr mask : Byte) (shift : BitVec 3) (s : State) : Host.Outcome State Fault Refusal :=
  .next (runCommand [{ entry := .rmw addr (~~~mask) (fieldBits mask shift.toNat s.argByte) }] .keep s)

end Sys2Proof.Machine
end

