-- ==== Sys2Proof/Machine/PowerSequencer.lean ====
section
/-! DEFINITION. The PowerSequencer commands `INIT`, `BUSPWR`, `SLEEP_PREP`, `SLEEP_RESTORE`, `PWROFF` (R210 to R242). -/

namespace Sys2Proof.Machine

/-- Entries 0 to 16 of `INIT` (R213 to R228), `k` the code of the default charging current. -/
def initHead (c : Config) (k : Nat) : List Line :=
  [ { entry := .rmw c.aPwrpath c.ppKeep c.ppOr },
    { entry := .rmw c.aDcctlA c.dcctlKeepA 0x00#8 },
    { entry := .rmw c.aDcctlB c.dcctlKeepB 0x00#8 },
    { entry := .rmw c.aChgv c.chgvKeep c.chgvOr },
    { entry := dcdcEntry c c.railMcu c.mvMcu },
    { entry := dcdcEntry c c.railDisp c.mvDisp },
    { entry := ldoEntry c 0 c.mvLdo0 },
    { entry := ldoEntry c 1 c.mvLdo1 },
    { entry := .sb c.aOuten c.bEnLdo true },
    { entry := .sb c.aOuten c.bEnDcdc true },
    { entry := .sb c.aLed c.bLed c.ledOnLevel },
    { entry := chgEntry c k },
    { entry := .wr c.aAdcen [c.vAdcOn] },
    { entry := .sb c.aDisprst c.bDisprst c.lRstDeassert },
    { entry := .slp c.tHoldMs },
    { entry := .sb c.aDisprst c.bDisprst (!c.lRstDeassert) },
    { entry := .br c.aStatus c.bExtpwr 17 22 } ]

/-- Entries 17 to 21 of `INIT` (R229, R230): the branch of a boot on external power, ending with `JMP(26)`. -/
def initTaken (c : Config) : List Line :=
  [ { entry := .sb c.aExtflag c.bExtflag true },
    { entry := patchEntry c.bpmSource.e0 },
    { entry := patchEntry c.bpmSource.e1 },
    { entry := patchEntry c.bpmSource.e2 },
    { entry := patchEntry c.bpmSource.e3, jmp := some 26 } ]

/-- Entries 22 to 25 of `INIT` (R230): the other branch. -/
def initNotTaken (c : Config) : List Line :=
  [ { entry := patchEntry c.bpmSink.e0 },
    { entry := patchEntry c.bpmSink.e1 },
    { entry := patchEntry c.bpmSink.e2 },
    { entry := patchEntry c.bpmSink.e3 } ]

/-- The micro-program of `INIT`, entries 0 to 25 (R211). -/
def initProgram (c : Config) (k : Nat) : List Line := initHead c k ++ initTaken c ++ initNotTaken c

/-- The micro-program of `BUSPWR mode`, entries 0 to 3 (R232). -/
def buspwrProgram (c : Config) (m : BusMode) : List Line := (bpmEntries c m).map (fun e => { entry := e })

/-- The micro-program of `SLEEP_PREP`, entries 0 to 2 (R236). -/
def sleepPrepProgram (c : Config) : List Line :=
  [ { entry := .wr c.aAdcen [c.vAdcOff] },
    { entry := .sb c.aLed c.bLed (!c.ledOnLevel) },
    { entry := .sb c.aOuten c.bSleepDcdc false } ]

/-- The micro-program of `SLEEP_RESTORE`, entries 0 to 2 (R237). -/
def sleepRestoreProgram (c : Config) : List Line :=
  [ { entry := .sb c.aOuten c.bSleepDcdc true },
    { entry := .sb c.aLed c.bLed c.ledOnLevel },
    { entry := .wr c.aAdcen [c.vAdcOn] } ]

/-- The micro-program of `PWROFF`, entry 0 (R242). -/
def pwroffProgram (c : Config) : List Line := [{ entry := .sb c.aPwroff c.bPwroff true }]

/-- `INIT` (R211). `MA_CHG_DEFAULT` is in every legal table (R7, R223); with a `CFG` that breaks R7 there the request is rejected as
`WR_CHGI` rejects it, before any traffic (log entry 6). -/
def execInit (s : State) : Host.Outcome State Fault Refusal :=
  .next (match encChg s.cfg s.cfg.maChgDefault with
    | some k => runCommand (initProgram s.cfg k) .inited s
    | none => s.reject .invalidArgument)

/-- `SLEEP_PREP` (R236) -/
def execSleepPrep (s : State) : Host.Outcome State Fault Refusal := .next (runCommand (sleepPrepProgram s.cfg) .keep s)

/-- `SLEEP_RESTORE` (R237) -/
def execSleepRestore (s : State) : Host.Outcome State Fault Refusal := .next (runCommand (sleepRestoreProgram s.cfg) .keep s)

/-- `BUSPWR mode` (R232) -/
def execBuspwr (mode : BusMode) (s : State) : Host.Outcome State Fault Refusal :=
  .next (runCommand (buspwrProgram s.cfg mode) .keep s)

/-- `PWROFF` (R242): the engine's rules end at the completed write. -/
def execPwroff (s : State) : Host.Outcome State Fault Refusal := .next (runCommand (pwroffProgram s.cfg) .keep s)

end Sys2Proof.Machine
end

