-- ==== Sys2Proof/Machine/RawDecode.lean ====
section
/-! DEFINITION. The raw-value decoder commands `DEC8` to `DEC32` (R150 to R156): `RES` from `DBUF`, no bus traffic, no exception. -/

namespace Sys2Proof.Machine

/-- A command with an empty micro-program (R27): `RES <- v`, `SEQ_PC` ends at 0. -/
def pureResult (v : Int) (s : State) : State := runCommand [] (.value v) s

/-- `DEC8` (R150) -/
def execDec8 (s : State) : Host.Outcome State Fault Refusal := .next (pureResult (dec8 s.dbuf.b0) s)

/-- `DEC12` (R151) -/
def execDec12 (s : State) : Host.Outcome State Fault Refusal := .next (pureResult (dec12 s.dbuf.b0 s.dbuf.b1) s)

/-- `DEC13` (R152) -/
def execDec13 (s : State) : Host.Outcome State Fault Refusal := .next (pureResult (dec13 s.dbuf.b0 s.dbuf.b1) s)

/-- `DEC16` (R153) -/
def execDec16 (s : State) : Host.Outcome State Fault Refusal := .next (pureResult (dec16 s.dbuf.b0 s.dbuf.b1) s)

/-- `DEC24` (R154) -/
def execDec24 (s : State) : Host.Outcome State Fault Refusal :=
  .next (pureResult (dec24 s.dbuf.b0 s.dbuf.b1 s.dbuf.b2) s)

/-- `DEC32` (R155) -/
def execDec32 (s : State) : Host.Outcome State Fault Refusal :=
  .next (pureResult (dec32 s.dbuf.b0 s.dbuf.b1 s.dbuf.b2 s.dbuf.b3) s)

end Sys2Proof.Machine
end

