-- ==== Sys2Proof/Machine/QuantityRead.lean ====
section
/-! DEFINITION. The read converters `RD_*` and `CVT_PCT` (R160 to R177). -/

namespace Sys2Proof.Machine

/-- The common behaviour of the read converters (R162): the spans of the quantity, each one transaction, then the conversion. A span
that left the address space would be refused before any traffic (R62); not for a `CFG` with `Quantity.spansFit` (log entry 6). -/
def readQuantity (q : Quantity) (s : State) : State :=
  if q.spansFit s.cfg then
    runCommand ((q.spans s.cfg).map (fun x => { entry := .rd x.1 x.2 })) (.quantity q) s
  else s.reject .invalidArgument

/-- `RD_BATV` (R163) -/
def execRdBatv (s : State) : Host.Outcome State Fault Refusal := .next (readQuantity .batV s)

/-- `RD_BATI` (R164) -/
def execRdBati (s : State) : Host.Outcome State Fault Refusal := .next (readQuantity .batI s)

/-- `RD_BATICHG` (R165) -/
def execRdBatichg (s : State) : Host.Outcome State Fault Refusal := .next (readQuantity .batIchg s)

/-- `RD_BATP` (R166) -/
def execRdBatp (s : State) : Host.Outcome State Fault Refusal := .next (readQuantity .batP s)

/-- `RD_VINV` (R167) -/
def execRdVinv (s : State) : Host.Outcome State Fault Refusal := .next (readQuantity .vinV s)

/-- `RD_VINI` (R168) -/
def execRdVini (s : State) : Host.Outcome State Fault Refusal := .next (readQuantity .vinI s)

/-- `RD_VBUSV` (R169) -/
def execRdVbusv (s : State) : Host.Outcome State Fault Refusal := .next (readQuantity .vbusV s)

/-- `RD_VBUSI` (R170) -/
def execRdVbusi (s : State) : Host.Outcome State Fault Refusal := .next (readQuantity .vbusI s)

/-- `RD_APSV` (R171) -/
def execRdApsv (s : State) : Host.Outcome State Fault Refusal := .next (readQuantity .apsV s)

/-- `RD_TEMP` (R172) -/
def execRdTemp (s : State) : Host.Outcome State Fault Refusal := .next (readQuantity .temp s)

/-- `RD_CCIN` (R173) -/
def execRdCcin (s : State) : Host.Outcome State Fault Refusal := .next (readQuantity .ccIn s)

/-- `RD_CCOUT` (R174) -/
def execRdCcout (s : State) : Host.Outcome State Fault Refusal := .next (readQuantity .ccOut s)

/-- `RD_BATPCT` (R175) -/
def execRdBatpct (s : State) : Host.Outcome State Fault Refusal := .next (readQuantity .batPct s)

/-- `CVT_PCT` (R176): `RES <- pct(ARG)`, no bus traffic, no exception. -/
def execCvtPct (s : State) : Host.Outcome State Fault Refusal := .next (pureResult (pct s.argNat) s)

end Sys2Proof.Machine
end

