-- ==== Sys2Proof/Machine/QuantityWrite.lean ====
section
/-! DEFINITION. The write converters `WR_DCDC`, `WR_LDO`, `WR_CHGI`, `WR_BRIGHT` (R190 to R198). Each computes a code from `ARG` and
puts it into a field of one register by read-modify-write, or is rejected with `InvalidArgument` before any bus traffic. -/

namespace Sys2Proof.Machine

/-- The register operation of a write converter, or the rejection of a request outside the domain (R251). -/
def writeCode (e : Option Entry) (s : State) : State :=
  match e with
  | some entry => runCommand [{ entry := entry }] .keep s
  | none => s.reject .invalidArgument

/-- `WR_DCDC index` with `ARG` in mV (R190) -/
def execWrDcdc (index : Byte) (s : State) : Host.Outcome State Fault Refusal :=
  .next (writeCode ((railOf index).map (fun r => dcdcEntry s.cfg r s.argNat)) s)

/-- `WR_LDO index` with `ARG` in mV (R192) -/
def execWrLdo (index : Byte) (s : State) : Host.Outcome State Fault Refusal :=
  .next (writeCode ((ldoOf index).map (fun k => ldoEntry s.cfg k s.argNat)) s)

/-- `WR_CHGI` with `ARG` in mA (R194) -/
def execWrChgi (s : State) : Host.Outcome State Fault Refusal :=
  .next (writeCode ((encChg s.cfg s.argNat).map (chgEntry s.cfg)) s)

/-- `WR_BRIGHT` with `ARG` (R196) -/
def execWrBright (s : State) : Host.Outcome State Fault Refusal :=
  .next (writeCode ((encBright s.cfg s.argNat).map (brightEntry s.cfg)) s)

end Sys2Proof.Machine
end

