-- ==== Sys2Proof/Machine/RegisterAccess.lean ====
section
/-! DEFINITION. The RegisterAccess commands `RDREG` and `WRREG` (R120 to R123). -/

namespace Sys2Proof.Machine

/-- `RDREG addr, len` (R120): one read of `len` bytes into `DBUF[0..len-1]`; outside the domain of R122, `InvalidArgument`. -/
def execRdreg (addr : Byte) (len : BitVec 3) (s : State) : Host.Outcome State Fault Refusal :=
  .next (if spanLegal addr len.toNat then runCommand [{ entry := .rd addr len.toNat }] .toDbuf s
    else s.reject .invalidArgument)

/-- `WRREG addr, len` (R121): one write of `DBUF[0..len-1]`; outside the domain of R122, `InvalidArgument`. -/
def execWrreg (addr : Byte) (len : BitVec 3) (s : State) : Host.Outcome State Fault Refusal :=
  .next (if spanLegal addr len.toNat then runCommand [{ entry := .wr addr (s.dbuf.toList.take len.toNat) }] .keep s
    else s.reject .invalidArgument)

end Sys2Proof.Machine
end

