-- ==== Sys2Proof/Machine/Dispatch.lean ====
section
/-! DEFINITION. One arm per command of the opcode map (R95), each one direct call of its meaning. -/

namespace Sys2Proof.Machine

def exec (i : Instr) (s : State) : Host.Outcome State Fault Refusal :=
  match i with
  | .rdreg addr len => Sys2Proof.Machine.execRdreg addr len s
  | .wrreg addr len => Sys2Proof.Machine.execWrreg addr len s
  | .rdbit addr bit => Sys2Proof.Machine.execRdbit addr bit s
  | .setbit addr bit v => Sys2Proof.Machine.execSetbit addr bit v s
  | .rdfld addr mask shift => Sys2Proof.Machine.execRdfld addr mask shift s
  | .wrfld addr mask shift => Sys2Proof.Machine.execWrfld addr mask shift s
  | .dec8 => Sys2Proof.Machine.execDec8 s
  | .dec12 => Sys2Proof.Machine.execDec12 s
  | .dec13 => Sys2Proof.Machine.execDec13 s
  | .dec16 => Sys2Proof.Machine.execDec16 s
  | .dec24 => Sys2Proof.Machine.execDec24 s
  | .dec32 => Sys2Proof.Machine.execDec32 s
  | .rdBatv => Sys2Proof.Machine.execRdBatv s
  | .rdBati => Sys2Proof.Machine.execRdBati s
  | .rdBatichg => Sys2Proof.Machine.execRdBatichg s
  | .rdBatp => Sys2Proof.Machine.execRdBatp s
  | .rdVinv => Sys2Proof.Machine.execRdVinv s
  | .rdVini => Sys2Proof.Machine.execRdVini s
  | .rdVbusv => Sys2Proof.Machine.execRdVbusv s
  | .rdVbusi => Sys2Proof.Machine.execRdVbusi s
  | .rdApsv => Sys2Proof.Machine.execRdApsv s
  | .rdTemp => Sys2Proof.Machine.execRdTemp s
  | .rdCcin => Sys2Proof.Machine.execRdCcin s
  | .rdCcout => Sys2Proof.Machine.execRdCcout s
  | .rdBatpct => Sys2Proof.Machine.execRdBatpct s
  | .cvtPct => Sys2Proof.Machine.execCvtPct s
  | .wrDcdc index => Sys2Proof.Machine.execWrDcdc index s
  | .wrLdo index => Sys2Proof.Machine.execWrLdo index s
  | .wrChgi => Sys2Proof.Machine.execWrChgi s
  | .wrBright => Sys2Proof.Machine.execWrBright s
  | .init => Sys2Proof.Machine.execInit s
  | .sleepPrep => Sys2Proof.Machine.execSleepPrep s
  | .sleepRestore => Sys2Proof.Machine.execSleepRestore s
  | .buspwr mode => Sys2Proof.Machine.execBuspwr mode s
  | .pwroff => Sys2Proof.Machine.execPwroff s

end Sys2Proof.Machine
end

