-- ==== Sys2Proof/WellFormed.lean ====
section
/-! DEFINITION. Well-formed commands. Every value of `Instr` has a legal command word (R93), because its operand fields have the
widths of R91. What a legal word may still get wrong is the documented DOMAIN of an operand that travels in the word (R94, check
2): the length and end of a span (R122) and the rail index (R190, R192). A command outside that domain decodes and runs; it ends
with `InvalidArgument` (R251). -/

namespace Sys2Proof

/-- The span domain of R122: `len` in 1..4 and `addr + len ≤ 256`. -/
def spanInDomain (addr : Byte) (len : Nat) : Bool :=
  decide (1 ≤ len) && decide (len ≤ 4) && decide (addr.toNat + len ≤ 256)

/-- The operands in the word lie in the domain their command documents (R94 check 2, R251). -/
def Instr.wellFormed : Instr → Bool
  | .rdreg addr len => spanInDomain addr len.toNat
  | .wrreg addr len => spanInDomain addr len.toNat
  | .rdbit _ _ => true
  | .setbit _ _ _ => true
  | .rdfld _ _ _ => true
  | .wrfld _ _ _ => true
  | .dec8 => true
  | .dec12 => true
  | .dec13 => true
  | .dec16 => true
  | .dec24 => true
  | .dec32 => true
  | .rdBatv => true
  | .rdBati => true
  | .rdBatichg => true
  | .rdBatp => true
  | .rdVinv => true
  | .rdVini => true
  | .rdVbusv => true
  | .rdVbusi => true
  | .rdApsv => true
  | .rdTemp => true
  | .rdCcin => true
  | .rdCcout => true
  | .rdBatpct => true
  | .cvtPct => true
  | .wrDcdc index => decide (index.toNat ≤ 2)
  | .wrLdo index => decide (index.toNat ≤ 1)
  | .wrChgi => true
  | .wrBright => true
  | .init => true
  | .sleepPrep => true
  | .sleepRestore => true
  | .buspwr _ => true
  | .pwroff => true

end Sys2Proof
end

