-- ==== Sys2Proof/Decode.lean ====
section
/-! DEFINITION. The decoder of command words (R90 to R95), total on every 32-bit word and rejecting by name, and the encoder. -/

namespace Sys2Proof

/-- Why a word is illegal (R93). Either reason raises `IllegalCommand` (R252). -/
inductive DecodeError where
  /-- `op` is none of the 35 opcodes of R95. -/
  | unassignedOpcode
  /-- a bit that the format shows as `0` is 1 -/
  | reservedBitSet
  deriving DecidableEq, Repr

/-- `op = W[31:24]` (R90). -/
def fieldOp (w : Word) : Byte := w.extractLsb' 24 8

/-- `W[23:16]`: `addr` or `index`, unsigned (R92). -/
def fieldA (w : Word) : Byte := w.extractLsb' 16 8

/-- `W[15:8]`: `mask` (R92). -/
def fieldM (w : Word) : Byte := w.extractLsb' 8 8

/-- `W[10:8]`: `len` or `bit` (R92). -/
def fieldLen (w : Word) : BitVec 3 := w.extractLsb' 8 3

/-- `W[2:0]`: `shift` (R92). -/
def fieldShift (w : Word) : BitVec 3 := w.extractLsb' 0 3

/-- `W[0]`: `v` or `mode` (R92). -/
def fieldBit0 (w : Word) : Bool := w.getLsbD 0

/-- The command, if the must-be-zero bits of its format are zero (R93). -/
def ifZero (mbz : Bool) (i : Instr) : Except DecodeError Instr :=
  if mbz then .ok i else .error .reservedBitSet

/-- Format N (R91): `W[23:0]` is zero. -/
def zeroN (w : Word) : Bool := w.extractLsb' 0 24 == 0#24

/-- Formats S and `RDBIT`'s B (R91): `W[15:11]` and `W[7:0]` are zero. -/
def zeroS (w : Word) : Bool := w.extractLsb' 11 5 == 0#5 && w.extractLsb' 0 8 == 0#8

/-- `SETBIT`'s format B (R91): `W[15:11]` and `W[7:1]` are zero. -/
def zeroB (w : Word) : Bool := w.extractLsb' 11 5 == 0#5 && w.extractLsb' 1 7 == 0#7

/-- Format F (R91): `W[7:3]` is zero. -/
def zeroF (w : Word) : Bool := w.extractLsb' 3 5 == 0#5

/-- Format X (R91): `W[15:0]` is zero. -/
def zeroX (w : Word) : Bool := w.extractLsb' 0 16 == 0#16

/-- Format P (R91): `W[23:1]` is zero. -/
def zeroP (w : Word) : Bool := w.extractLsb' 1 23 == 0#23

/-- The mode of `BUSPWR`: 0 is SINK, 1 is SOURCE (R92). -/
def modeOfBit (b : Bool) : BusMode := if b then .source else .sink

/-- The decoder of R95: the opcode selects the row, then the must-be-zero bits are checked, then the operands are taken by R92. -/
def decode (w : Word) : Except DecodeError Instr :=
  match (fieldOp w).toNat with
  | 0x01 => ifZero (zeroS w) (.rdreg (fieldA w) (fieldLen w))
  | 0x02 => ifZero (zeroS w) (.wrreg (fieldA w) (fieldLen w))
  | 0x10 => ifZero (zeroS w) (.rdbit (fieldA w) (fieldLen w))
  | 0x11 => ifZero (zeroB w) (.setbit (fieldA w) (fieldLen w) (fieldBit0 w))
  | 0x12 => ifZero (zeroF w) (.rdfld (fieldA w) (fieldM w) (fieldShift w))
  | 0x13 => ifZero (zeroF w) (.wrfld (fieldA w) (fieldM w) (fieldShift w))
  | 0x20 => ifZero (zeroN w) .dec8
  | 0x21 => ifZero (zeroN w) .dec12
  | 0x22 => ifZero (zeroN w) .dec13
  | 0x23 => ifZero (zeroN w) .dec16
  | 0x24 => ifZero (zeroN w) .dec24
  | 0x25 => ifZero (zeroN w) .dec32
  | 0x30 => ifZero (zeroN w) .rdBatv
  | 0x31 => ifZero (zeroN w) .rdBati
  | 0x32 => ifZero (zeroN w) .rdBatichg
  | 0x33 => ifZero (zeroN w) .rdBatp
  | 0x34 => ifZero (zeroN w) .rdVinv
  | 0x35 => ifZero (zeroN w) .rdVini
  | 0x36 => ifZero (zeroN w) .rdVbusv
  | 0x37 => ifZero (zeroN w) .rdVbusi
  | 0x38 => ifZero (zeroN w) .rdApsv
  | 0x39 => ifZero (zeroN w) .rdTemp
  | 0x3A => ifZero (zeroN w) .rdCcin
  | 0x3B => ifZero (zeroN w) .rdCcout
  | 0x3C => ifZero (zeroN w) .rdBatpct
  | 0x3D => ifZero (zeroN w) .cvtPct
  | 0x40 => ifZero (zeroX w) (.wrDcdc (fieldA w))
  | 0x41 => ifZero (zeroX w) (.wrLdo (fieldA w))
  | 0x42 => ifZero (zeroN w) .wrChgi
  | 0x43 => ifZero (zeroN w) .wrBright
  | 0x50 => ifZero (zeroN w) .init
  | 0x51 => ifZero (zeroN w) .sleepPrep
  | 0x52 => ifZero (zeroN w) .sleepRestore
  | 0x53 => ifZero (zeroP w) (.buspwr (modeOfBit (fieldBit0 w)))
  | 0x54 => ifZero (zeroN w) .pwroff
  | _ => .error .unassignedOpcode

/-- Format N. -/
def wordN (op : Byte) : Word := op ++ 0#24

/-- Format S, and B without `v`. -/
def wordS (op addr : Byte) (len : BitVec 3) : Word := op ++ addr ++ 0#5 ++ len ++ 0#8

/-- Format B with `v`. -/
def wordB (op addr : Byte) (bit : BitVec 3) (v : Bool) : Word :=
  op ++ addr ++ 0#5 ++ bit ++ 0#7 ++ BitVec.ofBool v

/-- Format F. -/
def wordF (op addr mask : Byte) (shift : BitVec 3) : Word := op ++ addr ++ mask ++ 0#5 ++ shift

/-- Format X. -/
def wordX (op index : Byte) : Word := op ++ index ++ 0#16

/-- The bit of a bus-power mode: SINK 0, SOURCE 1 (R92). -/
def bitOfMode : BusMode → Bool
  | .sink => false
  | .source => true

/-- Format P. -/
def wordP (op : Byte) (mode : BusMode) : Word := op ++ 0#23 ++ BitVec.ofBool (bitOfMode mode)

/-- The command word of a command (R91, R95). -/
def encode : Instr → Word
  | .rdreg addr len => wordS 0x01#8 addr len
  | .wrreg addr len => wordS 0x02#8 addr len
  | .rdbit addr bit => wordS 0x10#8 addr bit
  | .setbit addr bit v => wordB 0x11#8 addr bit v
  | .rdfld addr mask shift => wordF 0x12#8 addr mask shift
  | .wrfld addr mask shift => wordF 0x13#8 addr mask shift
  | .dec8 => wordN 0x20#8
  | .dec12 => wordN 0x21#8
  | .dec13 => wordN 0x22#8
  | .dec16 => wordN 0x23#8
  | .dec24 => wordN 0x24#8
  | .dec32 => wordN 0x25#8
  | .rdBatv => wordN 0x30#8
  | .rdBati => wordN 0x31#8
  | .rdBatichg => wordN 0x32#8
  | .rdBatp => wordN 0x33#8
  | .rdVinv => wordN 0x34#8
  | .rdVini => wordN 0x35#8
  | .rdVbusv => wordN 0x36#8
  | .rdVbusi => wordN 0x37#8
  | .rdApsv => wordN 0x38#8
  | .rdTemp => wordN 0x39#8
  | .rdCcin => wordN 0x3A#8
  | .rdCcout => wordN 0x3B#8
  | .rdBatpct => wordN 0x3C#8
  | .cvtPct => wordN 0x3D#8
  | .wrDcdc index => wordX 0x40#8 index
  | .wrLdo index => wordX 0x41#8 index
  | .wrChgi => wordN 0x42#8
  | .wrBright => wordN 0x43#8
  | .init => wordN 0x50#8
  | .sleepPrep => wordN 0x51#8
  | .sleepRestore => wordN 0x52#8
  | .buspwr mode => wordP 0x53#8 mode
  | .pwroff => wordN 0x54#8

/-- The host's question to the decoder. Every command is one 32-bit word (R90), so its bits are those of `w` below `nbits`, zero
above; a number of more than 32 bits is no command word. -/
def decodeTableWord (nbits w : Nat) : Option Instr :=
  if nbits ≤ 32 then
    match decode (BitVec.ofNat 32 (w % 2 ^ nbits)) with
    | .ok i => some i
    | .error _ => none
  else none

/-- The mnemonic of a command, as R95 spells it. -/
def Instr.mnemonic : Instr → String
  | .rdreg _ _ => "RDREG"
  | .wrreg _ _ => "WRREG"
  | .rdbit _ _ => "RDBIT"
  | .setbit _ _ _ => "SETBIT"
  | .rdfld _ _ _ => "RDFLD"
  | .wrfld _ _ _ => "WRFLD"
  | .dec8 => "DEC8"
  | .dec12 => "DEC12"
  | .dec13 => "DEC13"
  | .dec16 => "DEC16"
  | .dec24 => "DEC24"
  | .dec32 => "DEC32"
  | .rdBatv => "RD_BATV"
  | .rdBati => "RD_BATI"
  | .rdBatichg => "RD_BATICHG"
  | .rdBatp => "RD_BATP"
  | .rdVinv => "RD_VINV"
  | .rdVini => "RD_VINI"
  | .rdVbusv => "RD_VBUSV"
  | .rdVbusi => "RD_VBUSI"
  | .rdApsv => "RD_APSV"
  | .rdTemp => "RD_TEMP"
  | .rdCcin => "RD_CCIN"
  | .rdCcout => "RD_CCOUT"
  | .rdBatpct => "RD_BATPCT"
  | .cvtPct => "CVT_PCT"
  | .wrDcdc _ => "WR_DCDC"
  | .wrLdo _ => "WR_LDO"
  | .wrChgi => "WR_CHGI"
  | .wrBright => "WR_BRIGHT"
  | .init => "INIT"
  | .sleepPrep => "SLEEP_PREP"
  | .sleepRestore => "SLEEP_RESTORE"
  | .buspwr _ => "BUSPWR"
  | .pwroff => "PWROFF"

/-- One row of the opcode map of R95: a word `W` is the command of the row exactly when `W & mask = match`. -/
structure OpcodeRow where
  mnemonic : String
  matchBits : Word
  mask : Word
  deriving DecidableEq, Repr

/-- The opcode map of R95, row for row. `decode` does not use it: that they agree is a statement. -/
def opcodeMap : List OpcodeRow :=
  [ ⟨"RDREG", 0x01000000#32, 0xFF00F8FF#32⟩,
    ⟨"WRREG", 0x02000000#32, 0xFF00F8FF#32⟩,
    ⟨"RDBIT", 0x10000000#32, 0xFF00F8FF#32⟩,
    ⟨"SETBIT", 0x11000000#32, 0xFF00F8FE#32⟩,
    ⟨"RDFLD", 0x12000000#32, 0xFF0000F8#32⟩,
    ⟨"WRFLD", 0x13000000#32, 0xFF0000F8#32⟩,
    ⟨"DEC8", 0x20000000#32, 0xFFFFFFFF#32⟩,
    ⟨"DEC12", 0x21000000#32, 0xFFFFFFFF#32⟩,
    ⟨"DEC13", 0x22000000#32, 0xFFFFFFFF#32⟩,
    ⟨"DEC16", 0x23000000#32, 0xFFFFFFFF#32⟩,
    ⟨"DEC24", 0x24000000#32, 0xFFFFFFFF#32⟩,
    ⟨"DEC32", 0x25000000#32, 0xFFFFFFFF#32⟩,
    ⟨"RD_BATV", 0x30000000#32, 0xFFFFFFFF#32⟩,
    ⟨"RD_BATI", 0x31000000#32, 0xFFFFFFFF#32⟩,
    ⟨"RD_BATICHG", 0x32000000#32, 0xFFFFFFFF#32⟩,
    ⟨"RD_BATP", 0x33000000#32, 0xFFFFFFFF#32⟩,
    ⟨"RD_VINV", 0x34000000#32, 0xFFFFFFFF#32⟩,
    ⟨"RD_VINI", 0x35000000#32, 0xFFFFFFFF#32⟩,
    ⟨"RD_VBUSV", 0x36000000#32, 0xFFFFFFFF#32⟩,
    ⟨"RD_VBUSI", 0x37000000#32, 0xFFFFFFFF#32⟩,
    ⟨"RD_APSV", 0x38000000#32, 0xFFFFFFFF#32⟩,
    ⟨"RD_TEMP", 0x39000000#32, 0xFFFFFFFF#32⟩,
    ⟨"RD_CCIN", 0x3A000000#32, 0xFFFFFFFF#32⟩,
    ⟨"RD_CCOUT", 0x3B000000#32, 0xFFFFFFFF#32⟩,
    ⟨"RD_BATPCT", 0x3C000000#32, 0xFFFFFFFF#32⟩,
    ⟨"CVT_PCT", 0x3D000000#32, 0xFFFFFFFF#32⟩,
    ⟨"WR_DCDC", 0x40000000#32, 0xFF00FFFF#32⟩,
    ⟨"WR_LDO", 0x41000000#32, 0xFF00FFFF#32⟩,
    ⟨"WR_CHGI", 0x42000000#32, 0xFFFFFFFF#32⟩,
    ⟨"WR_BRIGHT", 0x43000000#32, 0xFFFFFFFF#32⟩,
    ⟨"INIT", 0x50000000#32, 0xFFFFFFFF#32⟩,
    ⟨"SLEEP_PREP", 0x51000000#32, 0xFFFFFFFF#32⟩,
    ⟨"SLEEP_RESTORE", 0x52000000#32, 0xFFFFFFFF#32⟩,
    ⟨"BUSPWR", 0x53000000#32, 0xFFFFFFFE#32⟩,
    ⟨"PWROFF", 0x54000000#32, 0xFFFFFFFF#32⟩ ]

end Sys2Proof
end

