-- ==== Sys2Proof/Machine/HostPort.lean ====
section
/-! DEFINITION. The host port (R32, R35) and reset (R45, R280). -/

namespace Sys2Proof.Machine

/-- What the host reads from a register (R32), zero-extended to the width of `RES`. -/
def State.hostRead (s : State) (r : HostReg) : BitVec 96 :=
  match r with
  | .cmd => s.cmd.setWidth 96
  | .arg => s.arg.setWidth 96
  | .dbuf k => (s.dbuf.get k).setWidth 96
  | .res => s.res
  | .status => s.status.toByte.setWidth 96
  | .seqPc => s.seqPc.setWidth 96

/-- The host reads a register: the value is recorded and nothing else changes (R32). -/
def State.observe (s : State) (r : HostReg) : State := { s with seen := s.seen ++ [(r, s.hostRead r)] }

/-- Reset of the engine (R45, R280): its registers take the values of `State.reset`; `CFG`, the target and the other agents are not
its own and stay; no bus transaction and no sleep. The trace of the command cut off joins the traces before it. -/
def State.resetEngine (s : State) : State :=
  { s with
    cmd := State.reset.cmd
    arg := State.reset.arg
    dbuf := State.reset.dbuf
    res := State.reset.res
    status := State.reset.status
    seqPc := State.reset.seqPc
    tmp := State.reset.tmp
    run := none
    history := s.history ++ s.trace
    trace := [] }

/-- Reset at any time: a command in progress is abandoned first (R45). -/
def State.resetNow (s : State) (landed : List Bool) : State :=
  match s.run with
  | none => s.resetEngine
  | some r => (s.abandon r landed).resetEngine

/-- The next access is the host's write of a command word: the word, and the state with `CMD` written (R30). -/
def State.fetch (s : State) : Option (Word × State) :=
  match s.inputs with
  | .cmd w :: rest => some (w, { s with inputs := rest, cmd := w })
  | .arg _ :: _ => none
  | .dbuf _ _ :: _ => none
  | .read _ :: _ => none
  | .reset _ :: _ => none
  | [] => none

/-- A step of the idle engine without a command word: the host's access, a reset, or nothing (R32, R35). -/
def State.idleStep (s : State) : State :=
  match s.inputs with
  | [] => s
  | .cmd _ :: _ => s
  | .arg v :: rest => { s with inputs := rest, arg := v }
  | .dbuf k b :: rest => { s with inputs := rest, dbuf := s.dbuf.put k b }
  | .read r :: rest => { s with inputs := rest }.observe r
  | .reset landed :: rest => { s with inputs := rest }.resetNow landed

/-- What may come to the engine while `BUSY = 1`: reads of `STATUS` and `SEQ_PC`, and reset (R32, R45). Any other access has no
meaning (U6): the host does not make it and waits. -/
def State.busyInput (s : State) : State :=
  match s.inputs with
  | .read .status :: rest => { s with inputs := rest }.observe .status
  | .read .seqPc :: rest => { s with inputs := rest }.observe .seqPc
  | .reset landed :: rest => { s with inputs := rest }.resetNow landed
  | .read .cmd :: _ => s
  | .read .arg :: _ => s
  | .read (.dbuf _) :: _ => s
  | .read .res :: _ => s
  | .cmd _ :: _ => s
  | .arg _ :: _ => s
  | .dbuf _ _ :: _ => s
  | [] => s

/-- A step of the engine with a command in progress (R41, R264): if the collaborator answers, the command goes on; if not, one step
of its delay is over and the host may look. -/
def State.waitStep (s : State) (r : Running) : State :=
  if r.ready s then drive (r.prog.length + 1) r s else (s.tick r).busyInput

/-- The host has written a word that is not legal: `IllegalCommand` (R93, R252). -/
def State.illegalCommand (s : State) : State := s.reject .illegalCommand

/-- The program side of `withFetchWord`: the host's next access writes this word to `CMD`, and no command is in progress. -/
def State.offerWord (s : State) (w : Word) : State := { s with inputs := .cmd w :: s.inputs, run := none }

end Sys2Proof.Machine
end

