-- ==== Sys2Proof/Machine/Step.lean ====
section
/-! DEFINITION. One step of the machine. With a command in progress, the engine waits or goes on (R41, R264). Idle, it takes the next
access of the host; a write of `CMD` is one whole command (R35, U6). Every step has a next state. -/

namespace Sys2Proof.Machine

/-- One step. -/
def step (s : State) : Host.Outcome State Fault Refusal :=
  match s.run with
  | some r => .next (s.waitStep r)
  | none =>
    match s.fetch with
    | none => .next s.idleStep
    | some (w, s1) =>
      match decode w with
      | .ok i => exec i s1
      | .error _ => .next s1.illegalCommand

/-- The next command word comes from the host's write of `CMD`: the engine fetches nothing by itself (R280, R282). The state with
that write as the host's next access and no command in progress. Log entry 5. -/
def State.withFetchWord (s : State) (nbits w : Nat) : State := s.offerWord (BitVec.ofNat 32 (w % 2 ^ nbits))

end Sys2Proof.Machine
end

