-- ==== Sys2Proof/Machine/Plan.lean ====
section
/-! DEFINITION. The micro-program of each command in one table (R210): what the statements about a command in progress, or ended by
an exception, refer to. That every meaning runs its entry of this table is proved (`exec_eq_follow`). -/

namespace Sys2Proof.Machine

/-- The plan of a read converter: the spans of its quantity, if they lie inside the address space (R62, R162). -/
def readPlan (q : Quantity) (c : Config) : Option (List Line × Finish) :=
  if q.spansFit c then
    some ((q.spans c).map (fun x => { entry := .rd x.1 x.2 }), .quantity q)
  else none

/-- The micro-program a command runs, of `CFG`, `ARG` and `DBUF` when it starts, and what it writes when it completes; none if its
operands are rejected (R251). -/
def planOf (i : Instr) (c : Config) (arg : Word) (d : DataBuf) : Option (List Line × Finish) :=
  match i with
  | .rdreg a len => if spanLegal a len.toNat then some ([{ entry := .rd a len.toNat }], .toDbuf) else none
  | .wrreg a len => if spanLegal a len.toNat then some ([{ entry := .wr a (d.toList.take len.toNat) }], .keep) else none
  | .rdbit a bit => some ([{ entry := .rd a 1 }], .bitOf bit.toNat)
  | .setbit a bit v => some ([{ entry := .rmw a (sbKeep bit.toNat v) (sbOr bit.toNat v) }], .keep)
  | .rdfld a mask shift => some ([{ entry := .rd a 1 }], .fieldOf mask shift.toNat)
  | .wrfld a mask shift => some ([{ entry := .rmw a (~~~mask) (fieldBits mask shift.toNat (arg.extractLsb' 0 8)) }], .keep)
  | .dec8 => some ([], .value (dec8 d.b0))
  | .dec12 => some ([], .value (dec12 d.b0 d.b1))
  | .dec13 => some ([], .value (dec13 d.b0 d.b1))
  | .dec16 => some ([], .value (dec16 d.b0 d.b1))
  | .dec24 => some ([], .value (dec24 d.b0 d.b1 d.b2))
  | .dec32 => some ([], .value (dec32 d.b0 d.b1 d.b2 d.b3))
  | .cvtPct => some ([], .value (pct arg.toNat))
  | .wrDcdc index => (railOf index).map (fun r => ([{ entry := dcdcEntry c r arg.toNat }], .keep))
  | .wrLdo index => (ldoOf index).map (fun k => ([{ entry := ldoEntry c k arg.toNat }], .keep))
  | .wrChgi => (encChg c arg.toNat).map (fun k => ([{ entry := chgEntry c k }], .keep))
  | .wrBright => (encBright c arg.toNat).map (fun k => ([{ entry := brightEntry c k }], .keep))
  | .init => (encChg c c.maChgDefault).map (fun k => (initProgram c k, .inited))
  | .sleepPrep => some (sleepPrepProgram c, .keep)
  | .sleepRestore => some (sleepRestoreProgram c, .keep)
  | .buspwr m => some (buspwrProgram c m, .keep)
  | .pwroff => some (pwroffProgram c, .keep)
  | .rdBatv => readPlan .batV c
  | .rdBati => readPlan .batI c
  | .rdBatichg => readPlan .batIchg c
  | .rdBatp => readPlan .batP c
  | .rdVinv => readPlan .vinV c
  | .rdVini => readPlan .vinI c
  | .rdVbusv => readPlan .vbusV c
  | .rdVbusi => readPlan .vbusI c
  | .rdApsv => readPlan .apsV c
  | .rdTemp => readPlan .temp c
  | .rdCcin => readPlan .ccIn c
  | .rdCcout => readPlan .ccOut c
  | .rdBatpct => readPlan .batPct c

end Sys2Proof.Machine
end

