-- ==== Sys2Proof/Safety.lean ====
section
/-! DEFINITION. The terms of the statements: what the target and the collaborators are in a state, how a command can end, what an
operation list does to the reference target, the states a command passes through while it waits, what the trace, `SEQ_PC` and the
target say of its micro-program, and the invariant of the machine. -/

namespace Sys2Proof.Machine

/-- How the bus side answers transaction `k` of the next command, counted from 0. -/
def State.replyAt (s : State) (k : Nat) : Reply := s.replies.getD k {}

/-- The bus side answers at once, with success. -/
abbrev Reply.acks (x : Reply) : Prop := x.delay = 0 ∧ x.result = .ack

/-- The bus side answers at once, with a failure whose bytes landed as `l` says. -/
abbrev Reply.nacks (x : Reply) (l : List Bool) : Prop := x.delay = 0 ∧ x.result = .nack l

/-- The first `n` transactions of the next command succeed at once. -/
abbrev State.acks (s : State) (n : Nat) : Prop := ∀ k < n, (s.replyAt k).acks

/-- The target's registers when transaction `k` of the next command is served, if no transaction before it writes: what they are now,
with every change the target makes by itself until then (R20 (3), R61). -/
def State.targetAt (s : State) : Nat → Memory
  | 0 => Memory.selfChange s.target (s.replyAt 0).selfChanges
  | k + 1 => Memory.selfChange (s.targetAt k) (s.replyAt (k + 1)).selfChanges

/-- The target is the reference target of R78 and every collaborator answers at once: no listed answer differs from that. -/
abbrev State.onReference (s : State) : Prop := (∀ x ∈ s.replies, x = {}) ∧ (∀ x ∈ s.timer, x = {})

/-- Every collaborator answers every request, with success or failure, however late (R264's premise). -/
abbrev State.allAnswer (s : State) : Prop := (∀ x ∈ s.replies, x.result ≠ .never) ∧ (∀ x ∈ s.timer, x.returns = true)

/-- Every answer to come, of the bus side and of the timer, comes at once. -/
abbrev State.noDelay (s : State) : Prop := (∀ x ∈ s.replies, x.delay = 0) ∧ (∀ x ∈ s.timer, x.delay = 0)

/-- The same machine whose collaborators give the same answers, each of them at once. -/
def State.prompt (s : State) : State :=
  { s with replies := s.replies.map (fun x => { x with delay := 0 }), timer := s.timer.map (fun x => { x with delay := 0 }) }

/-- No reset is among the host's accesses to come. -/
abbrev State.noReset (s : State) : Prop := ∀ landed, Input.reset landed ∉ s.inputs

/-- In this step a reset cuts off the command in progress `r`, which waits (R45). -/
def State.cutOff (s : State) (r : Running) : Bool :=
  !r.ready s && match s.inputs with
    | .reset _ :: _ => true
    | .cmd _ :: _ => false
    | .arg _ :: _ => false
    | .dbuf _ _ :: _ => false
    | .read _ :: _ => false
    | [] => false

/-- The states that command `i`, started in `s`, passes through: the one in which `exec` answers and, as long as the command waits
there, the one after each later step, until it ends or a reset cuts it off (R35, R41, R264). -/
inductive Along (i : Instr) (s : State) : State → Prop where
  | first {t : State} (h : exec i s = .next t) : Along i s t
  | later {t u : State} {r : Running} (h : Along i s t) (hr : t.run = some r) (hc : t.cutOff r = false) (hs : step t = .next u) :
      Along i s u

/-- A command that ended: its `STATUS` and `SEQ_PC`, with everything no command writes as it was (R23, R30), and the traces of the
commands before it joined to the history (R36). -/
structure Ended (s t : State) (st : Status) (pc : BitVec 8) : Prop where
  status : t.status = st
  seqPc : t.seqPc = pc
  run : t.run = none
  cfg : t.cfg = s.cfg
  cmd : t.cmd = s.cmd
  arg : t.arg = s.arg
  inputs : t.inputs = s.inputs
  seen : t.seen = s.seen
  history : t.history = s.history ++ s.trace

/-- `STATUS` after a completion without exception: 0x02, or 0x12 after a write, beside `INITED` (R29). -/
def State.okStatus (s : State) (wrote : Bool) : Status := ⟨false, true, .ok, wrote, s.status.inited, false⟩

/-- `STATUS` after a completion with an exception, beside `INITED` (R29, R256). -/
def State.errStatus (s : State) (e : ErrCode) (wrote failw : Bool) : Status := ⟨false, true, e, wrote, s.status.inited, failw⟩

/-- A command rejected before anything started (R94, R251, R252): the exception's code, an empty trace, and nothing else. -/
structure Rejected (s t : State) (e : ErrCode) : Prop where
  ended : Ended s t (s.errStatus e false false) 0
  trace : t.trace = []
  res : t.res = s.res
  dbuf : t.dbuf = s.dbuf
  tmp : t.tmp = s.tmp
  replies : t.replies = s.replies
  timer : t.timer = s.timer
  memory : ∀ x, Memory.byte t.target x = Memory.byte s.target x

/-- A command without bus traffic that put `v` into `RES` (R150 to R156, R176). -/
structure PureEnds (s t : State) (v : Int) : Prop where
  ended : Ended s t (s.okStatus false) 0
  res : t.res.toInt = v
  trace : t.trace = []
  dbuf : t.dbuf = s.dbuf
  tmp : t.tmp = s.tmp
  replies : t.replies = s.replies
  timer : t.timer = s.timer
  memory : ∀ x, Memory.byte t.target x = Memory.byte s.target x

/-- A command whose one transaction is a read of `n` bytes at `a`, and that read succeeded. `RES` and `DBUF` are said apart. -/
structure ReadEnds (s t : State) (a : Byte) (n : Nat) : Prop where
  ended : Ended s t (s.okStatus false) 1
  trace : t.trace = [.rd a n (Memory.span (s.targetAt 0) a.toNat n)]
  tmp : t.tmp = s.tmp
  replies : t.replies = s.replies.drop 1
  timer : t.timer = s.timer
  memory : ∀ x, Memory.byte t.target x = Memory.byte (s.targetAt 0) x

/-- A command whose first transaction is a read of `n` bytes at `a`, and that read failed (R250, R256). -/
structure ReadFails (s t : State) (a : Byte) (n : Nat) : Prop where
  ended : Ended s t (s.errStatus .busError false false) 0
  trace : t.trace = [.rdFail a n]
  res : t.res = s.res
  dbuf : t.dbuf = s.dbuf
  tmp : t.tmp = s.tmp
  replies : t.replies = s.replies.drop 1
  timer : t.timer = s.timer
  memory : ∀ x, Memory.byte t.target x = Memory.byte (s.targetAt 0) x

/-- A command whose one transaction is a write of `bytes` at `a`, and that write succeeded: byte `k` went to the register at
`a + k` (R62), and every register outside the span is as it was. -/
structure WriteEnds (s t : State) (a : Byte) (bytes : List Byte) : Prop where
  ended : Ended s t (s.okStatus true) 1
  trace : t.trace = [.wr a bytes]
  res : t.res = s.res
  dbuf : t.dbuf = s.dbuf
  tmp : t.tmp = s.tmp
  replies : t.replies = s.replies.drop 1
  timer : t.timer = s.timer
  stored : ∀ k (h : k < bytes.length), Memory.byte t.target (a.toNat + k) = bytes[k]
  memory : ∀ x, x < a.toNat ∨ a.toNat + bytes.length ≤ x → Memory.byte t.target x = Memory.byte (s.targetAt 0) x

/-- A command whose one transaction is a write of `bytes` at `a`, and that write failed: each register addressed holds its old byte
or the byte sent (R262), every other one what it held. -/
structure WriteFails (s t : State) (a : Byte) (bytes : List Byte) : Prop where
  ended : Ended s t (s.errStatus .busError false true) 0
  trace : t.trace = [.wrFail a bytes]
  res : t.res = s.res
  dbuf : t.dbuf = s.dbuf
  tmp : t.tmp = s.tmp
  replies : t.replies = s.replies.drop 1
  timer : t.timer = s.timer
  drawn : ∀ k (h : k < bytes.length), Memory.byte t.target (a.toNat + k) = bytes[k]
    ∨ Memory.byte t.target (a.toNat + k) = Memory.byte (s.targetAt 0) (a.toNat + k)
  memory : ∀ x, x < a.toNat ∨ a.toNat + bytes.length ≤ x → Memory.byte t.target x = Memory.byte (s.targetAt 0) x

/-- The byte the read half of a command's read-modify-write of `a` returns. -/
def State.oldByte (s : State) (a : Byte) : Byte := Memory.byte (s.targetAt 0) a.toNat

/-- A command whose micro-program is one read-modify-write of register `a`, completed: the byte written is `new` of the byte read,
the write is issued whatever the byte (R17), and every other register is as it was when the write was served. -/
structure RmwEnds (s t : State) (a : Byte) (new : Byte → Byte) : Prop where
  ended : Ended s t (s.okStatus true) 1
  trace : t.trace = [.rd a 1 [s.oldByte a], .wr a [new (s.oldByte a)]]
  tmp : t.tmp = s.oldByte a
  res : t.res = s.res
  dbuf : t.dbuf = s.dbuf
  replies : t.replies = s.replies.drop 2
  timer : t.timer = s.timer
  stored : Memory.byte t.target a.toNat = new (s.oldByte a)
  memory : ∀ x, x ≠ a.toNat → Memory.byte t.target x = Memory.byte (s.targetAt 1) x

/-- The same command when its write failed: `FAILW`, and the register holds its old byte or the byte sent (R250, R262). -/
structure RmwWriteFails (s t : State) (a : Byte) (new : Byte → Byte) : Prop where
  ended : Ended s t (s.errStatus .busError false true) 0
  trace : t.trace = [.rd a 1 [s.oldByte a], .wrFail a [new (s.oldByte a)]]
  tmp : t.tmp = s.oldByte a
  res : t.res = s.res
  dbuf : t.dbuf = s.dbuf
  replies : t.replies = s.replies.drop 2
  timer : t.timer = s.timer
  drawn : Memory.byte t.target a.toNat = new (s.oldByte a)
    ∨ Memory.byte t.target a.toNat = Memory.byte (s.targetAt 1) a.toNat
  memory : ∀ x, x ≠ a.toNat → Memory.byte t.target x = Memory.byte (s.targetAt 1) x

/-- What a command does whose micro-program is one read-modify-write of register `a` with `new`: it completes when both transactions
succeed, ends with `BusError` and no write when the read fails, and with `BusError` and `FAILW` when the write fails. -/
def RunsRmw (i : Instr) (s : State) (a : Byte) (new : Byte → Byte) : Prop :=
  (s.acks 2 → ∃ t, exec i s = .next t ∧ RmwEnds s t a new)
    ∧ (∀ l, (s.replyAt 0).nacks l → ∃ t, exec i s = .next t ∧ ReadFails s t a 1)
    ∧ (∀ l, s.acks 1 → (s.replyAt 1).nacks l → ∃ t, exec i s = .next t ∧ RmwWriteFails s t a new)

/-- What a command does whose micro-program is one read of `n` bytes at `a` and that turns the bytes into `v` in `RES`: it completes
when the read succeeds, and ends with `BusError` and `RES` unchanged when it fails. -/
def ReadsIntoRes (i : Instr) (s : State) (a : Byte) (n : Nat) (v : Int) : Prop :=
  (s.acks 1 → ∃ t, exec i s = .next t ∧ ReadEnds s t a n ∧ t.dbuf = s.dbuf ∧ t.res.toInt = v)
    ∧ (∀ l, (s.replyAt 0).nacks l → ∃ t, exec i s = .next t ∧ ReadFails s t a n)

/-- Byte `k` of the span at `a` when the first transaction of the next command is served, as a number. -/
def State.firstRead (s : State) (a : Byte) (k : Nat) : Nat := (Memory.byte (s.targetAt 0) (a.toNat + k)).toNat

/-- The 12-bit value of the span at `a` (R151): the second byte added whole. -/
def State.read12 (s : State) (a : Byte) : Nat := 16 * s.firstRead a 0 + s.firstRead a 1

/-- One register operation of a sequence: a read-modify-write or a blind write of one byte (R17, R210). -/
inductive RegOp where
  | patch (addr keep orBits : Byte)
  | store (addr value : Byte)
  deriving DecidableEq, Repr

/-- The `setBit` of R131 as a register operation. -/
def RegOp.setBit (addr : Byte) (bit : Fin 8) (v : Bool) : RegOp :=
  if v then .patch addr 0xFF#8 (BitVec.twoPow 8 bit) else .patch addr (~~~BitVec.twoPow 8 bit) 0#8

/-- The byte `b` with one bit at a level, the other seven as they are (R131). -/
def withBit (b : Byte) (bit : Nat) (v : Bool) : Byte :=
  if v then b ||| BitVec.twoPow 8 bit else b &&& ~~~BitVec.twoPow 8 bit

/-- The entry of a micro-program that is this register operation (R210). -/
def RegOp.entry : RegOp → Entry
  | .patch a keep orBits => .rmw a keep orBits
  | .store a v => .wr a [v]

/-- The lines of a micro-program that are these register operations, in order (R210). -/
def linesOf (ops : List RegOp) : List Line := ops.map (fun op => { entry := op.entry })

/-- What a register operation leaves in a plain store (R78). -/
def RegOp.apply (m : Memory) : RegOp → Memory
  | .patch a keep orBits => Memory.put m a.toNat ((Memory.byte m a.toNat &&& keep) ||| orBits)
  | .store a v => Memory.put m a.toNat v

/-- The events of a register operation on a plain store (R36). -/
def RegOp.events (m : Memory) : RegOp → List Event
  | .patch a keep orBits => [.rd a 1 [Memory.byte m a.toNat], .wr a [(Memory.byte m a.toNat &&& keep) ||| orBits]]
  | .store a v => [.wr a [v]]

/-- A list of register operations, in order, on a plain store. -/
def applyOps (m : Memory) (ops : List RegOp) : Memory := ops.foldl RegOp.apply m

/-- The events of a list of register operations, in order, on a plain store. -/
def opsEvents (m : Memory) : List RegOp → List Event
  | [] => []
  | op :: rest => op.events m ++ opsEvents (op.apply m) rest

/-- A sequence command that ended well on the reference target: exactly the operations `ops`, in order. -/
structure SequenceEnds (s t : State) (ops : List RegOp) : Prop where
  ended : Ended s t (s.okStatus true) (BitVec.ofNat 8 ops.length)
  trace : t.trace = opsEvents s.target ops
  res : t.res = s.res
  dbuf : t.dbuf = s.dbuf
  timer : t.timer = s.timer
  memory : ∀ x, Memory.byte t.target x = Memory.byte (applyOps s.target ops) x

/-- The register operation of a DC-DC write of `mv` to rail `r` (R190, R191, R216). -/
def dcdcOp (c : Config) (r : Fin 3) (mv : Nat) : RegOp :=
  let w := widthBits (atRail c.wDcdc r)
  .patch (atRail c.aDcdc r) (BitVec.ofNat 8 (256 - 2 ^ w)) (BitVec.ofNat 8 ((mv - 700) / 25 % 2 ^ w))

/-- The register operation of an LDO write of `mv` to index `k` (R192, R193, R218). -/
def ldoOp (c : Config) (k : Fin 2) (mv : Nat) : RegOp :=
  let code := (min (max mv c.ldoMinMv) c.ldoMaxMv - c.ldoMinMv) / c.ldoStepMv
  if k = c.ldoHiIndex then .patch c.aLdo 0x0F#8 (BitVec.ofNat 8 (code * 16)) else .patch c.aLdo 0xF0#8 (BitVec.ofNat 8 code)

/-- The operation of one entry of a bus-power-mode table (R230, R232). -/
def patchOp (p : RegPatch) : RegOp := .patch p.addr p.keep p.orBits

/-- The four operations of a bus-power mode (R232). -/
def bpmOps (c : Config) : BusMode → List RegOp
  | .sink => [patchOp c.bpmSink.e0, patchOp c.bpmSink.e1, patchOp c.bpmSink.e2, patchOp c.bpmSink.e3]
  | .source => [patchOp c.bpmSource.e0, patchOp c.bpmSource.e1, patchOp c.bpmSource.e2, patchOp c.bpmSource.e3]

/-- The operations of `INIT` before the hold, entries 0 to 13 (R213 to R225), `k` the index of 100 mA in `CHG_TABLE`. -/
def initOpsBeforeHold (c : Config) (k : Nat) : List RegOp :=
  [ .patch c.aPwrpath c.ppKeep c.ppOr,
    .patch c.aDcctlA c.dcctlKeepA 0#8,
    .patch c.aDcctlB c.dcctlKeepB 0#8,
    .patch c.aChgv c.chgvKeep c.chgvOr,
    dcdcOp c c.railMcu c.mvMcu,
    dcdcOp c c.railDisp c.mvDisp,
    ldoOp c 0 c.mvLdo0,
    ldoOp c 1 c.mvLdo1,
    .setBit c.aOuten c.bEnLdo true,
    .setBit c.aOuten c.bEnDcdc true,
    .setBit c.aLed c.bLed c.ledOnLevel,
    .patch c.aChg (~~~c.chgMask) ((BitVec.ofNat 8 k <<< c.chgShift.val) &&& c.chgMask),
    .store c.aAdcen c.vAdcOn,
    .setBit c.aDisprst c.bDisprst c.lRstDeassert ]

/-- The operation of `INIT` after the hold and before the branch, entry 15 (R227). -/
def initOpAfterHold (c : Config) : RegOp := .setBit c.aDisprst c.bDisprst (!c.lRstDeassert)

/-- The operations of `INIT` after the branch (R229, R230). -/
def initOpsAfterBranch (c : Config) (external : Bool) : List RegOp :=
  if external then .setBit c.aExtflag c.bExtflag true :: bpmOps c .source else bpmOps c .sink

/-- The operations of `SLEEP_PREP` (R236). -/
def sleepPrepOps (c : Config) : List RegOp :=
  [ .store c.aAdcen c.vAdcOff, .setBit c.aLed c.bLed (!c.ledOnLevel), .setBit c.aOuten c.bSleepDcdc false ]

/-- The operations of `SLEEP_RESTORE` (R237). -/
def sleepRestoreOps (c : Config) : List RegOp :=
  [ .setBit c.aOuten c.bSleepDcdc true, .setBit c.aLed c.bLed c.ledOnLevel, .store c.aAdcen c.vAdcOn ]

/-- The table of `INIT`, entries 0 to 25, with its branch and its jump (R211 to R230). -/
def initLines (c : Config) (k : Nat) : List Line :=
  linesOf (initOpsBeforeHold c k)
    ++ [{ entry := .slp c.tHoldMs }, { entry := (initOpAfterHold c).entry }, { entry := .br c.aStatus c.bExtpwr 17 22 }]
    ++ linesOf (.setBit c.aExtflag c.bExtflag true :: (bpmOps c .source).take 3)
    ++ ((bpmOps c .source).drop 3).map (fun op => { entry := op.entry, jmp := some 26 })
    ++ linesOf (bpmOps c .sink)

/-- An event without its data: which transaction on which address, or a sleep. -/
inductive EventShape where
  | read (addr : Byte)
  | write (addr : Byte)
  | sleep (ms : Nat)
  deriving DecidableEq, Repr

/-- The shape of an event: a failed transaction has the shape of the transaction tried. -/
def Event.shape : Event → EventShape
  | .rd a _ _ => .read a
  | .rdFail a _ => .read a
  | .wr a _ => .write a
  | .wrFail a _ => .write a
  | .slp ms => .sleep ms

/-- A failed transaction. -/
def Event.failed : Event → Bool
  | .rd _ _ _ => false
  | .rdFail _ _ => true
  | .wr _ _ => false
  | .wrFail _ _ => true
  | .slp _ => false

/-- A write, failed or not. -/
def Event.isWrite : Event → Bool
  | .rd _ _ _ => false
  | .rdFail _ _ => false
  | .wr _ _ => true
  | .wrFail _ _ => true
  | .slp _ => false

/-- A sleep. -/
def Event.isSleep : Event → Bool
  | .rd _ _ _ => false
  | .rdFail _ _ => false
  | .wr _ _ => false
  | .wrFail _ _ => false
  | .slp _ => true

/-- The read and the write of a read-modify-write. -/
def rmwShape (a : Byte) : List EventShape := [.read a, .write a]

/-- The transactions of a bus-power mode, in order (R232). -/
def bpmShape (t : BpmTable) : List EventShape :=
  rmwShape t.e0.addr ++ rmwShape t.e1.addr ++ rmwShape t.e2.addr ++ rmwShape t.e3.addr

/-- The transactions and the sleep of a complete `INIT`, in order, on either path (R211). -/
def initShape (c : Config) (external : Bool) : List EventShape :=
  rmwShape c.aPwrpath ++ rmwShape c.aDcctlA ++ rmwShape c.aDcctlB ++ rmwShape c.aChgv
    ++ rmwShape (atRail c.aDcdc c.railMcu) ++ rmwShape (atRail c.aDcdc c.railDisp) ++ rmwShape c.aLdo ++ rmwShape c.aLdo
    ++ rmwShape c.aOuten ++ rmwShape c.aOuten ++ rmwShape c.aLed ++ rmwShape c.aChg ++ [.write c.aAdcen]
    ++ rmwShape c.aDisprst ++ [.sleep c.tHoldMs] ++ rmwShape c.aDisprst ++ [.read c.aStatus]
    ++ (if external then rmwShape c.aExtflag ++ bpmShape c.bpmSource else bpmShape c.bpmSink)

/-- The operands of a command lie outside the documented domain: the complete list of R251. -/
def OutOfDomain (i : Instr) (s : State) : Prop :=
  match i with
  | .rdreg a len => len.toNat = 0 ∨ 4 < len.toNat ∨ 256 < a.toNat + len.toNat
  | .wrreg a len => len.toNat = 0 ∨ 4 < len.toNat ∨ 256 < a.toNat + len.toNat
  | .wrDcdc index => 2 < index.toNat
  | .wrLdo index => 1 < index.toNat
  | .wrChgi => s.arg.toNat ∉ s.cfg.chgTable
  | .wrBright => s.arg.toNat = 0
  | _ => False

/-- The entry `e` has completed with the events `es` and the micro-program goes on at `k'`; `next` is the index after the entry, or that
of the `JMP` it carries (R17, R210). -/
def Entry.Ran (e : Entry) (next : Nat) (es : List Event) (k' : Nat) : Prop :=
  match e with
  | .rd a n => k' = next ∧ ∃ bytes, bytes.length = n ∧ es = [.rd a n bytes]
  | .wr a bytes => k' = next ∧ es = [.wr a bytes]
  | .rmw a keep orBits => k' = next ∧ ∃ b, es = [.rd a 1 [b], .wr a [(b &&& keep) ||| orBits]]
  | .sb a bit v => k' = next ∧ ∃ b, es = [.rd a 1 [b], .wr a [withBit b bit v]]
  | .slp ms => k' = next ∧ es = [.slp ms]
  | .br a bit t1 t0 => ∃ b, es = [.rd a 1 [b]] ∧ k' = if b.getLsbD bit then t1 else t0

/-- The entry `e` has failed with the events `es`; `failw` says whether in a write (R250, R256): the failing transaction is the last
event, and before it stands only the read of the same read-modify-write. -/
def Entry.Failed (e : Entry) (failw : Bool) (es : List Event) : Prop :=
  match e with
  | .rd a n => failw = false ∧ es = [.rdFail a n]
  | .wr a bytes => failw = true ∧ es = [.wrFail a bytes]
  | .rmw a keep orBits =>
    (failw = false ∧ es = [.rdFail a 1]) ∨ (failw = true ∧ ∃ b, es = [.rd a 1 [b], .wrFail a [(b &&& keep) ||| orBits]])
  | .sb a bit v =>
    (failw = false ∧ es = [.rdFail a 1]) ∨ (failw = true ∧ ∃ b, es = [.rd a 1 [b], .wrFail a [withBit b bit v]])
  | .slp _ => False
  | .br a _ _ _ => failw = false ∧ es = [.rdFail a 1]

/-- The entry `e` waits with the events `es`: none, or (`half`) the read of a read-modify-write, whose byte is in `TMP` (R28). -/
def Entry.Begun (e : Entry) (half : Bool) (tmp : Byte) (es : List Event) : Prop :=
  match e with
  | .rmw a _ _ => es = if half then [.rd a 1 [tmp]] else []
  | .sb a _ _ => es = if half then [.rd a 1 [tmp]] else []
  | .rd _ _ => half = false ∧ es = []
  | .wr _ _ => half = false ∧ es = []
  | .slp _ => half = false ∧ es = []
  | .br _ _ _ _ => half = false ∧ es = []

/-- A micro-program has run from its entry 0 to index `k`, every entry on the way completed, with the events `es` (R27, R210). -/
inductive ProgramRan (prog : List Line) : Nat → List Event → Prop where
  | start : ProgramRan prog 0 []
  | entry {k k' : Nat} {done es : List Event} {l : Line} (h : ProgramRan prog k done) (hl : prog[k]? = some l)
      (he : l.entry.Ran (l.jmp.getD (k + 1)) es k') : ProgramRan prog k' (done ++ es)

/-- What the trace and `SEQ_PC` say of a command with the micro-program `prog` (R27, R210, R256). Every entry before `SEQ_PC` has
completed (`done`) and none after it has started. A command that waits has begun the entry at `SEQ_PC`; one that ended without
exception has come to the end index; one that ended with `BusError` failed in the entry at `SEQ_PC`. -/
def State.Tracks (t : State) (prog : List Line) : Prop :=
  ∃ done part, t.trace = done ++ part ∧ ProgramRan prog t.seqPc.toNat done ∧
    match t.run with
    | some r => t.status.err = .ok ∧ ∃ l, prog[t.seqPc.toNat]? = some l ∧ l.entry.Begun r.half t.tmp part
    | none =>
      (t.status.err = .ok ∧ t.seqPc.toNat = prog.length ∧ part = [])
        ∨ (t.status.err = .busError ∧ ∃ l, prog[t.seqPc.toNat]? = some l ∧ l.entry.Failed t.status.failw part)

/-- How many of the events are transactions. -/
def transactions (es : List Event) : Nat := es.countP (fun e => !e.isSleep)

/-- The target's registers are `m` when the events `es` have happened to it since `s` (R61, R62, R262): transaction `k` met answer `k`
and the changes the target then made by itself; a read returned what the registers then held; a write that succeeded put its bytes
there; one that failed put those the answer says. Nothing else touched them, and nothing was undone. -/
inductive State.Served (s : State) : List Event → Memory → Prop where
  | start : s.Served [] s.target
  | sleep {es : List Event} {m : Memory} (ms : Nat) (h : s.Served es m) : s.Served (es ++ [.slp ms]) m
  | read {es : List Event} {m m' : Memory} (a : Byte) (n : Nat) (h : s.Served es m)
      (hr : (s.replyAt (transactions es)).result = .ack)
      (hm : m' = Memory.selfChange m (s.replyAt (transactions es)).selfChanges) :
      s.Served (es ++ [.rd a n (Memory.span m' a.toNat n)]) m'
  | readFail {es : List Event} {m m' : Memory} {l : List Bool} (a : Byte) (n : Nat) (h : s.Served es m)
      (hr : (s.replyAt (transactions es)).result = .nack l)
      (hm : m' = Memory.selfChange m (s.replyAt (transactions es)).selfChanges) :
      s.Served (es ++ [.rdFail a n]) m'
  | write {es : List Event} {m m' : Memory} (a : Byte) (bytes : List Byte) (h : s.Served es m)
      (hr : (s.replyAt (transactions es)).result = .ack)
      (hm : m' = Memory.selfChange m (s.replyAt (transactions es)).selfChanges) :
      s.Served (es ++ [.wr a bytes]) (Memory.putSpan m' a.toNat bytes)
  | writeFail {es : List Event} {m m' : Memory} {l : List Bool} (a : Byte) (bytes : List Byte) (h : s.Served es m)
      (hr : (s.replyAt (transactions es)).result = .nack l)
      (hm : m' = Memory.selfChange m (s.replyAt (transactions es)).selfChanges) :
      s.Served (es ++ [.wrFail a bytes]) (Memory.landSpan m' a.toNat bytes l)

/-- The number the host reads from `STATUS`: the fields at their places in R29. -/
def Status.value (t : Status) : Nat :=
  t.busy.toNat + 2 * t.done.toNat
    + (match t.err with
      | .ok => 0
      | .busError => 4
      | .invalidArgument => 8
      | .illegalCommand => 12)
    + 16 * t.wrote.toNat + 32 * t.inited.toNat + 64 * t.failw.toNat

/-- The thirteen read converters (R161). -/
def readConverter : Instr → Bool
  | .rdBatv | .rdBati | .rdBatichg | .rdBatp | .rdVinv | .rdVini | .rdVbusv | .rdVbusi | .rdApsv | .rdTemp | .rdCcin | .rdCcout
  | .rdBatpct => true
  | _ => false

/-- The quantity of a read converter (R161). -/
def quantityOf : Instr → Option Quantity
  | .rdBatv => some .batV
  | .rdBati => some .batI
  | .rdBatichg => some .batIchg
  | .rdBatp => some .batP
  | .rdVinv => some .vinV
  | .rdVini => some .vinI
  | .rdVbusv => some .vbusV
  | .rdVbusi => some .vbusI
  | .rdApsv => some .apsV
  | .rdTemp => some .temp
  | .rdCcin => some .ccIn
  | .rdCcout => some .ccOut
  | .rdBatpct => some .batPct
  | _ => none

/-- The commands without bus traffic (R67, last row). -/
def trafficFree : Instr → Bool
  | .dec8 | .dec12 | .dec13 | .dec16 | .dec24 | .dec32 | .cvtPct => true
  | _ => false

/-- The commands that write `RES` (R25). -/
def givesResult : Instr → Bool
  | .rdbit _ _ => true
  | .rdfld _ _ _ => true
  | i => readConverter i || trafficFree i

/-- The index past the last entry of a command's table, where `SEQ_PC` ends (R27). -/
def endIndex : Instr → BitVec 8
  | .init => 26
  | .buspwr _ => 4
  | .sleepPrep => 3
  | .sleepRestore => 3
  | .rdBati => 2
  | i => if trafficFree i then 0 else 1

/-- The bits of rail `r`'s code, with the register (R134, R190). -/
def dcdcField (c : Config) (r : Fin 3) : Byte × Byte := (atRail c.aDcdc r, BitVec.ofNat 8 (2 ^ widthBits (atRail c.wDcdc r) - 1))

/-- The nibble of LDO index `k`, with the register (R134, R192). -/
def ldoField (c : Config) (k : Fin 2) : Byte × Byte := (c.aLdo, if k = c.ldoHiIndex then 0xF0#8 else 0x0F#8)

/-- The bits a command of one read-modify-write targets, with the register (R134). -/
def targetedBits (i : Instr) (s : State) : Option (Byte × Byte) :=
  match i with
  | .setbit a bit _ => some (a, BitVec.twoPow 8 bit.toNat)
  | .wrfld a mask _ => some (a, mask)
  | .wrDcdc index => (railOf index).map (dcdcField s.cfg)
  | .wrLdo index => (ldoOf index).map (ldoField s.cfg)
  | .wrChgi => some (s.cfg.aChg, s.cfg.chgMask)
  | .wrBright => some (s.cfg.aBright, s.cfg.brightMask)
  | .pwroff => some (s.cfg.aPwroff, BitVec.twoPow 8 s.cfg.bPwroff)
  | _ => none

/-- The bits an `RMW(addr, keep, or)` of a table targets, with the register (R134): those it does not keep and those it sets. -/
def patchField (p : RegPatch) : Byte × Byte := (p.addr, ~~~p.keep ||| p.orBits)

/-- The fields of the read-modify-writes of a bus-power mode (R134, R232). -/
def bpmFields (t : BpmTable) : List (Byte × Byte) := [patchField t.e0, patchField t.e1, patchField t.e2, patchField t.e3]

/-- The bits each read-modify-write of a command may target, with the register (R134). -/
def targetedFields (i : Instr) (s : State) : List (Byte × Byte) :=
  let c := s.cfg
  match i with
  | .init =>
    [ (c.aPwrpath, ~~~c.ppKeep ||| c.ppOr), (c.aDcctlA, ~~~c.dcctlKeepA), (c.aDcctlB, ~~~c.dcctlKeepB),
      (c.aChgv, ~~~c.chgvKeep ||| c.chgvOr), dcdcField c c.railMcu, dcdcField c c.railDisp, ldoField c 0, ldoField c 1,
      (c.aOuten, BitVec.twoPow 8 c.bEnLdo), (c.aOuten, BitVec.twoPow 8 c.bEnDcdc), (c.aLed, BitVec.twoPow 8 c.bLed),
      (c.aChg, c.chgMask), (c.aDisprst, BitVec.twoPow 8 c.bDisprst), (c.aExtflag, BitVec.twoPow 8 c.bExtflag) ]
      ++ bpmFields c.bpmSource ++ bpmFields c.bpmSink
  | .buspwr .sink => bpmFields c.bpmSink
  | .buspwr .source => bpmFields c.bpmSource
  | .sleepPrep => [(c.aLed, BitVec.twoPow 8 c.bLed), (c.aOuten, BitVec.twoPow 8 c.bSleepDcdc)]
  | .sleepRestore => [(c.aOuten, BitVec.twoPow 8 c.bSleepDcdc), (c.aLed, BitVec.twoPow 8 c.bLed)]
  | i => (targetedBits i s).toList

/-- The blind writes of a command, the exceptions of R134: `WRREG` and the ADC-enable entries. -/
def blindWrites (i : Instr) (s : State) : List (Byte × List Byte) :=
  match i with
  | .wrreg a len => [(a, s.dbuf.toList.take len.toNat)]
  | .init => [(s.cfg.aAdcen, [s.cfg.vAdcOn])]
  | .sleepPrep => [(s.cfg.aAdcen, [s.cfg.vAdcOff])]
  | .sleepRestore => [(s.cfg.aAdcen, [s.cfg.vAdcOn])]
  | _ => []

/-- The commands that write an LDO code. -/
def writesLdo : Instr → Bool
  | .wrLdo _ => true
  | .init => true
  | _ => false

/-- The entries a line may send `SEQ_PC` to, other than the next one (R210). -/
def Line.targets (l : Line) : List Nat :=
  (match l.entry with
    | .br _ _ t1 t0 => [t1, t0]
    | .rd _ _ => []
    | .wr _ _ => []
    | .rmw _ _ _ => []
    | .sb _ _ _ => []
    | .slp _ => []) ++ l.jmp.toList

/-- A command in progress is one of the block's: at most 26 entries, `SEQ_PC` inside the table, and every jump and branch forward
and inside it (R27, R210). -/
def Running.legal (r : Running) (pc : BitVec 8) : Prop :=
  r.prog.length ≤ 26 ∧ pc.toNat ≤ r.prog.length
    ∧ ∀ k (h : k < r.prog.length), ∀ t ∈ (r.prog[k]).targets, k < t ∧ t ≤ r.prog.length

/-- The record of the last command. Either nothing of a command has happened: there was none since reset, or it was rejected. Or
`CMD` holds the command, the command in progress runs its micro-program (of the `ARG` and `DBUF` it started with), and the trace and
`SEQ_PC` say how far it has come, whether it waits, has ended, or has failed (R27, R30, R36, R210, R256). -/
def State.Recorded (s : State) : Prop :=
  (s.run = none ∧ s.trace = [] ∧ s.seqPc = 0 ∧ s.status.err ≠ .busError ∧ (s.status.done = true → s.status.err ≠ .ok))
    ∨ ∃ i arg d p, decode s.cmd = .ok i ∧ planOf i s.cfg arg d = some p
      ∧ (∀ r, s.run = some r → r.prog = p.1 ∧ r.fin = p.2) ∧ s.Tracks p.1

/-- The invariant of the machine. -/
structure State.Inv (s : State) : Prop where
  /-- the target's registers are in canonical form, inside the 256 addresses (R37) -/
  registers : Memory.wf s.target = true
  /-- `BUSY` says that a command is in progress (R29) -/
  busy : s.status.busy = s.run.isSome
  /-- while a command is in progress nothing is final: no `DONE`, no `ERR`, no `FAILW` (R35) -/
  clean : s.status.busy = true → s.status.done = false ∧ s.status.err = .ok ∧ s.status.failw = false
  /-- `FAILW` comes only with `BusError` (R29) -/
  failw : s.status.failw = true → s.status.err = .busError
  /-- an exception code comes only with `DONE` (R29, R256) -/
  errDone : s.status.err ≠ .ok → s.status.done = true
  /-- the largest value `SEQ_PC` ever holds is 26 (R27) -/
  seqPc : s.seqPc.toNat ≤ 26
  /-- the command in progress is one of the block's -/
  running : ∀ r, s.run = some r → r.legal s.seqPc
  /-- the trace and `SEQ_PC` are the record of the command in `CMD` -/
  record : s.Recorded

/-- The events of the whole run so far, in order: the traces of all commands, joined (R73 (d)). -/
def State.allEvents (s : State) : List Event := s.history ++ s.trace

end Sys2Proof.Machine
end

