-- ==== Sys2Proof/Certificates/Slice0/Obligations.lean ====
section
/-! DEFINITION. The statements for the provers. Each formalises the rule its docstring names. A statement about a command says that
`exec` ANSWERS a next state, for every state with the named answers of the collaborators, whatever `CFG`, target and host are. A
statement about every state a command PASSES THROUGH (`Along`) covers the state in which `exec` answers and, for a command that waits
there, every later one until it ends. -/

open Sys2Proof Sys2Proof.Machine

/-! ## Encoding -/

/-- R95: decoding the word of a command gives the command back, with every operand at every value its field admits. -/
def Obligations.DecodeOfEncode : Prop := ∀ i : Instr, decode (encode i) = .ok i

/-- R93, R95: a word that decodes is the word of the command it decodes to, so every legal word has one meaning and no bit of a
legal word is ignored. -/
def Obligations.EncodeOfDecode : Prop := ∀ (w : Word) (i : Instr), decode w = .ok i → encode i = w

/-- R95: a word `W` is the command of a row exactly when `W & mask = match`. -/
def Obligations.DecodeFollowsOpcodeMap : Prop :=
  ∀ (w : Word), ∀ row ∈ opcodeMap,
    (w &&& row.mask = row.matchBits ↔ ∃ i : Instr, decode w = .ok i ∧ i.mnemonic = row.mnemonic)

/-- R93: the illegal words are exactly those of no row: an opcode that is none of the 35, or a must-be-zero bit that is set. -/
def Obligations.IllegalWordsMatchNoRow : Prop :=
  ∀ w : Word,
    ((∃ e, decode w = .error e) ↔ ∀ row ∈ opcodeMap, w &&& row.mask ≠ row.matchBits)
      ∧ (decode w = .error .unassignedOpcode ↔ ∀ row ∈ opcodeMap, w.extractLsb' 24 8 ≠ row.matchBits.extractLsb' 24 8)

/-- R99: the worked encodings and the worked illegal words. -/
def Obligations.WorkedEncodings : Prop :=
  decode 0x01780200#32 = .ok (.rdreg 0x78 2) ∧ decode 0x02820100#32 = .ok (.wrreg 0x82 1)
    ∧ decode 0x10000300#32 = .ok (.rdbit 0x00 3) ∧ decode 0x11120201#32 = .ok (.setbit 0x12 2 true)
    ∧ decode 0x11120100#32 = .ok (.setbit 0x12 1 false) ∧ decode 0x1228F004#32 = .ok (.rdfld 0x28 0xF0 4)
    ∧ decode 0x13330F00#32 = .ok (.wrfld 0x33 0x0F 0) ∧ decode 0x21000000#32 = .ok .dec12
    ∧ decode 0x39000000#32 = .ok .rdTemp ∧ decode 0x40020000#32 = .ok (.wrDcdc 2) ∧ decode 0x41010000#32 = .ok (.wrLdo 1)
    ∧ decode 0x50000000#32 = .ok .init ∧ decode 0x53000001#32 = .ok (.buspwr .source)
    ∧ decode 0x00000000#32 = .error .unassignedOpcode ∧ decode 0x01780800#32 = .error .reservedBitSet
    ∧ decode 0x50000001#32 = .error .reservedBitSet ∧ decode 0x55000000#32 = .error .unassignedOpcode
    ∧ decode 0x01780000#32 = .ok (.rdreg 0x78 0) ∧ decode 0x01780500#32 = .ok (.rdreg 0x78 5)
    ∧ decode 0x40030000#32 = .ok (.wrDcdc 3)

/-! ## The step -/

/-- R30, R35: when the engine is idle and the host's next access writes a legal word to `CMD`, the step is the command's meaning, in
the state with the word in `CMD` and that access used up. -/
def Obligations.StepRunsDecodedCommand : Prop :=
  ∀ (s : State) (w : Word) (rest : List Input) (i : Instr),
    s.run = none → s.inputs = .cmd w :: rest → decode w = .ok i → step s = exec i { s with inputs := rest, cmd := w }

/-- R252: a word that is not legal raises `IllegalCommand` before anything else: `STATUS` = 0x0E beside `INITED`, `SEQ_PC` = 0, an
empty trace, no operand register and no target register touched. -/
def Obligations.IllegalWordRaisesIllegalCommand : Prop :=
  ∀ (s : State) (w : Word) (rest : List Input) (e : DecodeError),
    s.run = none → s.inputs = .cmd w :: rest → decode w = .error e →
      ∃ t, step s = .next t ∧ Rejected { s with inputs := rest, cmd := w } t .illegalCommand

/-! ## RegisterAccess -/

/-- R120: `RDREG`. In the domain of R122: on success `DBUF[0..len-1]` holds the bytes and `DBUF[len..3]` is unchanged; on failure
`DBUF` is wholly unchanged. Outside it, `InvalidArgument` before any bus traffic. -/
def Obligations.RdregReadsSpan : Prop :=
  ∀ (s : State) (a : Byte) (len : BitVec 3),
    decode (0x01#8 ++ a ++ 0#5 ++ len ++ 0#8) = .ok (.rdreg a len)
      ∧ (1 ≤ len.toNat → len.toNat ≤ 4 → a.toNat + len.toNat ≤ 256 →
        (s.acks 1 → ∃ t, exec (.rdreg a len) s = .next t ∧ ReadEnds s t a len.toNat ∧ t.res = s.res
          ∧ t.dbuf.toList = Memory.span (s.targetAt 0) a.toNat len.toNat ++ s.dbuf.toList.drop len.toNat)
        ∧ (∀ l, (s.replyAt 0).nacks l → ∃ t, exec (.rdreg a len) s = .next t ∧ ReadFails s t a len.toNat))
      ∧ (len.toNat < 1 ∨ 4 < len.toNat ∨ 256 < a.toNat + len.toNat →
        ∃ t, exec (.rdreg a len) s = .next t ∧ Rejected s t .invalidArgument)

/-- R121: `WRREG`. In the domain of R122: one write of `DBUF[0..len-1]`, a blind overwrite of `len` registers. Outside it,
`InvalidArgument` before any bus traffic. -/
def Obligations.WrregWritesSpan : Prop :=
  ∀ (s : State) (a : Byte) (len : BitVec 3),
    decode (0x02#8 ++ a ++ 0#5 ++ len ++ 0#8) = .ok (.wrreg a len)
      ∧ (1 ≤ len.toNat → len.toNat ≤ 4 → a.toNat + len.toNat ≤ 256 →
        (s.acks 1 → ∃ t, exec (.wrreg a len) s = .next t ∧ WriteEnds s t a (s.dbuf.toList.take len.toNat))
        ∧ (∀ l, (s.replyAt 0).nacks l →
            ∃ t, exec (.wrreg a len) s = .next t ∧ WriteFails s t a (s.dbuf.toList.take len.toNat)))
      ∧ (len.toNat < 1 ∨ 4 < len.toNat ∨ 256 < a.toNat + len.toNat →
        ∃ t, exec (.wrreg a len) s = .next t ∧ Rejected s t .invalidArgument)

/-- R122: a length outside 1..4 or a span past 0xFF is `InvalidArgument` before any bus traffic. -/
def Obligations.SpanOutOfDomainRejected : Prop :=
  ∀ (s : State) (a : Byte) (len : BitVec 3),
    len.toNat < 1 ∨ 4 < len.toNat ∨ 256 < a.toNat + len.toNat →
      (∃ t, exec (.rdreg a len) s = .next t ∧ Rejected s t .invalidArgument)
      ∧ (∃ t, exec (.wrreg a len) s = .next t ∧ Rejected s t .invalidArgument)

/-! ## BitField -/

/-- R130: `RDBIT` gives bit `bit` of the byte read, as 0 or 1. -/
def Obligations.RdbitGivesTheBit : Prop :=
  ∀ (s : State) (a : Byte) (bit : BitVec 3),
    decode (0x10#8 ++ a ++ 0#5 ++ bit ++ 0#8) = .ok (.rdbit a bit)
      ∧ ReadsIntoRes (.rdbit a bit) s a 1 (((s.oldByte a).toNat / 2 ^ bit.toNat % 2 : Nat) : Int)

/-- R131: `SETBIT` writes back the byte read with the one bit set or cleared, whether or not that changes it. -/
def Obligations.SetbitWritesOneBit : Prop :=
  ∀ (s : State) (a : Byte) (bit : BitVec 3) (v : Bool),
    decode (0x11#8 ++ a ++ 0#5 ++ bit ++ 0#7 ++ BitVec.ofBool v) = .ok (.setbit a bit v)
      ∧ RunsRmw (.setbit a bit v) s a
        (fun b => if v then b ||| BitVec.twoPow 8 bit.toNat else b &&& ~~~BitVec.twoPow 8 bit.toNat)

/-- R132: `RDFLD` gives `(b & mask) >> shift`, whatever mask and shift are. -/
def Obligations.RdfldGivesTheField : Prop :=
  ∀ (s : State) (a mask : Byte) (shift : BitVec 3),
    decode (0x12#8 ++ a ++ mask ++ 0#5 ++ shift) = .ok (.rdfld a mask shift)
      ∧ ReadsIntoRes (.rdfld a mask shift) s a 1 (((s.oldByte a &&& mask).toNat / 2 ^ shift.toNat : Nat) : Int)

/-- R133: `WRFLD` writes `(b & ~mask) | ((value << shift) & mask)` with `value = ARG[7:0]`, computed without a width and cut to the
byte. -/
def Obligations.WrfldWritesTheField : Prop :=
  ∀ (s : State) (a mask : Byte) (shift : BitVec 3),
    decode (0x13#8 ++ a ++ mask ++ 0#5 ++ shift) = .ok (.wrfld a mask shift)
      ∧ RunsRmw (.wrfld a mask shift) s a
        (fun b => (b &&& ~~~mask) ||| (BitVec.ofNat 8 (s.arg.toNat % 256 * 2 ^ shift.toNat) &&& mask))

/-- R134: whatever the target answers and however often the command waits, every write of its trace, failed or not, is one of the
blind writes that the rule excepts, or comes right after the read of the same register, and then the byte written agrees with the byte
read outside the bits of one of the command's fields there. The seven commands of one read-modify-write write once, after the one
read. An LDO code must fit its nibble (R7). -/
def Obligations.SiblingBitsSurvive : Prop :=
  ∀ (s t : State) (i : Instr), (writesLdo i = true → s.cfg.ldoFits = true) → Along i s t →
    (∀ pre e post, t.trace = pre ++ e :: post → e.isWrite = true →
      (∃ x ∈ blindWrites i s, e = .wr x.1 x.2 ∨ e = .wrFail x.1 x.2)
        ∨ ∃ pre' b b', ∃ x ∈ targetedFields i s, pre = pre' ++ [.rd x.1 1 [b]] ∧ (e = .wr x.1 [b'] ∨ e = .wrFail x.1 [b'])
            ∧ b' &&& ~~~x.2 = b &&& ~~~x.2)
      ∧ ∀ a m, targetedBits i s = some (a, m) →
        ∀ e ∈ t.trace, e.isWrite = true → ∃ b b', t.trace = [.rd a 1 [b], e] ∧ (e = .wr a [b'] ∨ e = .wrFail a [b'])
          ∧ b' &&& ~~~m = b &&& ~~~m

/-! ## Decoders and conversion -/

/-- R150 to R155: the six decoders put the number their rule gives, of the bytes of `DBUF` as they stand, into `RES`; the second byte
of a 12- and a 13-bit pair is added whole. No traffic, no exception. -/
def Obligations.DecodersConvertDbuf : Prop :=
  ∀ s : State,
    [0x20000000#32, 0x21000000#32, 0x22000000#32, 0x23000000#32, 0x24000000#32, 0x25000000#32].map decode
        = [.ok .dec8, .ok .dec12, .ok .dec13, .ok .dec16, .ok .dec24, .ok .dec32]
      ∧ (∃ t, exec .dec8 s = .next t ∧ PureEnds s t s.dbuf.b0.toNat)
      ∧ (∃ t, exec .dec12 s = .next t ∧ PureEnds s t (16 * s.dbuf.b0.toNat + s.dbuf.b1.toNat))
      ∧ (∃ t, exec .dec13 s = .next t ∧ PureEnds s t (32 * s.dbuf.b0.toNat + s.dbuf.b1.toNat))
      ∧ (∃ t, exec .dec16 s = .next t ∧ PureEnds s t (s.dbuf.b0 ++ s.dbuf.b1).toNat)
      ∧ (∃ t, exec .dec24 s = .next t ∧ PureEnds s t (s.dbuf.b0 ++ s.dbuf.b1 ++ s.dbuf.b2).toNat)
      ∧ (∃ t, exec .dec32 s = .next t ∧ PureEnds s t (s.dbuf.b0 ++ s.dbuf.b1 ++ s.dbuf.b2 ++ s.dbuf.b3).toNat)

/-- R163, R165, R167 to R172, R175: the nine converters of one 12-bit pair, each at its own `CFG` address, for a `CFG` that puts the
span of that command inside the 256 addresses (R62, log entry 6); the 12-bit value never exceeds 4335, which bounds each result by the
range its rule gives. -/
def Obligations.TwelveBitConverters : Prop :=
  ∀ s : State,
    let fits : Byte → Prop := fun a => a.toNat + 2 ≤ 256
    [0x30000000#32, 0x32000000#32, 0x34000000#32, 0x35000000#32, 0x36000000#32, 0x37000000#32, 0x38000000#32, 0x39000000#32,
        0x3C000000#32].map decode
        = [.ok .rdBatv, .ok .rdBatichg, .ok .rdVinv, .ok .rdVini, .ok .rdVbusv, .ok .rdVbusi, .ok .rdApsv, .ok .rdTemp,
          .ok .rdBatpct]
      ∧ (∀ a, s.read12 a ≤ 4335)
      ∧ (fits s.cfg.aBatV → ReadsIntoRes .rdBatv s s.cfg.aBatV 2 (1100 * s.read12 s.cfg.aBatV))
      ∧ (fits s.cfg.aBatIchg → ReadsIntoRes .rdBatichg s s.cfg.aBatIchg 2 (500 * s.read12 s.cfg.aBatIchg))
      ∧ (fits s.cfg.aVinV → ReadsIntoRes .rdVinv s s.cfg.aVinV 2 (1700 * s.read12 s.cfg.aVinV))
      ∧ (fits s.cfg.aVinI → ReadsIntoRes .rdVini s s.cfg.aVinI 2 (625 * s.read12 s.cfg.aVinI))
      ∧ (fits s.cfg.aVbusV → ReadsIntoRes .rdVbusv s s.cfg.aVbusV 2 (1700 * s.read12 s.cfg.aVbusV))
      ∧ (fits s.cfg.aVbusI → ReadsIntoRes .rdVbusi s s.cfg.aVbusI 2 (375 * s.read12 s.cfg.aVbusI))
      ∧ (fits s.cfg.aApsV → ReadsIntoRes .rdApsv s s.cfg.aApsV 2 (1400 * s.read12 s.cfg.aApsV))
      ∧ (fits s.cfg.aTemp → ReadsIntoRes .rdTemp s s.cfg.aTemp 2 (s.read12 s.cfg.aTemp - 1447))
      ∧ (fits s.cfg.aBatV → ReadsIntoRes .rdBatpct s s.cfg.aBatV 2 (pct (1100 * s.read12 s.cfg.aBatV)))

/-- R166, R173, R174: the power converter of one 24-bit value and the two coulomb converters of one 32-bit value, each for a `CFG` that
puts the span of that command inside the 256 addresses (R62, log entry 6), and the coulomb converters for a `K_COULOMB_NUM` that fits
`RES` (R186). -/
def Obligations.WideConverters : Prop :=
  ∀ s : State,
    [0x33000000#32, 0x3A000000#32, 0x3B000000#32].map decode = [.ok .rdBatp, .ok .rdCcin, .ok .rdCcout]
      ∧ (∀ a k, s.firstRead a k ≤ 255)
      ∧ (s.cfg.aBatP.toNat + 3 ≤ 256 → ReadsIntoRes .rdBatp s s.cfg.aBatP 3
        (550 * (65536 * s.firstRead s.cfg.aBatP 0 + 256 * s.firstRead s.cfg.aBatP 1 + s.firstRead s.cfg.aBatP 2 : Nat)))
      ∧ (s.cfg.resultsFit = true → s.cfg.aCcIn.toNat + 4 ≤ 256 → ReadsIntoRes .rdCcin s s.cfg.aCcIn 4
        (s.cfg.kCoulombNum * (16777216 * s.firstRead s.cfg.aCcIn 0 + 65536 * s.firstRead s.cfg.aCcIn 1
          + 256 * s.firstRead s.cfg.aCcIn 2 + s.firstRead s.cfg.aCcIn 3 : Nat)))
      ∧ (s.cfg.resultsFit = true → s.cfg.aCcOut.toNat + 4 ≤ 256 → ReadsIntoRes .rdCcout s s.cfg.aCcOut 4
        (s.cfg.kCoulombNum * (16777216 * s.firstRead s.cfg.aCcOut 0 + 65536 * s.firstRead s.cfg.aCcOut 1
          + 256 * s.firstRead s.cfg.aCcOut 2 + s.firstRead s.cfg.aCcOut 3 : Nat)))

/-- R164: `RD_BATI` reads the `in` span, then the `out` span, and gives `500 × (in − out)`, signed, for a `CFG` that puts both spans
inside the 256 addresses (R62, log entry 6). If the first read fails the second
is not issued; if the second fails, `RES` is unchanged and `SEQ_PC` is 1. -/
def Obligations.RdBatiGivesNetCurrent : Prop :=
  ∀ s : State, s.cfg.aBatIIn.toNat + 2 ≤ 256 → s.cfg.aBatIOut.toNat + 2 ≤ 256 →
    let p : Byte := s.cfg.aBatIIn
    let q : Byte := s.cfg.aBatIOut
    let second : Nat → Nat := fun k => (Memory.byte (s.targetAt 1) (q.toNat + k)).toNat
    let got : Event := .rd p 2 (Memory.span (s.targetAt 0) p.toNat 2)
    decode 0x31000000#32 = .ok .rdBati
      ∧ (s.acks 2 → ∃ t, exec .rdBati s = .next t ∧ Ended s t (s.okStatus false) 2
        ∧ t.res.toInt = 500 * (((32 * s.firstRead p 0 + s.firstRead p 1 : Nat) : Int) - (32 * second 0 + second 1 : Nat))
        ∧ t.trace = [got, .rd q 2 (Memory.span (s.targetAt 1) q.toNat 2)]
        ∧ t.dbuf = s.dbuf ∧ t.tmp = s.tmp ∧ t.replies = s.replies.drop 2 ∧ t.timer = s.timer
        ∧ ∀ x, Memory.byte t.target x = Memory.byte (s.targetAt 1) x)
      ∧ (∀ l, (s.replyAt 0).nacks l → ∃ t, exec .rdBati s = .next t ∧ ReadFails s t p 2)
      ∧ (∀ l, s.acks 1 → (s.replyAt 1).nacks l → ∃ t, exec .rdBati s = .next t
        ∧ Ended s t (s.errStatus .busError false false) 1 ∧ t.res = s.res ∧ t.trace = [got, .rdFail q 2]
        ∧ t.dbuf = s.dbuf ∧ t.tmp = s.tmp ∧ t.replies = s.replies.drop 2 ∧ t.timer = s.timer
        ∧ ∀ x, Memory.byte t.target x = Memory.byte (s.targetAt 1) x)

/-- R176: `CVT_PCT` puts `pct(ARG)` into `RES`, with no traffic. -/
def Obligations.CvtPctConvertsArg : Prop :=
  decode 0x3D000000#32 = .ok .cvtPct ∧ ∀ s : State, ∃ t, exec .cvtPct s = .next t ∧ PureEnds s t (pct s.arg.toNat)

/-- R177: the percentage function is 0 below the threshold, the clamp from 4120712 on, the difference between, and non-decreasing. -/
def Obligations.PercentageShape : Prop :=
  (∀ v, v < 3248088 → pct v = 0) ∧ (∀ v, 3248088 ≤ v → v ≤ 4120712 → pct v = v - 3120712)
    ∧ (∀ v, 4120712 ≤ v → pct v = 1000000) ∧ ∀ v w, v ≤ w → pct v ≤ pct w

/-- R186: whatever the target answers, a read converter or `CVT_PCT` leaves `RES` as it was or puts a value there from −4207500 up: to
`3640888888888889 × (2^32 − 1)`, which is below `2^84`, with the source's `K_COULOMB`; and with any other that fits `RES`, to the
largest coulomb count or the largest power, 9227468250, whichever is larger. -/
def Obligations.QuantityResultsInRange : Prop :=
  (3640888888888889 * (2 ^ 32 - 1) < 2 ^ 84 ∧ ∀ c : Config, c.kCoulombNum = 3640888888888889 → c.resultsFit = true)
    ∧ ∀ (s t : State) (i : Instr), readConverter i = true ∨ i = .cvtPct → s.cfg.resultsFit = true → Along i s t →
      t.res = s.res
        ∨ (-4207500 ≤ t.res.toInt ∧ t.res.toInt ≤ (max (s.cfg.kCoulombNum * (2 ^ 32 - 1)) 9227468250 : Nat)
          ∧ (s.cfg.kCoulombNum = 3640888888888889 → t.res.toInt ≤ 3640888888888889 * (2 ^ 32 - 1)))

/-! ## Write converters -/

/-- R190, R191: `WR_DCDC`, with the scale of R7. On rail 0, 1 or 2 the low `w` bits become 0 below 700 mV and `(mV − 700) div 25 mod 2^w` from there on, and
the bits above them are kept; an index above 2 is rejected. -/
def Obligations.WrDcdcWritesCode : Prop :=
  ∀ (s : State) (index : Byte), s.cfg.dcdcScale = true →
    decode (0x40#8 ++ index ++ 0#16) = .ok (.wrDcdc index)
      ∧ (∀ r : Fin 3, index.toNat = r.val →
        RunsRmw (.wrDcdc index) s (atRail s.cfg.aDcdc r) (fun b =>
          let w := widthBits (atRail s.cfg.wDcdc r)
          let code := if s.arg.toNat < 700 then 0 else (s.arg.toNat - 700) / 25 % 2 ^ w
          BitVec.ofNat 8 (b.toNat / 2 ^ w * 2 ^ w + code)))
      ∧ (2 < index.toNat → ∃ t, exec (.wrDcdc index) s = .next t ∧ Rejected s t .invalidArgument)

/-- R192, R193: `WR_LDO`, with LDO codes that fit a nibble (R7). On index 0 or 1 the request is clamped at both ends, its code goes to the index's nibble and the other
nibble is kept; an index above 1 is rejected. -/
def Obligations.WrLdoWritesNibble : Prop :=
  ∀ (s : State) (index : Byte), s.cfg.ldoFits = true →
    decode (0x41#8 ++ index ++ 0#16) = .ok (.wrLdo index)
      ∧ (∀ k : Fin 2, index.toNat = k.val →
        RunsRmw (.wrLdo index) s s.cfg.aLdo (fun b =>
          let code := (min (max s.arg.toNat s.cfg.ldoMinMv) s.cfg.ldoMaxMv - s.cfg.ldoMinMv) / s.cfg.ldoStepMv
          if k = s.cfg.ldoHiIndex then BitVec.ofNat 8 (16 * code + b.toNat % 16)
          else BitVec.ofNat 8 (b.toNat / 16 * 16 + code)))
      ∧ (1 < index.toNat → ∃ t, exec (.wrLdo index) s = .next t ∧ Rejected s t .invalidArgument)

/-- R194, R195: `WR_CHGI`, with a table of distinct values (R7). With a value of the table it writes the index of that value into the charging-current field; with any other
value it is rejected. -/
def Obligations.WrChgiWritesIndex : Prop :=
  ∀ s : State, s.cfg.chgTable.Nodup →
    decode 0x42000000#32 = .ok .wrChgi
      ∧ (∀ k : Nat, s.cfg.chgTable[k]? = some s.arg.toNat →
        RunsRmw .wrChgi s s.cfg.aChg
          (fun b => (b &&& ~~~s.cfg.chgMask) ||| ((BitVec.ofNat 8 k <<< s.cfg.chgShift.val) &&& s.cfg.chgMask)))
      ∧ (s.arg.toNat ∉ s.cfg.chgTable → ∃ t, exec .wrChgi s = .next t ∧ Rejected s t .invalidArgument)

/-- R196, R197: `WR_BRIGHT`, with the field of R7. With a nonzero request it writes `min(ARG, 12)` into the high nibble and keeps the low one; with 0 it is
rejected. -/
def Obligations.WrBrightWritesNibble : Prop :=
  ∀ s : State, s.cfg.brightScale = true →
    decode 0x43000000#32 = .ok .wrBright
      ∧ (s.arg.toNat ≠ 0 → RunsRmw .wrBright s s.cfg.aBright (fun b => BitVec.ofNat 8 (16 * min s.arg.toNat 12 + b.toNat % 16)))
      ∧ (s.arg.toNat = 0 → ∃ t, exec .wrBright s = .next t ∧ Rejected s t .invalidArgument)

/-- The model's choice for a `CFG` outside the contract (log entry 6): a read converter one of whose spans leaves the 256 addresses,
and `INIT` with a default charging current that is not in the table, are rejected with `InvalidArgument` before any traffic. -/
def Obligations.ConfigOutsideContractRejected : Prop :=
  (∀ (s : State) (i : Instr) (q : Quantity), quantityOf i = some q → (∃ x ∈ q.spans s.cfg, 256 < x.1.toNat + x.2) →
      ∃ t, exec i s = .next t ∧ Rejected s t .invalidArgument)
    ∧ ∀ s : State, s.cfg.maChgDefault ∉ s.cfg.chgTable → ∃ t, exec .init s = .next t ∧ Rejected s t .invalidArgument

/-- R251, R297: a writer with a bad index, a charging current that is not in the table, and a brightness of 0 are rejected with
`InvalidArgument`, with no bus traffic. -/
def Obligations.RejectedRequestsWriteNothing : Prop :=
  ∀ s : State,
    (∀ index : Byte, 2 < index.toNat → ∃ t, exec (.wrDcdc index) s = .next t ∧ Rejected s t .invalidArgument)
      ∧ (∀ index : Byte, 1 < index.toNat → ∃ t, exec (.wrLdo index) s = .next t ∧ Rejected s t .invalidArgument)
      ∧ (s.arg.toNat ∉ s.cfg.chgTable → ∃ t, exec .wrChgi s = .next t ∧ Rejected s t .invalidArgument)
      ∧ (s.arg.toNat = 0 → ∃ t, exec .wrBright s = .next t ∧ Rejected s t .invalidArgument)

/-- R251: `InvalidArgument` is raised by exactly the operand values of the rule's list, and then before any bus traffic: the trace is
empty and no register of the target is touched. For a read converter the `CFG` puts its spans inside the 256 addresses (R62, log
entry 6), and for `INIT` it lists `MA_CHG_DEFAULT` in its table (R7). -/
def Obligations.InvalidArgumentExactlyOutOfDomain : Prop :=
  ∀ (s t : State) (i : Instr), (∀ q, quantityOf i = some q → q.spansFit s.cfg = true) →
    (i = .init → s.cfg.maChgDefault ∈ s.cfg.chgTable) → Along i s t →
      (t.status.err = .invalidArgument ↔ OutOfDomain i s)
        ∧ (t.status.err = .invalidArgument → Rejected s t .invalidArgument)

/-- R191, R193, R293: with the scale of R7, in range the code of a DC-DC request stands for a voltage not above the request and less
than a step below it, and the first request above the range wraps to the code of 700 mV; a code fits its field, and with the LDO
numbers of R7 an LDO code fits its nibble. -/
def Obligations.CodesInRangeAndWrap : Prop :=
  ∀ (c : Config) (mv w : Nat),
    (c.dcdcScale = true → 700 ≤ mv → mv < 700 + 25 * 2 ^ w → 700 + 25 * encDcdc c mv w ≤ mv ∧ mv < 725 + 25 * encDcdc c mv w)
      ∧ (c.dcdcScale = true → encDcdc c (700 + 25 * 2 ^ w) w = 0) ∧ encDcdc c mv w < 2 ^ w
      ∧ (c.ldoFits = true → encLdo c mv ≤ 15)

/-! ## Sequences -/

/-- R242: `PWROFF` sets its one bit by read-modify-write. -/
def Obligations.PwroffSetsItsBit : Prop :=
  decode 0x54000000#32 = .ok .pwroff
    ∧ ∀ s : State, RunsRmw .pwroff s s.cfg.aPwroff (fun b => b ||| BitVec.twoPow 8 s.cfg.bPwroff)

/-- R236: `SLEEP_PREP` on the reference target, after an `INIT` (`INITED` = 1, the premise of R240): ADC off (blind), LED off, the DC-DC
bit cleared, in this order. R240: the engine has no guard. It runs the same entries whether or not `INITED` is set: with `INITED` at
the other value it leaves the same state, but for that bit. -/
def Obligations.SleepPrepOnReference : Prop :=
  (∀ s : State, s.status.inited = true → s.onReference → ∃ t, exec .sleepPrep s = .next t ∧ SequenceEnds s t
    [ .store s.cfg.aAdcen s.cfg.vAdcOff, .setBit s.cfg.aLed s.cfg.bLed (!s.cfg.ledOnLevel),
      .setBit s.cfg.aOuten s.cfg.bSleepDcdc false ])
    ∧ ∀ (s t : State) (b : Bool), exec .sleepPrep s = .next t →
      exec .sleepPrep { s with status := { s.status with inited := b } } = .next { t with status := { t.status with inited := b } }

/-- R237: `SLEEP_RESTORE` on the reference target, after an `INIT` (`INITED` = 1, the premise of R240): the mirrored operations in the
inverse order. R240: the engine has no guard, as for `SLEEP_PREP`. -/
def Obligations.SleepRestoreOnReference : Prop :=
  (∀ s : State, s.status.inited = true → s.onReference → ∃ t, exec .sleepRestore s = .next t ∧ SequenceEnds s t
    [ .setBit s.cfg.aOuten s.cfg.bSleepDcdc true, .setBit s.cfg.aLed s.cfg.bLed s.cfg.ledOnLevel,
      .store s.cfg.aAdcen s.cfg.vAdcOn ])
    ∧ ∀ (s t : State) (b : Bool), exec .sleepRestore s = .next t →
      exec .sleepRestore { s with status := { s.status with inited := b } }
        = .next { t with status := { t.status with inited := b } }

/-- R232: `BUSPWR mode` on the reference target: the four read-modify-writes of the mode's table, in order. -/
def Obligations.BuspwrOnReference : Prop :=
  ∀ (s : State) (m : BusMode), s.onReference → ∃ t, exec (.buspwr m) s = .next t ∧ SequenceEnds s t (bpmOps s.cfg m)

/-- R211 to R230: `INIT` on the reference target. With `k` the index of 100 mA in the table, the operations before the hold, the hold,
the second reset write, the read of the status bit, and the operations of the branch the bit selects; `INITED` is set and `SEQ_PC`
ends at 26. -/
def Obligations.InitOnReference : Prop :=
  ∀ (s : State) (k : Nat), s.cfg.meetsR7 = true → s.onReference → s.cfg.chgTable[k]? = some 100 →
    let before := initOpsBeforeHold s.cfg k
    let m1 := applyOps s.target before
    let m2 := (initOpAfterHold s.cfg).apply m1
    let b := Memory.byte m2 s.cfg.aStatus.toNat
    let after := initOpsAfterBranch s.cfg (b.getLsbD s.cfg.bExtpwr)
    ∃ t, exec .init s = .next t
      ∧ Ended s t ⟨false, true, .ok, true, true, false⟩ 26
      ∧ t.trace = opsEvents s.target before ++ [.slp s.cfg.tHoldMs] ++ (initOpAfterHold s.cfg).events m1
          ++ [.rd s.cfg.aStatus 1 [b]] ++ opsEvents m2 after
      ∧ (∀ x, Memory.byte t.target x = Memory.byte (applyOps m2 after) x)
      ∧ t.res = s.res ∧ t.dbuf = s.dbuf

/-- From R211, R212 and R73 (a): in every state an `INIT` passes through, on every target, with every pattern of failures and waits and
for every `CFG`, the transactions, each by its address and direction, and the sleep are those of one of the two paths of R211, in that
order, up to where it got; and if it ended well, all of them. Which bits each entry writes, and so the order of two entries on one
register, is in `InitFailureAndInited`. -/
def Obligations.InitKeepsTheOrder : Prop :=
  ∀ (s t : State), Along .init s t →
    ∃ external : Bool, t.trace.map Event.shape <+: initShape s.cfg external
      ∧ (t.run = none → t.status.err = .ok → t.trace.map Event.shape = initShape s.cfg external)

/-- R232, R236, R237, R73 (a), R134, R233, R296: on every target, with every pattern of failures and waits, in every state that
`BUSPWR`, `SLEEP_PREP` or `SLEEP_RESTORE` passes through, its events are those of its operations in their order, each completed before
the next starts: all of them if it ended well; up to `SEQ_PC`, the entry in progress, if it waits; and if it failed, those before
`SEQ_PC` and the failing one's, none after. A read-modify-write writes the byte it read, with the bits its operation clears and sets.
The target's registers are what these events made of them: earlier entries stay applied and nothing is undone. For the sleep commands
after an `INIT` (`INITED` = 1, the premise of R240). -/
def Obligations.SequencesKeepTheOrder : Prop :=
  ∀ s t : State,
    (∀ m, Along (.buspwr m) s t → t.Tracks (linesOf (bpmOps s.cfg m)) ∧ s.Served t.trace t.target)
      ∧ (s.status.inited = true → Along .sleepPrep s t → t.Tracks (linesOf (sleepPrepOps s.cfg)) ∧ s.Served t.trace t.target)
      ∧ (s.status.inited = true → Along .sleepRestore s t →
        t.Tracks (linesOf (sleepRestoreOps s.cfg)) ∧ s.Served t.trace t.target)

/-- R225 to R227: in every `INIT` that ended well, on every target and however often it waited, the first write of the display-reset bit, the hold, and the second
write of the opposite level stand in this order with nothing but the second write's read between them; the hold is at least 100 ms. -/
def Obligations.DisplayResetPulse : Prop :=
  ∀ (s t : State), s.cfg.meetsR7 = true → Along .init s t → t.run = none → t.status.err = .ok →
    ∃ (pre post : List Event) (b x c y : Byte),
      t.trace = pre ++ [.rd s.cfg.aDisprst 1 [b], .wr s.cfg.aDisprst [x], .slp s.cfg.tHoldMs,
          .rd s.cfg.aDisprst 1 [c], .wr s.cfg.aDisprst [y]] ++ post
        ∧ x = withBit b s.cfg.bDisprst s.cfg.lRstDeassert ∧ y = withBit c s.cfg.bDisprst (!s.cfg.lRstDeassert)
        ∧ 100 ≤ s.cfg.tHoldMs ∧ (∀ e ∈ pre ++ post, e.isSleep = false)

/-- R211, its counts: an `INIT` that ended well, however often it waited, made 20 reads, 20 writes and 1 sleep, or 19, 19 and 1. -/
def Obligations.InitEventCounts : Prop :=
  ∀ (s t : State), Along .init s t → t.run = none → t.status.err = .ok →
    ∃ n, (n = 20 ∨ n = 19) ∧ t.trace.length = 2 * n + 1 ∧ (t.trace.countP Event.isWrite) = n
      ∧ (t.trace.countP Event.isSleep) = 1

/-- R238, R70: on the reference target, issuing `SLEEP_PREP`, `SLEEP_RESTORE` (after an `INIT`: `INITED` = 1, the premise of R240) or
`BUSPWR mode` twice leaves the same register contents as issuing it once, and issues its transactions again. -/
def Obligations.SequencesIdempotentOnReference : Prop :=
  ∀ (i : Instr) (s t u : State), (s.status.inited = true ∧ (i = .sleepPrep ∨ i = .sleepRestore)) ∨ (∃ m, i = .buspwr m) →
    s.onReference → exec i s = .next t → exec i t = .next u →
      (∀ x, Memory.byte u.target x = Memory.byte t.target x) ∧ u.trace.map Event.shape = t.trace.map Event.shape

/-- R238: on the reference target, after an `INIT` (`INITED` = 1, the premise of R240), `SLEEP_PREP` then `SLEEP_RESTORE` leaves `A_ADCEN` = `V_ADC_ON`, the LED bit at `LED_ON_LEVEL`, the
DC-DC bit at 1, and every other bit of every register as it was. The three registers are taken to be three (R39 lets a `CFG` name
one twice). -/
def Obligations.SleepAndRestore : Prop :=
  ∀ (s t u : State), s.status.inited = true → s.onReference → s.cfg.aAdcen ≠ s.cfg.aLed → s.cfg.aAdcen ≠ s.cfg.aOuten → s.cfg.aLed ≠ s.cfg.aOuten →
    exec .sleepPrep s = .next t → exec .sleepRestore t = .next u →
      Memory.byte u.target s.cfg.aAdcen.toNat = s.cfg.vAdcOn
      ∧ (∀ k, k < 8 → (Memory.byte u.target s.cfg.aLed.toNat).getLsbD k =
          if k = s.cfg.bLed.val then s.cfg.ledOnLevel else (Memory.byte s.target s.cfg.aLed.toNat).getLsbD k)
      ∧ (∀ k, k < 8 → (Memory.byte u.target s.cfg.aOuten.toNat).getLsbD k =
          if k = s.cfg.bSleepDcdc.val then true else (Memory.byte s.target s.cfg.aOuten.toNat).getLsbD k)
      ∧ ∀ x, x ≠ s.cfg.aAdcen.toNat → x ≠ s.cfg.aLed.toNat → x ≠ s.cfg.aOuten.toNat →
          Memory.byte u.target x = Memory.byte s.target x

/-- R283 for `CFG_REF`, with the values of R6: what an `INIT` on the reference target leaves in each register it writes, by what the
register held before, and that every other register is as it was. -/
def Obligations.InitEstablishesOnReferenceConfig : Prop :=
  ∀ (s t : State), s.cfg = Config.reference → s.onReference → exec .init s = .next t →
    let b : Nat → Byte := fun x => Memory.byte s.target x
    let e : Nat → Byte := fun x => Memory.byte t.target x
    let external : Bool := (b 0x00).getLsbD 3
    e 0x30 = ((b 0x30 &&& 0x04#8) ||| 0x02#8) ||| (if external then 0x80#8 else 0x00#8)
      ∧ e 0x92 = b 0x92 &&& 0xF8#8 ∧ e 0x93 = b 0x93 &&& 0xF8#8 ∧ e 0x35 = (b 0x35 &&& 0x1C#8) ||| 0xA2#8
      ∧ e 0x26 = (b 0x26 &&& 0x80#8) ||| 0x6A#8 ∧ e 0x27 = (b 0x27 &&& 0x80#8) ||| 0x54#8 ∧ e 0x28 = 0xF2#8
      ∧ e 0x12 = b 0x12 ||| 0x06#8 ∧ e 0x94 = b 0x94 &&& 0xFD#8 ∧ e 0x33 = b 0x33 &&& 0xF0#8 ∧ e 0x82 = 0xFF#8
      ∧ e 0x96 = b 0x96 ||| 0x02#8
      ∧ e 0xE0 = (if external then b 0xE0 else (b 0xE0 &&& 0x0F#8) ||| 0xF0#8)
      ∧ e 0xE1 = (b 0xE1 &&& 0xF8#8) ||| (if external then 0x07#8 else 0x02#8)
      ∧ e 0xE2 = (if external then b 0xE2 &&& 0xFB#8 else b 0xE2 ||| 0x04#8) ∧ e 0xE3 = b 0xE3
      ∧ ∀ x, x ∉ [0x12, 0x26, 0x27, 0x28, 0x30, 0x33, 0x35, 0x82, 0x92, 0x93, 0x94, 0x96, 0xE0, 0xE1, 0xE2, 0xE3] → e x = b x

/-! ## Exceptions and the whole machine -/

/-- R256: whatever the command, the target, the failures and the waits: a command that ends with an exception has completed; `RES`,
`DBUF`, `ARG` and `INITED` are as they were before it. The exception is precise: with `BusError`, every entry of the command's
micro-program before `SEQ_PC` has completed, the entry at `SEQ_PC` failed, and none after it has started; with any other, nothing has
started. The target's registers are what the events of the trace made of them (R262): nothing is undone. -/
def Obligations.ExceptionsArePrecise : Prop :=
  ∀ (s t : State) (i : Instr), Along i s t → t.status.err ≠ .ok →
    t.run = none ∧ t.status.busy = false ∧ t.status.done = true ∧ t.res = s.res ∧ t.dbuf = s.dbuf ∧ t.arg = s.arg
      ∧ t.status.inited = s.status.inited
      ∧ (t.status.err = .busError → ∃ p, planOf i s.cfg s.arg s.dbuf = some p ∧ t.Tracks p.1)
      ∧ (t.status.err ≠ .busError → t.trace = [] ∧ t.seqPc = 0)
      ∧ s.Served t.trace t.target

/-- R250, in every state a command passes through: a `BusError` ends the command at its first failing transaction, which is the last event; `FAILW` says whether it was a write;
without `BusError` no event is a failure. -/
def Obligations.BusErrorIsTheLastEvent : Prop :=
  ∀ (s t : State) (i : Instr), Along i s t →
    (t.status.err = .busError → ∃ pre e, t.trace = pre ++ [e] ∧ e.failed = true ∧ t.status.failw = e.isWrite
      ∧ ∀ x ∈ pre, x.failed = false)
      ∧ (t.status.err ≠ .busError → t.status.failw = false ∧ ∀ x ∈ t.trace, x.failed = false)

/-- R29, `WROTE`: whatever the command and whether it waits or has ended, `WROTE` says whether one of its events is a write that succeeded. -/
def Obligations.WroteMeansAWriteSucceeded : Prop :=
  ∀ (s t : State) (i : Instr), Along i s t →
    (t.status.wrote = true ↔ ∃ e ∈ t.trace, e.isWrite = true ∧ e.failed = false)

/-- R253: no command's meaning raises `IllegalCommand` (only a malformed word does), and the commands without traffic raise nothing. -/
def Obligations.WhichCommandRaisesWhat : Prop :=
  ∀ (s t : State) (i : Instr), Along i s t →
    t.status.err ≠ .illegalCommand ∧ (trafficFree i = true → t.status.err = .ok)

/-- R231, R27: with `k` the index of 100 mA in the table, in every state an `INIT` passes through, on every target, the trace and
`SEQ_PC` are those of the table of R211. A failed `INIT` has `ERR = BusError`, `SEQ_PC` at the entry that failed, every entry before it
on its path completed and none after it started; the target's registers are what the events made of them, nothing undone. `INITED` is
set only by an `INIT` that ended well; `RES`, `DBUF` and `ARG` are as they were. -/
def Obligations.InitFailureAndInited : Prop :=
  ∀ (s t : State), s.cfg.meetsR7 = true → Along .init s t →
    (∃ k, s.cfg.chgTable[k]? = some 100 ∧ t.Tracks (initLines s.cfg k)) ∧ s.Served t.trace t.target
      ∧ (t.run = none → t.status.err ≠ .ok →
        t.status.err = .busError ∧ t.seqPc.toNat < 26 ∧ t.status.inited = s.status.inited)
      ∧ (t.run = none → t.status.err = .ok → t.status.inited = true ∧ t.seqPc = 26)
      ∧ (t.run ≠ none → t.status.inited = s.status.inited)
      ∧ t.res = s.res ∧ t.dbuf = s.dbuf ∧ t.arg = s.arg

/-- R6, R23, R30, R32: no command writes `CFG`, `CMD` or `ARG`, nor the host's accesses or what the host has read; while it waits the
host only uses up accesses of its own, and reads. -/
def Obligations.CommandsNeverWriteHostRegisters : Prop :=
  ∀ (s t : State) (i : Instr),
    (Along i s t → t.cfg = s.cfg ∧ t.cmd = s.cmd ∧ t.arg = s.arg ∧ t.inputs <:+ s.inputs ∧ s.seen <+: t.seen)
      ∧ (exec i s = .next t → t.inputs = s.inputs ∧ t.seen = s.seen)

/-- R24, R25, R29, in every state a command passes through: of all commands only `RDREG` writes `DBUF`, only those with a result write `RES`, and only `INIT` writes `INITED`. -/
def Obligations.WhoWritesResultRegisters : Prop :=
  ∀ (s t : State) (i : Instr), Along i s t →
    ((∀ a len, i ≠ .rdreg a len) → t.dbuf = s.dbuf)
      ∧ (givesResult i = false → t.res = s.res)
      ∧ (i ≠ .init → t.status.inited = s.status.inited)

/-- R27: in every state a command passes through, `SEQ_PC` is where its micro-program has come to: each entry that completed moved it
to the next index, the target of its branch or of its jump, and it keeps the index of the entry in progress, or of the one that failed.
A command that completes without exception leaves it at the end index of its table. -/
def Obligations.SeqPcFollowsTheProgram : Prop :=
  ∀ (s t : State) (i : Instr), Along i s t →
    (∀ p, planOf i s.cfg s.arg s.dbuf = some p → t.Tracks p.1)
      ∧ (t.run = none → t.status.err = .ok → t.seqPc = endIndex i)

/-- R264, its premise: when every collaborator answers every request, however late, every command completes, with success or an
exception (unless a reset comes); and it completes at once when every answer comes at once. -/
def Obligations.AnsweredCommandsComplete : Prop :=
  ∀ (s : State) (i : Instr), s.allAnswer →
    (s.noReset → ∃ t, Along i s t ∧ t.run = none ∧ t.status.busy = false ∧ t.status.done = true)
      ∧ (s.noDelay → ∃ t, exec i s = .next t ∧ t.run = none ∧ t.status.busy = false ∧ t.status.done = true)

/-- R264: a command whose collaborator never answers stays in progress for ever, with nothing from the host: every number of steps
leaves the machine as it is. That a hang is a step which changes nothing is the model's (log entry 7). -/
def Obligations.HungCommandNeverEnds : Prop :=
  ∀ (s : State) (r : Running), s.run = some r → s.inputs = [] →
    (r.sleeping s = false → s.nextReply.delay = 0 → s.nextReply.result = .never → ∀ n, Sys2Proof.core.run n s = .next s)
      ∧ (r.sleeping s = true → s.nextTimer.delay = 0 → s.nextTimer.returns = false → ∀ n, Sys2Proof.core.run n s = .next s)

/-- R16, R61, R299: how late a collaborator answers changes nothing but time, with nothing from the host. A command that waits, in
whatever entry, for a transaction answered `d` steps late goes on, after these `d` steps, as from the same state with the answer at
once; and so for a timer that is `d` steps late. Any command that ends, however often and for whatever it waited, ends in the state in
which it ends when every answer comes at once. In particular one whose first transaction is late is where it would be after the `d`
steps and the one in which the answer comes. Delays counted in steps are the model's (log entries 3 and 7). -/
def Obligations.DelayChangesNothing : Prop :=
  (∀ (s : State) (r : Running) (d : Nat), s.run = some r → s.inputs = [] →
      (∀ (x : Reply) (rest : List Reply), r.sleeping s = false → x.delay = 0 → x.result ≠ .never →
        s.replies = { x with delay := d } :: rest → Sys2Proof.core.run (d + 1) s = step { s with replies := x :: rest })
      ∧ (∀ (x : TimerReply) (rest : List TimerReply), r.sleeping s = true → x.delay = 0 → x.returns = true →
        s.timer = { x with delay := d } :: rest → Sys2Proof.core.run (d + 1) s = step { s with timer := x :: rest }))
    ∧ (∀ (s t : State) (i : Instr), s.inputs = [] → Along i s t → t.run = none → exec i s.prompt = .next t.prompt)
    ∧ ∀ (s t u : State) (i : Instr) (x : Reply) (rest : List Reply) (d : Nat), trafficFree i = false →
      s.inputs = [] → x.delay = 0 → x.result ≠ .never →
      exec i { s with replies := { x with delay := d + 1 } :: rest } = .next t → t.run ≠ none →
      exec i { s with replies := x :: rest } = .next u →
        Sys2Proof.core.run (d + 2) t = .next u

/-- R29, R32, R35: while a command waits, the host sees `BUSY` = 1 and `DONE` = 0 in `STATUS`, whose byte is that of R29, and the entry
in progress in `SEQ_PC`. That a read stands between two steps of a wait is the model's (log entry 7). -/
def Obligations.WaitingCommandShowsBusy : Prop :=
  ∀ (s : State) (r : Running) (rest : List Input), s.status.busy = true → s.status.done = false → s.run = some r →
    r.ready s = false →
      (s.inputs = .read .status :: rest → ∃ t v, step s = .next t ∧ t.seen = s.seen ++ [(.status, v)]
          ∧ v.toNat = s.status.value ∧ v.getLsbD 0 = true ∧ v.getLsbD 1 = false
          ∧ t.run = some r ∧ t.inputs = rest ∧ t.allEvents = s.allEvents)
        ∧ (s.inputs = .read .seqPc :: rest → ∃ t, step s = .next t ∧ t.seen = s.seen ++ [(.seqPc, s.seqPc.setWidth 96)]
          ∧ t.run = some r ∧ t.inputs = rest ∧ t.allEvents = s.allEvents)

/-- R29, R32, R35: the idle engine does nothing by itself; the host's writes of `ARG` and `DBUF[k]` do what they say and nothing else;
a read gives the value of the register, `STATUS` as the byte of R29 and `RES` with all its 96 bits, and changes nothing. The record of
the values read is the model's (log entry 8). -/
def Obligations.IdleHostAccesses : Prop :=
  ∀ (s : State) (rest : List Input), s.run = none →
    (s.inputs = [] → step s = .next s)
      ∧ (∀ v, s.inputs = .arg v :: rest → step s = .next { s with inputs := rest, arg := v })
      ∧ (∀ k b, s.inputs = .dbuf k b :: rest → ∃ t, step s = .next t ∧ t.dbuf.get k = b ∧ (∀ j, j ≠ k → t.dbuf.get j = s.dbuf.get j)
          ∧ t = { s with inputs := rest, dbuf := t.dbuf })
      ∧ (∀ r, s.inputs = .read r :: rest → ∃ v, step s = .next { s with inputs := rest, seen := s.seen ++ [(r, v)] }
          ∧ (r = .cmd → v.toNat = s.cmd.toNat) ∧ (r = .arg → v.toNat = s.arg.toNat)
          ∧ (r = .dbuf 0 → v.toNat = s.dbuf.b0.toNat) ∧ (r = .dbuf 1 → v.toNat = s.dbuf.b1.toNat)
          ∧ (r = .dbuf 2 → v.toNat = s.dbuf.b2.toNat) ∧ (r = .dbuf 3 → v.toNat = s.dbuf.b3.toNat)
          ∧ (r = .res → v = s.res) ∧ (r = .status → v.toNat = s.status.value) ∧ (r = .seqPc → v.toNat = s.seqPc.toNat))

/-- R45, R280: right after reset `STATUS` reads 0x00 and `SEQ_PC` 0, and nothing has happened on the bus; and a reset of an idle engine
in any state gives those values, with no transaction, no sleep, and `CFG` and the target untouched. -/
def Obligations.ResetLeavesIdleEngine : Prop :=
  (State.reset.status.toByte = 0 ∧ State.reset.seqPc = 0 ∧ State.reset.run = none ∧ State.reset.allEvents = [])
    ∧ ∀ (s : State) (landed : List Bool) (rest : List Input), s.run = none → s.inputs = .reset landed :: rest →
      ∃ t, step s = .next t ∧ t.status.toByte = 0 ∧ t.seqPc = 0 ∧ t.run = none ∧ t.allEvents = s.allEvents
        ∧ t.target = s.target ∧ t.cfg = s.cfg ∧ t.replies = s.replies ∧ t.timer = s.timer

/-- R45, R264: reset ends a command in progress: the engine is idle with `STATUS` = 0x00, no event is added, and the only registers of
the target that may change beside its own changes are those of a write cut off, each old or as sent. What becomes of the pending
answer is the model's (log entry 11). -/
def Obligations.ResetAbandonsCommand : Prop :=
  ∀ (s : State) (r : Running) (landed : List Bool) (rest : List Input),
    s.run = some r → r.ready s = false → s.inputs = .reset landed :: rest →
      ∃ t, step s = .next t ∧ t.status.toByte = 0 ∧ t.seqPc = 0 ∧ t.run = none ∧ t.allEvents = s.allEvents ∧ t.cfg = s.cfg
        ∧ (r.sleeping s = true → t.target = s.target)
        ∧ ∀ x, Memory.byte t.target x ≠ Memory.byte s.target x → Memory.byte t.target x ≠ Memory.byte s.targetNow x →
            ∃ a bytes k, r.pendingWrite s = some (a, bytes) ∧ x = a.toNat + k ∧ bytes[k]? = some (Memory.byte t.target x)

/-- R73 (d): the order of all events is the concatenation of the commands' traces: a step adds events at the end and never changes or
removes one. -/
def Obligations.EventsAreOnlyAppended : Prop :=
  ∀ (s t : State), step s = .next t → s.allEvents <+: t.allEvents

/-- R27, R29, R30, R36, R37, R210, R256: every step keeps the invariant of the machine, from every state that meets it: the registers of
the target in canonical form, the flags that cannot stand together, `SEQ_PC` inside its range, and the record of the last command. The
last says, of a command that waits, that it is the one in `CMD`, that the trace holds the events of exactly the entries on its path
before `SEQ_PC`, and of the one at `SEQ_PC` what it has begun; of one that ended, that the trace is complete, or stops at the entry
that failed. -/
def Obligations.StepKeepsInvariant : Prop := ∀ (s t : State), s.Inv → step s = .next t → t.Inv

/-- The state after reset meets the invariant of the machine. -/
def Obligations.ResetMeetsInvariant : Prop := State.reset.Inv
end

