-- ==== Sys2Proof/Laws/Memory.lean ====
section
/-! SUPPORT. The target's registers: a read after a write, every operation keeps the canonical form, and equal registers are equal
data. -/

namespace Sys2Proof.Machine

theorem Memory.find_insert (m : Memory) (a : Nat) (b : Byte) (x : Nat) :
    Memory.find (Memory.insert m a b) x = if a = x then some b else Memory.find m x := by
  induction m with
  | nil => simp [Memory.insert, Memory.find]
  | cons c rest ih =>
    obtain ⟨k, v⟩ := c
    simp only [Memory.insert]
    split
    · simp [Memory.find]
    · split
      · rename_i h
        subst h
        by_cases hx : a = x <;> simp [Memory.find, hx]
      · rename_i h
        simp only [Memory.find, ih]
        split
        · rename_i hk
          subst hk
          simp [h]
        · rfl

theorem Memory.find_put (m : Memory) (a : Nat) (b : Byte) (x : Nat) (ha : a < 256) :
    Memory.find (Memory.put m a b) x = if a = x then some b else Memory.find m x := by
  simp [Memory.put, ha, Memory.find_insert]

/-- A read after a write: the register written holds the byte, every other one what it held. -/
theorem Memory.byte_put (m : Memory) (a : Nat) (b : Byte) (x : Nat) (ha : a < 256) :
    Memory.byte (Memory.put m a b) x = if a = x then b else Memory.byte m x := by
  rw [Memory.byte, Memory.find_put m a b x ha, Memory.byte]
  split <;> rfl

theorem Memory.byte_put_ne (m : Memory) (a : Nat) (b : Byte) (x : Nat) (h : a ≠ x) :
    Memory.byte (Memory.put m a b) x = Memory.byte m x := by
  by_cases ha : a < 256
  · simp [Memory.byte_put m a b x ha, h]
  · simp [Memory.put, ha]

/-- A span written leaves every register outside it alone. -/
theorem Memory.byte_putSpan_outside (bytes : List Byte) (m : Memory) (a x : Nat) (h : x < a ∨ a + bytes.length ≤ x) :
    Memory.byte (Memory.putSpan m a bytes) x = Memory.byte m x := by
  induction bytes generalizing m a with
  | nil => rfl
  | cons b rest ih =>
    simp only [Memory.putSpan]
    rw [ih _ _ (by simp only [List.length_cons] at h; omega), Memory.byte_put_ne]
    simp only [List.length_cons] at h
    omega

/-- A span written holds the bytes, the first at the lowest address (R62). -/
theorem Memory.byte_putSpan_inside (bytes : List Byte) (m : Memory) (a k : Nat) (hk : k < bytes.length)
    (ha : a + bytes.length ≤ 256) : Memory.byte (Memory.putSpan m a bytes) (a + k) = bytes[k] := by
  induction bytes generalizing m a k with
  | nil => simp at hk
  | cons b rest ih =>
    simp only [Memory.putSpan]
    simp only [List.length_cons] at hk ha
    cases k with
    | zero =>
      rw [Memory.byte_putSpan_outside _ _ _ _ (by omega), Memory.byte_put _ _ _ _ (by omega)]
      simp
    | succ k =>
      have := ih (Memory.put m a b) (a + 1) k (by omega) (by omega)
      rw [show a + (k + 1) = a + 1 + k by omega, this]
      simp

/-- A failed write leaves every register outside its span alone. -/
theorem Memory.byte_landSpan_outside (bytes : List Byte) (m : Memory) (a x : Nat) (l : List Bool)
    (h : x < a ∨ a + bytes.length ≤ x) : Memory.byte (Memory.landSpan m a bytes l) x = Memory.byte m x := by
  induction bytes generalizing m a l with
  | nil => rfl
  | cons b rest ih =>
    simp only [Memory.landSpan]
    simp only [List.length_cons] at h
    rw [ih _ _ _ (by omega)]
    split
    · exact Memory.byte_put_ne _ _ _ _ (by omega)
    · rfl

/-- Each byte of a failed write is the one sent where the draw says so, and the old one elsewhere (R262). -/
theorem Memory.byte_landSpan_inside (bytes : List Byte) (m : Memory) (a k : Nat) (l : List Bool) (hk : k < bytes.length)
    (ha : a + bytes.length ≤ 256) :
    Memory.byte (Memory.landSpan m a bytes l) (a + k) = if l.getD k false then bytes[k] else Memory.byte m (a + k) := by
  induction bytes generalizing m a k l with
  | nil => simp at hk
  | cons b rest ih =>
    simp only [Memory.landSpan]
    simp only [List.length_cons] at hk ha
    cases k with
    | zero =>
      rw [Memory.byte_landSpan_outside _ _ _ _ _ (by omega)]
      cases l with
      | nil => simp
      | cons c l =>
        cases c
        · simp
        · simp [Memory.byte_put _ _ _ _ (show a < 256 by omega)]
    | succ k =>
      have := ih (if l.headD false then Memory.put m a b else m) (a + 1) k l.tail (by omega) (by omega)
      rw [show a + (k + 1) = a + 1 + k by omega, this]
      have hne : Memory.byte (if l.headD false then Memory.put m a b else m) (a + 1 + k) = Memory.byte m (a + 1 + k) := by
        split
        · exact Memory.byte_put_ne _ _ _ _ (by omega)
        · rfl
      cases l with
      | nil => simp
      | cons c l => simp only [List.tail_cons, List.getD_cons_succ, List.getElem_cons_succ]; rw [hne]; rfl

theorem Memory.wf_nil : Memory.wf ([] : Memory) = true := rfl

theorem Memory.mem_insert {m : Memory} {a : Nat} {b : Byte} {c : Host.Cell} (h : c ∈ Memory.insert m a b) :
    c = (a, b) ∨ c ∈ m := by
  induction m with
  | nil => simpa [Memory.insert] using h
  | cons d rest ih =>
    obtain ⟨k, v⟩ := d
    simp only [Memory.insert] at h
    split at h
    · simpa using h
    · split at h
      · rcases List.mem_cons.1 h with h | h
        · exact .inl h
        · exact .inr (List.mem_cons_of_mem _ h)
      · rcases List.mem_cons.1 h with h | h
        · exact .inr (h ▸ List.mem_cons_self)
        · rcases ih h with h | h
          · exact .inl h
          · exact .inr (List.mem_cons_of_mem _ h)

theorem Memory.wf_iff (m : Memory) :
    Memory.wf m = true ↔ m.Pairwise (fun x y => x.1 < y.1) ∧ ∀ c ∈ m, c.1 < 256 := by
  simp [Memory.wf]

theorem Memory.insert_sorted {m : Memory} {a : Nat} {b : Byte} (h : m.Pairwise (fun x y => x.1 < y.1)) :
    (Memory.insert m a b).Pairwise (fun x y => x.1 < y.1) := by
  induction m with
  | nil => simp [Memory.insert]
  | cons d rest ih =>
    obtain ⟨k, v⟩ := d
    rw [List.pairwise_cons] at h
    simp only [Memory.insert]
    split
    · rename_i hlt
      refine List.pairwise_cons.2 ⟨fun c hc => ?_, List.pairwise_cons.2 h⟩
      rcases List.mem_cons.1 hc with rfl | hc
      · exact hlt
      · exact Nat.lt_trans hlt (h.1 c hc)
    · split
      · rename_i heq
        subst heq
        exact List.pairwise_cons.2 ⟨h.1, h.2⟩
      · refine List.pairwise_cons.2 ⟨fun c hc => ?_, ih h.2⟩
        rcases Memory.mem_insert hc with rfl | hc
        · show k < a
          omega
        · exact h.1 c hc

theorem Memory.wf_put {m : Memory} {a : Nat} {b : Byte} (h : Memory.wf m = true) : Memory.wf (Memory.put m a b) = true := by
  by_cases ha : a < 256
  · rw [Memory.wf_iff] at *
    simp only [Memory.put, ha, if_true]
    refine ⟨Memory.insert_sorted h.1, fun c hc => ?_⟩
    rcases Memory.mem_insert hc with rfl | hc
    · exact ha
    · exact h.2 c hc
  · simpa [Memory.put, ha] using h

theorem Memory.wf_putSpan (bytes : List Byte) {m : Memory} {a : Nat} (h : Memory.wf m = true) :
    Memory.wf (Memory.putSpan m a bytes) = true := by
  induction bytes generalizing m a with
  | nil => exact h
  | cons b rest ih => exact ih (Memory.wf_put h)

theorem Memory.wf_landSpan (bytes : List Byte) {m : Memory} {a : Nat} {l : List Bool} (h : Memory.wf m = true) :
    Memory.wf (Memory.landSpan m a bytes l) = true := by
  induction bytes generalizing m a l with
  | nil => exact h
  | cons b rest ih =>
    simp only [Memory.landSpan]
    apply ih
    split
    · exact Memory.wf_put h
    · exact h

theorem Memory.wf_selfChange (cs : List (Byte × Byte)) {m : Memory} (h : Memory.wf m = true) :
    Memory.wf (Memory.selfChange m cs) = true := by
  induction cs generalizing m with
  | nil => exact h
  | cons c rest ih => exact ih (Memory.wf_put h)

theorem Memory.find_none_of_lt {m : Memory} {a : Nat} (h : ∀ c ∈ m, a < c.1) : Memory.find m a = none := by
  induction m with
  | nil => rfl
  | cons d rest ih =>
    obtain ⟨k, v⟩ := d
    have hk : a < k := h _ List.mem_cons_self
    simp only [Memory.find, if_neg (Nat.ne_of_gt hk)]
    exact ih fun c hc => h c (List.mem_cons_of_mem _ hc)

/-- Equal registers are equal data: two lists in canonical form that list the same byte for every address are one list. -/
theorem Memory.ext_of_wf {m n : Memory} (hm : m.Pairwise (fun x y => x.1 < y.1)) (hn : n.Pairwise (fun x y => x.1 < y.1))
    (h : ∀ a, Memory.find m a = Memory.find n a) : m = n := by
  induction m generalizing n with
  | nil =>
    cases n with
    | nil => rfl
    | cons d _ =>
      have := h d.1
      simp [Memory.find] at this
  | cons c rest ih =>
    obtain ⟨k, v⟩ := c
    cases n with
    | nil =>
      have := h k
      simp [Memory.find] at this
    | cons d rest' =>
      obtain ⟨k', v'⟩ := d
      rw [List.pairwise_cons] at hm hn
      have hk : k = k' := by
        rcases Nat.lt_trichotomy k k' with hlt | heq | hgt
        · have h1 := h k
          rw [Memory.find_none_of_lt (m := (k', v') :: rest') (a := k)] at h1
          · simp [Memory.find] at h1
          · intro c hc
            rcases List.mem_cons.1 hc with rfl | hc
            · exact hlt
            · exact Nat.lt_trans hlt (hn.1 c hc)
        · exact heq
        · have h1 := h k'
          rw [Memory.find_none_of_lt (m := (k, v) :: rest) (a := k')] at h1
          · simp [Memory.find] at h1
          · intro c hc
            rcases List.mem_cons.1 hc with rfl | hc
            · exact hgt
            · exact Nat.lt_trans hgt (hm.1 c hc)
      subst hk
      have hv : v = v' := by simpa [Memory.find] using h k
      subst hv
      congr 1
      refine ih hm.2 hn.2 fun a => ?_
      by_cases ha : k = a
      · subst ha
        rw [Memory.find_none_of_lt hm.1, Memory.find_none_of_lt hn.1]
      · simpa [Memory.find, ha] using h a

end Sys2Proof.Machine
end

