-- ==== Sys2Proof/Laws/State.lean ====
section
/-! SUPPORT. One lemma per field per named update of the state, so that no later proof unfolds a record update. -/

namespace Sys2Proof.Machine

variable (s : State)

@[simp] theorem State.takeReply_cfg : s.takeReply.cfg = s.cfg := rfl
@[simp] theorem State.takeReply_cmd : s.takeReply.cmd = s.cmd := rfl
@[simp] theorem State.takeReply_arg : s.takeReply.arg = s.arg := rfl
@[simp] theorem State.takeReply_dbuf : s.takeReply.dbuf = s.dbuf := rfl
@[simp] theorem State.takeReply_res : s.takeReply.res = s.res := rfl
@[simp] theorem State.takeReply_status : s.takeReply.status = s.status := rfl
@[simp] theorem State.takeReply_seqPc : s.takeReply.seqPc = s.seqPc := rfl
@[simp] theorem State.takeReply_tmp : s.takeReply.tmp = s.tmp := rfl
@[simp] theorem State.takeReply_run : s.takeReply.run = s.run := rfl
@[simp] theorem State.takeReply_trace : s.takeReply.trace = s.trace := rfl
@[simp] theorem State.takeReply_history : s.takeReply.history = s.history := rfl
@[simp] theorem State.takeReply_seen : s.takeReply.seen = s.seen := rfl
@[simp] theorem State.takeReply_target : s.takeReply.target = s.targetNow := rfl
@[simp] theorem State.takeReply_replies : s.takeReply.replies = s.replies.tail := rfl
@[simp] theorem State.takeReply_timer : s.takeReply.timer = s.timer := rfl
@[simp] theorem State.takeReply_inputs : s.takeReply.inputs = s.inputs := rfl

@[simp] theorem State.log_cfg (e : Event) : (s.log e).cfg = s.cfg := rfl
@[simp] theorem State.log_cmd (e : Event) : (s.log e).cmd = s.cmd := rfl
@[simp] theorem State.log_arg (e : Event) : (s.log e).arg = s.arg := rfl
@[simp] theorem State.log_dbuf (e : Event) : (s.log e).dbuf = s.dbuf := rfl
@[simp] theorem State.log_res (e : Event) : (s.log e).res = s.res := rfl
@[simp] theorem State.log_status (e : Event) : (s.log e).status = s.status := rfl
@[simp] theorem State.log_seqPc (e : Event) : (s.log e).seqPc = s.seqPc := rfl
@[simp] theorem State.log_tmp (e : Event) : (s.log e).tmp = s.tmp := rfl
@[simp] theorem State.log_run (e : Event) : (s.log e).run = s.run := rfl
@[simp] theorem State.log_trace (e : Event) : (s.log e).trace = s.trace ++ [e] := rfl
@[simp] theorem State.log_history (e : Event) : (s.log e).history = s.history := rfl
@[simp] theorem State.log_seen (e : Event) : (s.log e).seen = s.seen := rfl
@[simp] theorem State.log_target (e : Event) : (s.log e).target = s.target := rfl
@[simp] theorem State.log_replies (e : Event) : (s.log e).replies = s.replies := rfl
@[simp] theorem State.log_timer (e : Event) : (s.log e).timer = s.timer := rfl
@[simp] theorem State.log_inputs (e : Event) : (s.log e).inputs = s.inputs := rfl

@[simp] theorem State.startCommand_cfg : s.startCommand.cfg = s.cfg := rfl
@[simp] theorem State.startCommand_cmd : s.startCommand.cmd = s.cmd := rfl
@[simp] theorem State.startCommand_arg : s.startCommand.arg = s.arg := rfl
@[simp] theorem State.startCommand_dbuf : s.startCommand.dbuf = s.dbuf := rfl
@[simp] theorem State.startCommand_res : s.startCommand.res = s.res := rfl
@[simp] theorem State.startCommand_status : s.startCommand.status = s.status.started := rfl
@[simp] theorem State.startCommand_seqPc : s.startCommand.seqPc = 0 := rfl
@[simp] theorem State.startCommand_tmp : s.startCommand.tmp = s.tmp := rfl
@[simp] theorem State.startCommand_run : s.startCommand.run = none := rfl
@[simp] theorem State.startCommand_trace : s.startCommand.trace = [] := rfl
@[simp] theorem State.startCommand_history : s.startCommand.history = s.history ++ s.trace := rfl
@[simp] theorem State.startCommand_seen : s.startCommand.seen = s.seen := rfl
@[simp] theorem State.startCommand_target : s.startCommand.target = s.target := rfl
@[simp] theorem State.startCommand_replies : s.startCommand.replies = s.replies := rfl
@[simp] theorem State.startCommand_timer : s.startCommand.timer = s.timer := rfl
@[simp] theorem State.startCommand_inputs : s.startCommand.inputs = s.inputs := rfl

@[simp] theorem State.raise_cfg (e : ErrCode) (w : Bool) : (s.raise e w).cfg = s.cfg := rfl
@[simp] theorem State.raise_cmd (e : ErrCode) (w : Bool) : (s.raise e w).cmd = s.cmd := rfl
@[simp] theorem State.raise_arg (e : ErrCode) (w : Bool) : (s.raise e w).arg = s.arg := rfl
@[simp] theorem State.raise_dbuf (e : ErrCode) (w : Bool) : (s.raise e w).dbuf = s.dbuf := rfl
@[simp] theorem State.raise_res (e : ErrCode) (w : Bool) : (s.raise e w).res = s.res := rfl
@[simp] theorem State.raise_status (e : ErrCode) (w : Bool) : (s.raise e w).status = s.status.failed e w := rfl
@[simp] theorem State.raise_seqPc (e : ErrCode) (w : Bool) : (s.raise e w).seqPc = s.seqPc := rfl
@[simp] theorem State.raise_tmp (e : ErrCode) (w : Bool) : (s.raise e w).tmp = s.tmp := rfl
@[simp] theorem State.raise_run (e : ErrCode) (w : Bool) : (s.raise e w).run = none := rfl
@[simp] theorem State.raise_trace (e : ErrCode) (w : Bool) : (s.raise e w).trace = s.trace := rfl
@[simp] theorem State.raise_history (e : ErrCode) (w : Bool) : (s.raise e w).history = s.history := rfl
@[simp] theorem State.raise_seen (e : ErrCode) (w : Bool) : (s.raise e w).seen = s.seen := rfl
@[simp] theorem State.raise_target (e : ErrCode) (w : Bool) : (s.raise e w).target = s.target := rfl
@[simp] theorem State.raise_replies (e : ErrCode) (w : Bool) : (s.raise e w).replies = s.replies := rfl
@[simp] theorem State.raise_timer (e : ErrCode) (w : Bool) : (s.raise e w).timer = s.timer := rfl
@[simp] theorem State.raise_inputs (e : ErrCode) (w : Bool) : (s.raise e w).inputs = s.inputs := rfl

@[simp] theorem State.setRes_cfg (v : Int) : (s.setRes v).cfg = s.cfg := rfl
@[simp] theorem State.setRes_cmd (v : Int) : (s.setRes v).cmd = s.cmd := rfl
@[simp] theorem State.setRes_arg (v : Int) : (s.setRes v).arg = s.arg := rfl
@[simp] theorem State.setRes_dbuf (v : Int) : (s.setRes v).dbuf = s.dbuf := rfl
@[simp] theorem State.setRes_res (v : Int) : (s.setRes v).res = BitVec.ofInt 96 v := rfl
@[simp] theorem State.setRes_status (v : Int) : (s.setRes v).status = s.status := rfl
@[simp] theorem State.setRes_seqPc (v : Int) : (s.setRes v).seqPc = s.seqPc := rfl
@[simp] theorem State.setRes_tmp (v : Int) : (s.setRes v).tmp = s.tmp := rfl
@[simp] theorem State.setRes_run (v : Int) : (s.setRes v).run = s.run := rfl
@[simp] theorem State.setRes_trace (v : Int) : (s.setRes v).trace = s.trace := rfl
@[simp] theorem State.setRes_history (v : Int) : (s.setRes v).history = s.history := rfl
@[simp] theorem State.setRes_seen (v : Int) : (s.setRes v).seen = s.seen := rfl
@[simp] theorem State.setRes_target (v : Int) : (s.setRes v).target = s.target := rfl
@[simp] theorem State.setRes_replies (v : Int) : (s.setRes v).replies = s.replies := rfl
@[simp] theorem State.setRes_timer (v : Int) : (s.setRes v).timer = s.timer := rfl
@[simp] theorem State.setRes_inputs (v : Int) : (s.setRes v).inputs = s.inputs := rfl

@[simp] theorem State.advance_cfg (j : Option Nat) : (s.advance j).cfg = s.cfg := by cases j <;> rfl
@[simp] theorem State.advance_cmd (j : Option Nat) : (s.advance j).cmd = s.cmd := by cases j <;> rfl
@[simp] theorem State.advance_arg (j : Option Nat) : (s.advance j).arg = s.arg := by cases j <;> rfl
@[simp] theorem State.advance_dbuf (j : Option Nat) : (s.advance j).dbuf = s.dbuf := by cases j <;> rfl
@[simp] theorem State.advance_res (j : Option Nat) : (s.advance j).res = s.res := by cases j <;> rfl
@[simp] theorem State.advance_status (j : Option Nat) : (s.advance j).status = s.status := by cases j <;> rfl
@[simp] theorem State.advance_tmp (j : Option Nat) : (s.advance j).tmp = s.tmp := by cases j <;> rfl
@[simp] theorem State.advance_run (j : Option Nat) : (s.advance j).run = s.run := by cases j <;> rfl
@[simp] theorem State.advance_trace (j : Option Nat) : (s.advance j).trace = s.trace := by cases j <;> rfl
@[simp] theorem State.advance_history (j : Option Nat) : (s.advance j).history = s.history := by cases j <;> rfl
@[simp] theorem State.advance_seen (j : Option Nat) : (s.advance j).seen = s.seen := by cases j <;> rfl
@[simp] theorem State.advance_target (j : Option Nat) : (s.advance j).target = s.target := by cases j <;> rfl
@[simp] theorem State.advance_replies (j : Option Nat) : (s.advance j).replies = s.replies := by cases j <;> rfl
@[simp] theorem State.advance_timer (j : Option Nat) : (s.advance j).timer = s.timer := by cases j <;> rfl
@[simp] theorem State.advance_inputs (j : Option Nat) : (s.advance j).inputs = s.inputs := by cases j <;> rfl

@[simp] theorem State.finish_cfg (f : Finish) (g : List Byte) : (s.finish f g).cfg = s.cfg := by cases f <;> rfl
@[simp] theorem State.finish_cmd (f : Finish) (g : List Byte) : (s.finish f g).cmd = s.cmd := by cases f <;> rfl
@[simp] theorem State.finish_arg (f : Finish) (g : List Byte) : (s.finish f g).arg = s.arg := by cases f <;> rfl
@[simp] theorem State.finish_seqPc (f : Finish) (g : List Byte) : (s.finish f g).seqPc = s.seqPc := by cases f <;> rfl
@[simp] theorem State.finish_tmp (f : Finish) (g : List Byte) : (s.finish f g).tmp = s.tmp := by cases f <;> rfl
@[simp] theorem State.finish_run (f : Finish) (g : List Byte) : (s.finish f g).run = s.run := by cases f <;> rfl
@[simp] theorem State.finish_trace (f : Finish) (g : List Byte) : (s.finish f g).trace = s.trace := by cases f <;> rfl
@[simp] theorem State.finish_history (f : Finish) (g : List Byte) : (s.finish f g).history = s.history := by cases f <;> rfl
@[simp] theorem State.finish_seen (f : Finish) (g : List Byte) : (s.finish f g).seen = s.seen := by cases f <;> rfl
@[simp] theorem State.finish_target (f : Finish) (g : List Byte) : (s.finish f g).target = s.target := by cases f <;> rfl
@[simp] theorem State.finish_replies (f : Finish) (g : List Byte) : (s.finish f g).replies = s.replies := by cases f <;> rfl
@[simp] theorem State.finish_timer (f : Finish) (g : List Byte) : (s.finish f g).timer = s.timer := by cases f <;> rfl
@[simp] theorem State.finish_inputs (f : Finish) (g : List Byte) : (s.finish f g).inputs = s.inputs := by cases f <;> rfl

@[simp] theorem State.complete_cfg (f : Finish) (g : List Byte) : (s.complete f g).cfg = s.cfg := by cases f <;> rfl
@[simp] theorem State.complete_cmd (f : Finish) (g : List Byte) : (s.complete f g).cmd = s.cmd := by cases f <;> rfl
@[simp] theorem State.complete_arg (f : Finish) (g : List Byte) : (s.complete f g).arg = s.arg := by cases f <;> rfl
@[simp] theorem State.complete_seqPc (f : Finish) (g : List Byte) : (s.complete f g).seqPc = s.seqPc := by cases f <;> rfl
@[simp] theorem State.complete_tmp (f : Finish) (g : List Byte) : (s.complete f g).tmp = s.tmp := by cases f <;> rfl
@[simp] theorem State.complete_run (f : Finish) (g : List Byte) : (s.complete f g).run = none := by cases f <;> rfl
@[simp] theorem State.complete_trace (f : Finish) (g : List Byte) : (s.complete f g).trace = s.trace := by cases f <;> rfl
@[simp] theorem State.complete_history (f : Finish) (g : List Byte) : (s.complete f g).history = s.history := by cases f <;> rfl
@[simp] theorem State.complete_seen (f : Finish) (g : List Byte) : (s.complete f g).seen = s.seen := by cases f <;> rfl
@[simp] theorem State.complete_target (f : Finish) (g : List Byte) : (s.complete f g).target = s.target := by cases f <;> rfl
@[simp] theorem State.complete_replies (f : Finish) (g : List Byte) : (s.complete f g).replies = s.replies := by cases f <;> rfl
@[simp] theorem State.complete_timer (f : Finish) (g : List Byte) : (s.complete f g).timer = s.timer := by cases f <;> rfl
@[simp] theorem State.complete_inputs (f : Finish) (g : List Byte) : (s.complete f g).inputs = s.inputs := by cases f <;> rfl

@[simp] theorem State.reject_cfg (e : ErrCode) : (s.reject e).cfg = s.cfg := rfl
@[simp] theorem State.reject_cmd (e : ErrCode) : (s.reject e).cmd = s.cmd := rfl
@[simp] theorem State.reject_arg (e : ErrCode) : (s.reject e).arg = s.arg := rfl
@[simp] theorem State.reject_dbuf (e : ErrCode) : (s.reject e).dbuf = s.dbuf := rfl
@[simp] theorem State.reject_res (e : ErrCode) : (s.reject e).res = s.res := rfl
@[simp] theorem State.reject_status (e : ErrCode) : (s.reject e).status = s.status.started.failed e false := rfl
@[simp] theorem State.reject_seqPc (e : ErrCode) : (s.reject e).seqPc = 0 := rfl
@[simp] theorem State.reject_tmp (e : ErrCode) : (s.reject e).tmp = s.tmp := rfl
@[simp] theorem State.reject_run (e : ErrCode) : (s.reject e).run = none := rfl
@[simp] theorem State.reject_trace (e : ErrCode) : (s.reject e).trace = [] := rfl
@[simp] theorem State.reject_history (e : ErrCode) : (s.reject e).history = s.history ++ s.trace := rfl
@[simp] theorem State.reject_seen (e : ErrCode) : (s.reject e).seen = s.seen := rfl
@[simp] theorem State.reject_target (e : ErrCode) : (s.reject e).target = s.target := rfl
@[simp] theorem State.reject_replies (e : ErrCode) : (s.reject e).replies = s.replies := rfl
@[simp] theorem State.reject_timer (e : ErrCode) : (s.reject e).timer = s.timer := rfl
@[simp] theorem State.reject_inputs (e : ErrCode) : (s.reject e).inputs = s.inputs := rfl

@[simp] theorem State.observe_cfg (r : HostReg) : (s.observe r).cfg = s.cfg := rfl
@[simp] theorem State.observe_cmd (r : HostReg) : (s.observe r).cmd = s.cmd := rfl
@[simp] theorem State.observe_arg (r : HostReg) : (s.observe r).arg = s.arg := rfl
@[simp] theorem State.observe_dbuf (r : HostReg) : (s.observe r).dbuf = s.dbuf := rfl
@[simp] theorem State.observe_res (r : HostReg) : (s.observe r).res = s.res := rfl
@[simp] theorem State.observe_status (r : HostReg) : (s.observe r).status = s.status := rfl
@[simp] theorem State.observe_seqPc (r : HostReg) : (s.observe r).seqPc = s.seqPc := rfl
@[simp] theorem State.observe_tmp (r : HostReg) : (s.observe r).tmp = s.tmp := rfl
@[simp] theorem State.observe_run (r : HostReg) : (s.observe r).run = s.run := rfl
@[simp] theorem State.observe_trace (r : HostReg) : (s.observe r).trace = s.trace := rfl
@[simp] theorem State.observe_history (r : HostReg) : (s.observe r).history = s.history := rfl
@[simp] theorem State.observe_seen (r : HostReg) : (s.observe r).seen = s.seen ++ [(r, s.hostRead r)] := rfl
@[simp] theorem State.observe_target (r : HostReg) : (s.observe r).target = s.target := rfl
@[simp] theorem State.observe_replies (r : HostReg) : (s.observe r).replies = s.replies := rfl
@[simp] theorem State.observe_timer (r : HostReg) : (s.observe r).timer = s.timer := rfl
@[simp] theorem State.observe_inputs (r : HostReg) : (s.observe r).inputs = s.inputs := rfl

@[simp] theorem State.resetEngine_cfg : s.resetEngine.cfg = s.cfg := rfl
@[simp] theorem State.resetEngine_cmd : s.resetEngine.cmd = 0 := rfl
@[simp] theorem State.resetEngine_arg : s.resetEngine.arg = 0 := rfl
@[simp] theorem State.resetEngine_dbuf : s.resetEngine.dbuf = ⟨0, 0, 0, 0⟩ := rfl
@[simp] theorem State.resetEngine_res : s.resetEngine.res = 0 := rfl
@[simp] theorem State.resetEngine_status : s.resetEngine.status = ⟨false, false, .ok, false, false, false⟩ := rfl
@[simp] theorem State.resetEngine_seqPc : s.resetEngine.seqPc = 0 := rfl
@[simp] theorem State.resetEngine_tmp : s.resetEngine.tmp = 0 := rfl
@[simp] theorem State.resetEngine_run : s.resetEngine.run = none := rfl
@[simp] theorem State.resetEngine_trace : s.resetEngine.trace = [] := rfl
@[simp] theorem State.resetEngine_history : s.resetEngine.history = s.history ++ s.trace := rfl
@[simp] theorem State.resetEngine_seen : s.resetEngine.seen = s.seen := rfl
@[simp] theorem State.resetEngine_target : s.resetEngine.target = s.target := rfl
@[simp] theorem State.resetEngine_replies : s.resetEngine.replies = s.replies := rfl
@[simp] theorem State.resetEngine_timer : s.resetEngine.timer = s.timer := rfl
@[simp] theorem State.resetEngine_inputs : s.resetEngine.inputs = s.inputs := rfl

@[simp] theorem State.offerWord_cfg (w : Word) : (s.offerWord w).cfg = s.cfg := rfl
@[simp] theorem State.offerWord_cmd (w : Word) : (s.offerWord w).cmd = s.cmd := rfl
@[simp] theorem State.offerWord_arg (w : Word) : (s.offerWord w).arg = s.arg := rfl
@[simp] theorem State.offerWord_dbuf (w : Word) : (s.offerWord w).dbuf = s.dbuf := rfl
@[simp] theorem State.offerWord_res (w : Word) : (s.offerWord w).res = s.res := rfl
@[simp] theorem State.offerWord_status (w : Word) : (s.offerWord w).status = s.status := rfl
@[simp] theorem State.offerWord_seqPc (w : Word) : (s.offerWord w).seqPc = s.seqPc := rfl
@[simp] theorem State.offerWord_tmp (w : Word) : (s.offerWord w).tmp = s.tmp := rfl
@[simp] theorem State.offerWord_run (w : Word) : (s.offerWord w).run = none := rfl
@[simp] theorem State.offerWord_trace (w : Word) : (s.offerWord w).trace = s.trace := rfl
@[simp] theorem State.offerWord_history (w : Word) : (s.offerWord w).history = s.history := rfl
@[simp] theorem State.offerWord_seen (w : Word) : (s.offerWord w).seen = s.seen := rfl
@[simp] theorem State.offerWord_target (w : Word) : (s.offerWord w).target = s.target := rfl
@[simp] theorem State.offerWord_replies (w : Word) : (s.offerWord w).replies = s.replies := rfl
@[simp] theorem State.offerWord_timer (w : Word) : (s.offerWord w).timer = s.timer := rfl
@[simp] theorem State.offerWord_inputs (w : Word) : (s.offerWord w).inputs = .cmd w :: s.inputs := rfl

@[simp] theorem State.advance_none_seqPc : (s.advance none).seqPc = s.seqPc + 1 := rfl
@[simp] theorem State.advance_some_seqPc (t : Nat) : (s.advance (some t)).seqPc = BitVec.ofNat 8 t := rfl

@[simp] theorem State.finish_keep (g : List Byte) : s.finish .keep g = s := rfl
@[simp] theorem State.finish_inited_status (g : List Byte) : (s.finish .inited g).status = s.status.withInited := rfl
@[simp] theorem State.finish_toDbuf_dbuf (g : List Byte) : (s.finish .toDbuf g).dbuf = s.dbuf.load g := rfl
@[simp] theorem State.finish_quantity_res (q : Quantity) (g : List Byte) :
    (s.finish (.quantity q) g).res = BitVec.ofInt 96 (q.result s.cfg g) := rfl
@[simp] theorem State.finish_value_res (v : Int) (g : List Byte) : (s.finish (.value v) g).res = BitVec.ofInt 96 v := rfl

@[simp] theorem State.finish_dbuf_of_ne (f : Finish) (g : List Byte) (h : f ≠ .toDbuf) : (s.finish f g).dbuf = s.dbuf := by
  cases f <;> first | rfl | exact absurd rfl h

@[simp] theorem State.finish_status_of_ne (f : Finish) (g : List Byte) (h : f ≠ .inited) :
    (s.finish f g).status = s.status := by
  cases f <;> first | rfl | exact absurd rfl h

/-- The commands that write `RES` are those that finish with a bit, a field, a quantity or a value (R25). -/
theorem State.finish_res_of_keeping (f : Finish) (g : List Byte) (h : f = .keep ∨ f = .inited ∨ f = .toDbuf) :
    (s.finish f g).res = s.res := by
  rcases h with rfl | rfl | rfl <;> rfl

@[simp] theorem State.complete_status_of_ne (f : Finish) (g : List Byte) (h : f ≠ .inited) :
    (s.complete f g).status = s.status.completed := by
  cases f <;> first | rfl | exact absurd rfl h

@[simp] theorem State.complete_inited_status (g : List Byte) :
    (s.complete .inited g).status = s.status.completed.withInited := rfl

@[simp] theorem State.complete_dbuf_of_ne (f : Finish) (g : List Byte) (h : f ≠ .toDbuf) : (s.complete f g).dbuf = s.dbuf := by
  cases f <;> first | rfl | exact absurd rfl h

@[simp] theorem State.complete_toDbuf_dbuf (g : List Byte) : (s.complete .toDbuf g).dbuf = s.dbuf.load g := rfl
@[simp] theorem State.complete_keep_res (g : List Byte) : (s.complete .keep g).res = s.res := rfl
@[simp] theorem State.complete_inited_res (g : List Byte) : (s.complete .inited g).res = s.res := rfl
@[simp] theorem State.complete_toDbuf_res (g : List Byte) : (s.complete .toDbuf g).res = s.res := rfl
@[simp] theorem State.complete_quantity_res (q : Quantity) (g : List Byte) :
    (s.complete (.quantity q) g).res = BitVec.ofInt 96 (q.result s.cfg g) := rfl
@[simp] theorem State.complete_value_res (v : Int) (g : List Byte) : (s.complete (.value v) g).res = BitVec.ofInt 96 v := rfl

@[simp] theorem Status.started_busy (t : Status) : t.started.busy = true := rfl
@[simp] theorem Status.started_inited (t : Status) : t.started.inited = t.inited := rfl
@[simp] theorem Status.started_wrote (t : Status) : t.started.wrote = false := rfl
@[simp] theorem Status.afterWrite_wrote (t : Status) : t.afterWrite.wrote = true := rfl
@[simp] theorem Status.afterWrite_busy (t : Status) : t.afterWrite.busy = t.busy := rfl
@[simp] theorem Status.afterWrite_inited (t : Status) : t.afterWrite.inited = t.inited := rfl
@[simp] theorem Status.completed_busy (t : Status) : t.completed.busy = false := rfl
@[simp] theorem Status.completed_inited (t : Status) : t.completed.inited = t.inited := rfl
@[simp] theorem Status.completed_wrote (t : Status) : t.completed.wrote = t.wrote := rfl
@[simp] theorem Status.failed_err (t : Status) (e : ErrCode) (w : Bool) : (t.failed e w).err = e := rfl
@[simp] theorem Status.failed_failw (t : Status) (e : ErrCode) (w : Bool) : (t.failed e w).failw = w := rfl
@[simp] theorem Status.failed_inited (t : Status) (e : ErrCode) (w : Bool) : (t.failed e w).inited = t.inited := rfl
@[simp] theorem Status.failed_wrote (t : Status) (e : ErrCode) (w : Bool) : (t.failed e w).wrote = t.wrote := rfl
@[simp] theorem Status.withInited_inited (t : Status) : t.withInited.inited = true := rfl

end Sys2Proof.Machine
end

