-- ==== Sys2Proof/Laws/Ops.lean ====
section
/-! SUPPORT. What each bus and timer primitive can do, said once: it answers, it fails, or it lets the engine wait. -/

namespace Sys2Proof.Machine

/-- The bus side of a state that has no answers listed is the reference target's: at once and without failure (R78). -/
theorem State.nextReply_of_nil {s : State} (h : s.replies = []) : s.nextReply = {} := by
  simp [State.nextReply, h]

@[simp] theorem State.takeReply_nextTimer (s : State) : s.takeReply.nextTimer = s.nextTimer := rfl
@[simp] theorem State.log_nextReply (s : State) (e : Event) : (s.log e).nextReply = s.nextReply := rfl
@[simp] theorem State.log_nextTimer (s : State) (e : Event) : (s.log e).nextTimer = s.nextTimer := rfl
@[simp] theorem State.log_targetNow (s : State) (e : Event) : (s.log e).targetNow = s.targetNow := rfl
@[simp] theorem State.startCommand_nextReply (s : State) : s.startCommand.nextReply = s.nextReply := rfl
@[simp] theorem State.startCommand_nextTimer (s : State) : s.startCommand.nextTimer = s.nextTimer := rfl
@[simp] theorem State.startCommand_targetNow (s : State) : s.startCommand.targetNow = s.targetNow := rfl
@[simp] theorem State.startCommand_busReady (s : State) : s.startCommand.busReady = s.busReady := rfl

/-- A read that is answered (R15): the bytes are those the target then holds, and one event is logged. -/
theorem State.memRead_ack {s : State} (a : Byte) (n : Nat) (hd : s.nextReply.delay = 0) (hr : s.nextReply.result = .ack) :
    s.memRead a n =
      .answered (Memory.span s.targetNow a.toNat n) (s.takeReply.log (.rd a n (Memory.span s.targetNow a.toNat n))) := by
  simp [State.memRead, hd, hr]

/-- A read that fails (R15, R250). -/
theorem State.memRead_nack {s : State} (a : Byte) (n : Nat) {l : List Bool} (hd : s.nextReply.delay = 0)
    (hr : s.nextReply.result = .nack l) : s.memRead a n = .failed (s.takeReply.log (.rdFail a n)) := by
  simp [State.memRead, hd, hr]

/-- A read that is not answered in this step (R264). -/
theorem State.memRead_waiting {s : State} (a : Byte) (n : Nat) (h : s.busReady = false) : s.memRead a n = .waiting := by
  by_cases hd : s.nextReply.delay = 0
  · have hr : s.nextReply.result = .never := by
      simpa [State.busReady, hd] using h
    simp [State.memRead, hd, hr]
  · simp [State.memRead, hd]

/-- A write that succeeds (R15, R29): the span holds the bytes, `WROTE` is set, one event is logged. -/
theorem State.memWrite_ack {s : State} (a : Byte) (bytes : List Byte) (hd : s.nextReply.delay = 0)
    (hr : s.nextReply.result = .ack) :
    s.memWrite a bytes = .answered () ({ s.takeReply with
      target := Memory.putSpan s.targetNow a.toNat bytes
      status := s.status.afterWrite }.log (.wr a bytes)) := by
  simp [State.memWrite, hd, hr]

/-- A write that fails (R250, R262). -/
theorem State.memWrite_nack {s : State} (a : Byte) (bytes : List Byte) {l : List Bool} (hd : s.nextReply.delay = 0)
    (hr : s.nextReply.result = .nack l) :
    s.memWrite a bytes =
      .failed ({ s.takeReply with target := Memory.landSpan s.targetNow a.toNat bytes l }.log (.wrFail a bytes)) := by
  simp [State.memWrite, hd, hr]

/-- A write that is not answered in this step (R264). -/
theorem State.memWrite_waiting {s : State} (a : Byte) (bytes : List Byte) (h : s.busReady = false) :
    s.memWrite a bytes = .waiting := by
  by_cases hd : s.nextReply.delay = 0
  · have hr : s.nextReply.result = .never := by
      simpa [State.busReady, hd] using h
    simp [State.memWrite, hd, hr]
  · simp [State.memWrite, hd]

/-- Every answer of the bus side is one of three. -/
theorem State.bus_cases (s : State) :
    s.busReady = false ∨ (s.nextReply.delay = 0 ∧ s.nextReply.result = .ack)
      ∨ ∃ l, s.nextReply.delay = 0 ∧ s.nextReply.result = .nack l := by
  cases hr : s.nextReply.result <;> by_cases hd : s.nextReply.delay = 0 <;> simp [State.busReady, hr, hd]

/-- A sleep that returns (R16). -/
theorem State.sleep_ready {s : State} (ms : Nat) (h : s.timerReady = true) :
    s.sleep ms = .answered () ({ s with timer := s.timer.tail }.log (.slp ms)) := by
  simp only [State.timerReady, Bool.and_eq_true, beq_iff_eq] at h
  simp [State.sleep, h]

/-- A sleep that has not returned in this step (R264). -/
theorem State.sleep_waiting {s : State} (ms : Nat) (h : s.timerReady = false) : s.sleep ms = .waiting := by
  by_cases hd : s.nextTimer.delay = 0
  · have hr : s.nextTimer.returns = false := by simpa [State.timerReady, hd] using h
    simp [State.sleep, hd, hr]
  · simp [State.sleep, hd]

end Sys2Proof.Machine
end

