-- ==== Sys2Proof/Laws/Sequencer.lean ====
section
/-! SUPPORT. What the engine can do to the state while it runs a micro-program, said once: every change is one of nine moves. What
the engine never writes, and what it only adds to, follows by cases on the moves. -/

namespace Sys2Proof.Machine

/-- One move of the engine in a command that finishes with `fin`: a transaction that succeeds or fails, a sleep that returns, the byte
latched, `SEQ_PC` moved, the command completed, or blocked. A failure ends the command in the same move (R18, R256). -/
inductive EngineMove (fin : Finish) : State → State → Prop where
  | read (s : State) (a : Byte) (n : Nat) (hd : s.nextReply.delay = 0) (hr : s.nextReply.result = .ack) :
      EngineMove fin s (s.takeReply.log (.rd a n (Memory.span s.targetNow a.toNat n)))
  | readFailed (s : State) (a : Byte) (n : Nat) (l : List Bool) (hd : s.nextReply.delay = 0)
      (hr : s.nextReply.result = .nack l) : EngineMove fin s ((s.takeReply.log (.rdFail a n)).raise .busError false)
  | wrote (s : State) (a : Byte) (bytes : List Byte) (hd : s.nextReply.delay = 0) (hr : s.nextReply.result = .ack) :
      EngineMove fin s ({ s.takeReply with
        target := Memory.putSpan s.targetNow a.toNat bytes
        status := s.status.afterWrite }.log (.wr a bytes))
  | writeFailed (s : State) (a : Byte) (bytes : List Byte) (l : List Bool) (hd : s.nextReply.delay = 0)
      (hr : s.nextReply.result = .nack l) :
      EngineMove fin s (({ s.takeReply with target := Memory.landSpan s.targetNow a.toNat bytes l }.log
        (.wrFail a bytes)).raise .busError true)
  | slept (s : State) (ms : Nat) (h : s.timerReady = true) : EngineMove fin s ({ s with timer := s.timer.tail }.log (.slp ms))
  | latched (s : State) (b : Byte) : EngineMove fin s { s with tmp := b }
  | moved (s : State) (k : BitVec 8) : EngineMove fin s { s with seqPc := k }
  | completed (s : State) (got : List Byte) : EngineMove fin s (s.complete fin got)
  | blocked (s : State) (r : Running) : EngineMove fin s { s with run := some r }

/-- Any number of moves. -/
abbrev EngineMoves (fin : Finish) : State → State → Prop := Relation.ReflTransGen (EngineMove fin)

theorem State.advance_move (fin : Finish) (s : State) (j : Option Nat) : EngineMoves fin s (s.advance j) := by
  cases j <;> exact .single (.moved s _)

/-- What the state of an entry's result is reached by, and that the command in progress stays the same command. -/
def EntryResult.Via (r : Running) (s : State) : EntryResult → Prop
  | .done r' s' => r'.prog = r.prog ∧ r'.fin = r.fin ∧ EngineMoves r.fin s s'
  | .raised s' => EngineMoves r.fin s s'
  | .waiting r' s' => r'.prog = r.prog ∧ r'.fin = r.fin ∧ EngineMoves r.fin s s'

theorem rmwWrite_via (a keep orBits : Byte) (j : Option Nat) (r : Running) (s : State) :
    (rmwWrite a keep orBits j r s).Via r s := by
  rcases s.bus_cases with h | ⟨hd, hr⟩ | ⟨l, hd, hr⟩
  · simp only [rmwWrite, State.memWrite_waiting _ _ h]
    exact ⟨rfl, rfl, .refl⟩
  · simp only [rmwWrite, State.memWrite_ack _ _ hd hr]
    exact ⟨rfl, rfl, (Relation.ReflTransGen.single (.wrote s _ _ hd hr)).trans
      (State.advance_move _ _ _)⟩
  · simp only [rmwWrite, State.memWrite_nack _ _ hd hr]
    exact .single (.writeFailed s _ _ l hd hr)

theorem rmwEntry_via (a keep orBits : Byte) (j : Option Nat) (r : Running) (s : State) :
    (rmwEntry a keep orBits j r s).Via r s := by
  unfold rmwEntry
  split
  · exact rmwWrite_via a keep orBits j r s
  · rcases s.bus_cases with h | ⟨hd, hr⟩ | ⟨l, hd, hr⟩
    · simp only [State.memRead_waiting _ _ h]
      exact ⟨rfl, rfl, .refl⟩
    · simp only [State.memRead_ack _ _ hd hr]
      generalize hs : State.log _ _ = s1
      have h1 : EngineMoves r.fin s s1 := hs ▸ .single (.read s a 1 hd hr)
      generalize byteAt _ 0 = b
      have h2 : EngineMoves r.fin s { s1 with tmp := b } := h1.trans (.single (.latched s1 b))
      have h3 := rmwWrite_via a keep orBits j { r with half := true } { s1 with tmp := b }
      revert h3
      generalize rmwWrite a keep orBits j _ _ = res
      intro h3
      cases res with
      | done r' s' => exact ⟨h3.1, h3.2.1, h2.trans h3.2.2⟩
      | raised s' => exact h2.trans h3
      | waiting r' s' => exact ⟨h3.1, h3.2.1, h2.trans h3.2.2⟩
    · simp only [State.memRead_nack _ _ hd hr]
      exact .single (.readFailed s _ _ _ hd hr)

/-- Every entry is a run of moves of its command. -/
theorem runEntry_via (l : Line) (r : Running) (s : State) : (runEntry l r s).Via r s := by
  unfold runEntry
  cases l.entry with
  | rd a n =>
    rcases s.bus_cases with h | ⟨hd, hr⟩ | ⟨l, hd, hr⟩
    · simp only [State.memRead_waiting _ _ h]
      exact ⟨rfl, rfl, .refl⟩
    · simp only [State.memRead_ack _ _ hd hr]
      exact ⟨rfl, rfl, (Relation.ReflTransGen.single (.read s _ _ hd hr)).trans (State.advance_move _ _ _)⟩
    · simp only [State.memRead_nack _ _ hd hr]
      exact .single (.readFailed s _ _ _ hd hr)
  | wr a bytes =>
    rcases s.bus_cases with h | ⟨hd, hr⟩ | ⟨l, hd, hr⟩
    · simp only [State.memWrite_waiting _ _ h]
      exact ⟨rfl, rfl, .refl⟩
    · simp only [State.memWrite_ack _ _ hd hr]
      exact ⟨rfl, rfl, (Relation.ReflTransGen.single (.wrote s _ _ hd hr)).trans
        (State.advance_move _ _ _)⟩
    · simp only [State.memWrite_nack _ _ hd hr]
      exact .single (.writeFailed s _ _ l hd hr)
  | rmw a keep orBits => exact rmwEntry_via a keep orBits _ r s
  | sb a bit v => exact rmwEntry_via a _ _ _ r s
  | slp ms =>
    cases h : s.timerReady with
    | false =>
      simp only [State.sleep_waiting _ h]
      exact ⟨rfl, rfl, .refl⟩
    | true =>
      simp only [State.sleep_ready _ h]
      exact ⟨rfl, rfl, (Relation.ReflTransGen.single (.slept s ms h)).trans (State.advance_move _ _ _)⟩
  | br a bit t1 t0 =>
    rcases s.bus_cases with h | ⟨hd, hr⟩ | ⟨l, hd, hr⟩
    · simp only [State.memRead_waiting _ _ h]
      exact ⟨rfl, rfl, .refl⟩
    · simp only [State.memRead_ack _ _ hd hr]
      exact ⟨rfl, rfl, (Relation.ReflTransGen.single (.read s _ _ hd hr)).trans (.single (.moved _ _))⟩
    · simp only [State.memRead_nack _ _ hd hr]
      exact .single (.readFailed s _ _ _ hd hr)

/-- The engine running a micro-program only makes moves of its command. -/
theorem drive_moves (n : Nat) (r : Running) (s : State) : EngineMoves r.fin s (drive n r s) := by
  induction n generalizing r s with
  | zero => exact .single (.blocked s r)
  | succ n ih =>
    unfold drive
    split
    · exact .single (.completed s r.got)
    · rename_i l _
      have h := runEntry_via l r s
      split
      · rename_i r' s' heq
        rw [heq] at h
        exact h.2.2.trans (h.2.1 ▸ ih r' s')
      · rename_i s' heq
        rw [heq] at h
        exact h
      · rename_i r' s' heq
        rw [heq] at h
        exact h.2.2.trans (.single (.blocked s' r'))

theorem runCommand_moves (prog : List Line) (fin : Finish) (s : State) :
    EngineMoves fin s.startCommand (runCommand prog fin s) :=
  drive_moves (prog.length + 1) ⟨prog, fin, [], false⟩ s.startCommand

/-- Running a micro-program leaves `CFG`, `CMD`, `ARG`, the host's accesses and the record of its reads alone, and the traces of the
commands before. -/
theorem EngineMoves.keeps {fin : Finish} {s t : State} (h : EngineMoves fin s t) :
    t.cfg = s.cfg ∧ t.cmd = s.cmd ∧ t.arg = s.arg ∧ t.inputs = s.inputs ∧ t.seen = s.seen ∧ t.history = s.history := by
  induction h with
  | refl => exact ⟨rfl, rfl, rfl, rfl, rfl, rfl⟩
  | tail _ hm ih => cases hm <;> simpa using ih

/-- Running a micro-program only adds to the trace. -/
theorem EngineMoves.trace_prefix {fin : Finish} {s t : State} (h : EngineMoves fin s t) : s.trace <+: t.trace := by
  induction h with
  | refl => exact List.prefix_refl _
  | tail _ hm ih =>
    cases hm <;> first
      | simpa using ih
      | exact ih.trans (by simp)

/-- Running a micro-program keeps the canonical form of the target's registers. -/
theorem EngineMoves.wf {fin : Finish} {s t : State} (h : EngineMoves fin s t) (hw : Memory.wf s.target = true) :
    Memory.wf t.target = true := by
  induction h with
  | refl => exact hw
  | tail _ hm ih =>
    cases hm with
    | read => exact Memory.wf_selfChange _ ih
    | readFailed => exact Memory.wf_selfChange _ ih
    | wrote => exact Memory.wf_putSpan _ (Memory.wf_selfChange _ ih)
    | writeFailed => exact Memory.wf_landSpan _ (Memory.wf_selfChange _ ih)
    | slept => exact ih
    | latched => exact ih
    | moved => exact ih
    | completed => simpa using ih
    | blocked => exact ih

/-- Only a command that finishes into `DBUF` writes it (R24). -/
theorem EngineMoves.dbuf {fin : Finish} {s t : State} (h : EngineMoves fin s t) (hf : fin ≠ .toDbuf) : t.dbuf = s.dbuf := by
  induction h with
  | refl => rfl
  | tail _ hm ih => cases hm <;> simp [hf, ih]

/-- Only a command that finishes into `RES` writes it (R25). -/
theorem EngineMoves.res {fin : Finish} {s t : State} (h : EngineMoves fin s t)
    (hf : fin = .keep ∨ fin = .inited ∨ fin = .toDbuf) : t.res = s.res := by
  induction h with
  | refl => rfl
  | tail _ hm ih =>
    cases hm with
    | completed => rcases hf with rfl | rfl | rfl <;> simpa using ih
    | read => simpa using ih
    | readFailed => simpa using ih
    | wrote => simpa using ih
    | writeFailed => simpa using ih
    | slept => simpa using ih
    | latched => simpa using ih
    | moved => simpa using ih
    | blocked => simpa using ih

/-- A command with an empty micro-program completes at once: no transaction, no sleep, `SEQ_PC` at 0 (R27). -/
theorem runCommand_nil (fin : Finish) (s : State) : runCommand [] fin s = s.startCommand.complete fin [] := rfl

end Sys2Proof.Machine
end

