-- ==== Sys2Proof/Laws/Commands.lean ====
section
/-! SUPPORT. What a command of one entry does, one lemma per entry kind and answer of the bus side. -/

namespace Sys2Proof.Machine

/-- The state the second transaction of a command meets. -/
theorem State.takeReply_nextReply (s : State) : s.takeReply.nextReply = s.replies.tail.headD {} := rfl

/-- A command of one read, answered: the bytes go to the command's result (R120, R130, R132, R162). -/
theorem runCommand_rd_ack (a : Byte) (n : Nat) (fin : Finish) (s : State) (hd : s.nextReply.delay = 0)
    (hr : s.nextReply.result = .ack) :
    runCommand [{ entry := .rd a n }] fin s =
      ((s.startCommand.takeReply.log (.rd a n (Memory.span s.targetNow a.toNat n))).advance none).complete fin
        (Memory.span s.targetNow a.toNat n) := by
  have h := State.memRead_ack (s := s.startCommand) a n hd hr
  simp only [State.startCommand_targetNow] at h
  simp [runCommand, drive, runEntry, h]

/-- A command of one read, failed (R250, R256). -/
theorem runCommand_rd_nack (a : Byte) (n : Nat) (fin : Finish) (s : State) {l : List Bool} (hd : s.nextReply.delay = 0)
    (hr : s.nextReply.result = .nack l) :
    runCommand [{ entry := .rd a n }] fin s = (s.startCommand.takeReply.log (.rdFail a n)).raise .busError false := by
  have h := State.memRead_nack (s := s.startCommand) a n hd hr
  simp [runCommand, drive, runEntry, h]

/-- A command of one write, answered (R121). -/
theorem runCommand_wr_ack (a : Byte) (bytes : List Byte) (fin : Finish) (s : State) (hd : s.nextReply.delay = 0)
    (hr : s.nextReply.result = .ack) :
    runCommand [{ entry := .wr a bytes }] fin s =
      (({ s.startCommand.takeReply with
        target := Memory.putSpan s.targetNow a.toNat bytes
        status := s.startCommand.status.afterWrite }.log (.wr a bytes)).advance none).complete fin [] := by
  have h := State.memWrite_ack (s := s.startCommand) a bytes hd hr
  simp only [State.startCommand_targetNow] at h
  simp [runCommand, drive, runEntry, h]

/-- A command of one write, failed (R250, R262). -/
theorem runCommand_wr_nack (a : Byte) (bytes : List Byte) (fin : Finish) (s : State) {l : List Bool}
    (hd : s.nextReply.delay = 0) (hr : s.nextReply.result = .nack l) :
    runCommand [{ entry := .wr a bytes }] fin s =
      ({ s.startCommand.takeReply with target := Memory.landSpan s.targetNow a.toNat bytes l }.log (.wrFail a bytes)).raise
        .busError true := by
  have h := State.memWrite_nack (s := s.startCommand) a bytes hd hr
  simp only [State.startCommand_targetNow] at h
  simp [runCommand, drive, runEntry, h]

/-- The state between the read half and the write half of a read-modify-write (R17): the byte read is in `TMP`. -/
def State.latchRead (s : State) (a : Byte) : State :=
  { s.takeReply.log (.rd a 1 [Memory.byte s.targetNow a.toNat]) with tmp := Memory.byte s.targetNow a.toNat }

/-- A read-modify-write whose read is answered goes on with its write half (R17). -/
theorem rmwEntry_read (a keep orBits : Byte) (j : Option Nat) (r : Running) (s : State) (hh : r.half = false)
    (hd : s.nextReply.delay = 0) (hr : s.nextReply.result = .ack) :
    rmwEntry a keep orBits j r s = rmwWrite a keep orBits j { r with half := true } (s.latchRead a) := by
  have hb : Memory.span s.targetNow a.toNat 1 = [Memory.byte s.targetNow a.toNat] := by simp [Memory.span]
  have h := State.memRead_ack (s := s) a 1 hd hr
  rw [hb] at h
  simp only [rmwEntry, hh, Bool.false_eq_true, if_false, h]
  rfl

/-- The write half, answered (R17, R29): the byte goes to the register and `SEQ_PC` moves on. -/
theorem rmwWrite_ack (a keep orBits : Byte) (j : Option Nat) (r : Running) (s : State) (hd : s.nextReply.delay = 0)
    (hr : s.nextReply.result = .ack) :
    rmwWrite a keep orBits j r s = .done { r with half := false } (({ s.takeReply with
      target := Memory.put s.targetNow a.toNat (rmwByte keep orBits s.tmp)
      status := s.status.afterWrite }.log (.wr a [rmwByte keep orBits s.tmp])).advance j) := by
  simp only [rmwWrite, State.memWrite_ack _ _ hd hr]
  rfl

/-- The write half, failed (R250, R262): the register holds the byte sent if the draw says so, else its old byte. -/
theorem rmwWrite_nack (a keep orBits : Byte) (j : Option Nat) (r : Running) (s : State) {l : List Bool}
    (hd : s.nextReply.delay = 0) (hr : s.nextReply.result = .nack l) :
    rmwWrite a keep orBits j r s = .raised (({ s.takeReply with
      target := if l.headD false then Memory.put s.targetNow a.toNat (rmwByte keep orBits s.tmp) else s.targetNow }.log
        (.wrFail a [rmwByte keep orBits s.tmp])).raise .busError true) := by
  simp only [rmwWrite, State.memWrite_nack _ _ hd hr]
  rfl

/-- The write half, not answered in this step (R264). -/
theorem rmwWrite_waiting (a keep orBits : Byte) (j : Option Nat) (r : Running) (s : State) (h : s.busReady = false) :
    rmwWrite a keep orBits j r s = .waiting r s := by
  simp only [rmwWrite, State.memWrite_waiting _ _ h]

/-- A command of one read-modify-write whose two transactions are answered (R17). -/
theorem runCommand_rmw_ack (a keep orBits : Byte) (fin : Finish) (s : State) (hd : s.nextReply.delay = 0)
    (hr : s.nextReply.result = .ack) (hd' : (s.startCommand.latchRead a).nextReply.delay = 0)
    (hr' : (s.startCommand.latchRead a).nextReply.result = .ack) :
    runCommand [{ entry := .rmw a keep orBits }] fin s =
      (({ (s.startCommand.latchRead a).takeReply with
        target := Memory.put (s.startCommand.latchRead a).targetNow a.toNat
          (rmwByte keep orBits (s.startCommand.latchRead a).tmp)
        status := (s.startCommand.latchRead a).status.afterWrite }.log
          (.wr a [rmwByte keep orBits (s.startCommand.latchRead a).tmp])).advance none).complete fin [] := by
  have h := rmwEntry_read a keep orBits none ⟨[{ entry := .rmw a keep orBits }], fin, [], false⟩ s.startCommand rfl hd hr
  rw [rmwWrite_ack _ _ _ _ _ _ hd' hr'] at h
  simp [runCommand, drive, runEntry, h]
  rfl

/-- A command of one read-modify-write whose write fails (R250, R262). -/
theorem runCommand_rmw_write_nack (a keep orBits : Byte) (fin : Finish) (s : State) {l : List Bool}
    (hd : s.nextReply.delay = 0) (hr : s.nextReply.result = .ack)
    (hd' : (s.startCommand.latchRead a).nextReply.delay = 0)
    (hr' : (s.startCommand.latchRead a).nextReply.result = .nack l) :
    runCommand [{ entry := .rmw a keep orBits }] fin s =
      ({ (s.startCommand.latchRead a).takeReply with
        target := if l.headD false then Memory.put (s.startCommand.latchRead a).targetNow a.toNat
          (rmwByte keep orBits (s.startCommand.latchRead a).tmp) else (s.startCommand.latchRead a).targetNow }.log
          (.wrFail a [rmwByte keep orBits (s.startCommand.latchRead a).tmp])).raise .busError true := by
  have h := rmwEntry_read a keep orBits none ⟨[{ entry := .rmw a keep orBits }], fin, [], false⟩ s.startCommand rfl hd hr
  rw [rmwWrite_nack _ _ _ _ _ _ hd' hr'] at h
  simp [runCommand, drive, runEntry, h]

/-- A command of one read-modify-write whose read fails ends with no write (R17, R250). -/
theorem runCommand_rmw_read_nack (a keep orBits : Byte) (fin : Finish) (s : State) {l : List Bool}
    (hd : s.nextReply.delay = 0) (hr : s.nextReply.result = .nack l) :
    runCommand [{ entry := .rmw a keep orBits }] fin s =
      (s.startCommand.takeReply.log (.rdFail a 1)).raise .busError false := by
  have h := State.memRead_nack (s := s.startCommand) a 1 hd hr
  simp [runCommand, drive, runEntry, rmwEntry, h]

end Sys2Proof.Machine
end

