-- ==== Sys2Proof/Laws/Answers.lean ====
section
/-! SUPPORT. The commands of one entry in the terms of the statements: the answers and the target by the index of a transaction, and
how a command of one read, one write or one read-modify-write ends. -/

namespace Sys2Proof.Machine

section
variable (s : State) (a : Byte)

@[simp] theorem State.latchRead_cfg : (s.latchRead a).cfg = s.cfg := rfl
@[simp] theorem State.latchRead_cmd : (s.latchRead a).cmd = s.cmd := rfl
@[simp] theorem State.latchRead_arg : (s.latchRead a).arg = s.arg := rfl
@[simp] theorem State.latchRead_dbuf : (s.latchRead a).dbuf = s.dbuf := rfl
@[simp] theorem State.latchRead_res : (s.latchRead a).res = s.res := rfl
@[simp] theorem State.latchRead_seqPc : (s.latchRead a).seqPc = s.seqPc := rfl
@[simp] theorem State.latchRead_run : (s.latchRead a).run = s.run := rfl
@[simp] theorem State.latchRead_history : (s.latchRead a).history = s.history := rfl
@[simp] theorem State.latchRead_seen : (s.latchRead a).seen = s.seen := rfl
@[simp] theorem State.latchRead_timer : (s.latchRead a).timer = s.timer := rfl
@[simp] theorem State.latchRead_inputs : (s.latchRead a).inputs = s.inputs := rfl
@[simp] theorem State.latchRead_status : (s.latchRead a).status = s.status := rfl
@[simp] theorem State.latchRead_target : (s.latchRead a).target = s.targetNow := rfl
@[simp] theorem State.latchRead_replies : (s.latchRead a).replies = s.replies.tail := rfl
@[simp] theorem State.latchRead_tmp : (s.latchRead a).tmp = Memory.byte s.targetNow a.toNat := rfl
@[simp] theorem State.latchRead_trace :
    (s.latchRead a).trace = s.trace ++ [.rd a 1 [Memory.byte s.targetNow a.toNat]] := rfl

end

/-- The first transaction of a command meets the answer of index 0. -/
theorem State.nextReply_eq_replyAt (s : State) : s.nextReply = s.replyAt 0 := by
  cases h : s.replies <;> simp [State.nextReply, State.replyAt, h]

theorem State.targetNow_eq_targetAt (s : State) : s.targetNow = s.targetAt 0 := by
  simp only [State.targetNow, State.targetAt, State.nextReply_eq_replyAt]

@[simp] theorem State.startCommand_replyAt (s : State) (k : Nat) : s.startCommand.replyAt k = s.replyAt k := rfl

@[simp] theorem State.startCommand_targetAt (s : State) (k : Nat) : s.startCommand.targetAt k = s.targetAt k := by
  induction k with
  | zero => rfl
  | succ k ih => rw [State.targetAt, State.targetAt, ih, State.startCommand_replyAt]

/-- After a served transaction the answers count from the next one. -/
@[simp] theorem State.takeReply_replyAt (s : State) (k : Nat) : s.takeReply.replyAt k = s.replyAt (k + 1) := by
  cases h : s.replies <;> simp [State.replyAt, h]

/-- The second transaction of a command meets the answer of index 1. -/
theorem State.nextReply_latchRead (s : State) (a : Byte) : (s.startCommand.latchRead a).nextReply = s.replyAt 1 := by
  rcases h : s.replies with _ | ⟨x, _ | ⟨y, r⟩⟩ <;> simp [State.nextReply, State.replyAt, h]

theorem State.targetNow_latchRead (s : State) (a : Byte) : (s.startCommand.latchRead a).targetNow = s.targetAt 1 := by
  rw [State.targetNow, State.nextReply_latchRead, State.latchRead_target, State.startCommand_targetNow,
    State.targetNow_eq_targetAt]
  rfl

/-- A command rejected before anything started. -/
theorem Rejected.of_reject (s : State) (e : ErrCode) : Rejected s (s.reject e) e where
  ended := by constructor <;> simp [State.reject, Status.failed, Status.started, State.errStatus]
  trace := by simp [State.reject]
  res := by simp [State.reject]
  dbuf := by simp [State.reject]
  tmp := by simp [State.reject]
  replies := by simp [State.reject]
  timer := by simp [State.reject]
  memory := by simp [State.reject]

/-- A command whose micro-program is one read-modify-write (R17). -/
theorem RunsRmw.of_runCommand {i : Instr} {s : State} {a keep orBits : Byte} {new : Byte → Byte}
    (hi : exec i s = .next (runCommand [{ entry := .rmw a keep orBits }] .keep s))
    (hn : ∀ b, new b = rmwByte keep orBits b) : RunsRmw i s a new := by
  have ha := a.isLt
  refine ⟨fun h => ⟨_, hi, ?_⟩, fun l h => ⟨_, hi, ?_⟩, fun l h1 h2 => ⟨_, hi, ?_⟩⟩
  · have h0 := h 0 (by omega)
    have h1 := h 1 (by omega)
    obtain ⟨k1, k2, k3, k4, k5, k6⟩ := (runCommand_moves [{ entry := .rmw a keep orBits }] .keep s).keeps
    rw [runCommand_rmw_ack _ _ _ _ _ (by rw [s.nextReply_eq_replyAt]; exact h0.1) (by rw [s.nextReply_eq_replyAt]; exact h0.2)
      (by rw [s.nextReply_latchRead]; exact h1.1) (by rw [s.nextReply_latchRead]; exact h1.2)] at *
    refine ⟨⟨?_, ?_, ?_, k1, k2, k3, k4, k5, k6⟩, ?_, ?_, ?_, ?_, ?_, ?_, ?_, ?_⟩
    · simp [Status.completed, Status.afterWrite, Status.started, State.okStatus]
    · simp
    · simp
    · simp [State.oldByte, State.targetNow_eq_targetAt, hn]
    · simp [State.oldByte, State.targetNow_eq_targetAt]
    · simp
    · simp
    · simp [← List.drop_one, List.drop_drop]
    · simp
    · simp [Memory.byte_put _ _ _ _ ha, hn, State.oldByte, State.targetNow_eq_targetAt]
    · intro x hx
      simp [State.targetNow_latchRead, Memory.byte_put_ne _ _ _ _ (Ne.symm hx)]
  · obtain ⟨k1, k2, k3, k4, k5, k6⟩ := (runCommand_moves [{ entry := .rmw a keep orBits }] .keep s).keeps
    rw [runCommand_rmw_read_nack _ _ _ _ _ (by rw [s.nextReply_eq_replyAt]; exact h.1)
      (by rw [s.nextReply_eq_replyAt]; exact h.2)] at *
    refine ⟨⟨?_, ?_, ?_, k1, k2, k3, k4, k5, k6⟩, ?_, ?_, ?_, ?_, ?_, ?_, ?_⟩
    · simp [Status.failed, Status.started, State.errStatus]
    all_goals simp
    · intro x
      simp [State.targetNow_eq_targetAt]
  · have h0 := h1 0 (by omega)
    obtain ⟨k1, k2, k3, k4, k5, k6⟩ := (runCommand_moves [{ entry := .rmw a keep orBits }] .keep s).keeps
    rw [runCommand_rmw_write_nack _ _ _ _ _ (by rw [s.nextReply_eq_replyAt]; exact h0.1)
      (by rw [s.nextReply_eq_replyAt]; exact h0.2) (by rw [s.nextReply_latchRead]; exact h2.1)
      (by rw [s.nextReply_latchRead]; exact h2.2)] at *
    refine ⟨⟨?_, ?_, ?_, k1, k2, k3, k4, k5, k6⟩, ?_, ?_, ?_, ?_, ?_, ?_, ?_, ?_⟩
    · simp [Status.failed, Status.started, State.errStatus]
    · simp
    · simp
    · simp [State.oldByte, State.targetNow_eq_targetAt, hn]
    · simp [State.oldByte, State.targetNow_eq_targetAt]
    · simp
    · simp
    · simp [← List.drop_one, List.drop_drop]
    · simp
    · simp only [State.raise_target, State.log_target, State.targetNow_latchRead]
      split
      · exact .inl (by simp [Memory.byte_put _ _ _ _ ha, hn, State.oldByte, State.targetNow_eq_targetAt])
      · exact .inr rfl
    · intro x hx
      simp only [State.raise_target, State.log_target, State.targetNow_latchRead]
      split
      · simp [Memory.byte_put_ne _ _ _ _ (Ne.symm hx)]
      · rfl

/-- A command whose micro-program is one read that succeeds: everything but its result (R250 not raised). -/
theorem ReadEnds.of_runCommand {s : State} {a : Byte} {n : Nat} {fin : Finish} (hf : fin ≠ .inited) (h : s.acks 1) :
    ReadEnds s (runCommand [{ entry := .rd a n }] fin s) a n := by
  have h0 := h 0 (by omega)
  obtain ⟨k1, k2, k3, k4, k5, k6⟩ := (runCommand_moves [{ entry := .rd a n }] fin s).keeps
  rw [runCommand_rd_ack _ _ _ _ (by rw [s.nextReply_eq_replyAt]; exact h0.1)
    (by rw [s.nextReply_eq_replyAt]; exact h0.2)] at *
  refine ⟨⟨?_, ?_, ?_, k1, k2, k3, k4, k5, k6⟩, ?_, ?_, ?_, ?_, ?_⟩
  · cases fin <;> simp_all [State.complete, State.finish, State.setRes, Status.completed, Status.started, State.okStatus]
  · simp
  · simp
  · simp [State.targetNow_eq_targetAt]
  · simp
  · simp
  · simp
  · simp [State.targetNow_eq_targetAt]

/-- A command whose micro-program is one read that fails (R250, R256). -/
theorem ReadFails.of_runCommand {s : State} {a : Byte} {n : Nat} {fin : Finish} {l : List Bool} (h : (s.replyAt 0).nacks l) :
    ReadFails s (runCommand [{ entry := .rd a n }] fin s) a n := by
  obtain ⟨k1, k2, k3, k4, k5, k6⟩ := (runCommand_moves [{ entry := .rd a n }] fin s).keeps
  rw [runCommand_rd_nack _ _ _ _ (by rw [s.nextReply_eq_replyAt]; exact h.1)
    (by rw [s.nextReply_eq_replyAt]; exact h.2)] at *
  refine ⟨⟨?_, ?_, ?_, k1, k2, k3, k4, k5, k6⟩, ?_, ?_, ?_, ?_, ?_, ?_, ?_⟩
  · simp [Status.failed, Status.started, State.errStatus]
  all_goals simp
  · simp [State.targetNow_eq_targetAt]

/-- A command of one read whose bytes become a number (R130, R132, R162). -/
theorem ReadsIntoRes.of_runCommand {i : Instr} {s : State} {a : Byte} {n : Nat} {fin : Finish} {v : Int}
    (hi : exec i s = .next (runCommand [{ entry := .rd a n }] fin s)) (h1 : fin ≠ .inited) (h2 : fin ≠ .toDbuf)
    (hv : s.acks 1 → ((s.startCommand.complete fin (Memory.span (s.targetAt 0) a.toNat n)).res).toInt = v) :
    ReadsIntoRes i s a n v := by
  refine ⟨fun h => ⟨_, hi, .of_runCommand h1 h, ?_, ?_⟩, fun l h => ⟨_, hi, .of_runCommand h⟩⟩
  · exact (runCommand_moves [{ entry := .rd a n }] fin s).dbuf h2
  · rw [← hv h, runCommand_rd_ack _ _ _ _ (by rw [s.nextReply_eq_replyAt]; exact (h 0 (by omega)).1)
      (by rw [s.nextReply_eq_replyAt]; exact (h 0 (by omega)).2), s.targetNow_eq_targetAt]
    cases fin <;> rfl

end Sys2Proof.Machine
end

