-- ==== Sys2Proof/Laws/Drive.lean ====
section
/-! SUPPORT. How a micro-program is run: one round of the engine, an induction principle over all rounds, and the rounds of a
micro-program of register operations on the reference target. -/

namespace Sys2Proof.Machine

/-- `SEQ_PC` at the end index: the command completes (R27). -/
theorem drive_end {n : Nat} {r : Running} {s : State} (h : r.prog[s.seqPc.toNat]? = none) :
    drive (n + 1) r s = s.complete r.fin r.got := by
  simp [drive, h]

theorem drive_done {n : Nat} {r r' : Running} {s s' : State} {l : Line} (h : r.prog[s.seqPc.toNat]? = some l)
    (hl : runEntry l r s = .done r' s') : drive (n + 1) r s = drive n r' s' := by
  simp [drive, h, hl]

theorem drive_raised {n : Nat} {r : Running} {s s' : State} {l : Line} (h : r.prog[s.seqPc.toNat]? = some l)
    (hl : runEntry l r s = .raised s') : drive (n + 1) r s = s' := by
  simp [drive, h, hl]

theorem drive_waiting {n : Nat} {r r' : Running} {s s' : State} {l : Line} (h : r.prog[s.seqPc.toNat]? = some l)
    (hl : runEntry l r s = .waiting r' s') : drive (n + 1) r s = { s' with run := some r' } := by
  simp [drive, h, hl]

/-- What holds of every round (`P`) gives what holds when the engine stops (`Q`). -/
theorem drive_induction {P : Running → State → Prop} {Q : State → Prop}
    (hfuel : ∀ r s, P r s → Q { s with run := some r })
    (hend : ∀ r s, P r s → r.prog[s.seqPc.toNat]? = none → Q (s.complete r.fin r.got))
    (hdone : ∀ r s l r' s', P r s → r.prog[s.seqPc.toNat]? = some l → runEntry l r s = .done r' s' → P r' s')
    (hraised : ∀ r s l s', P r s → r.prog[s.seqPc.toNat]? = some l → runEntry l r s = .raised s' → Q s')
    (hwait : ∀ r s l r' s', P r s → r.prog[s.seqPc.toNat]? = some l → runEntry l r s = .waiting r' s' →
      Q { s' with run := some r' })
    (n : Nat) (r : Running) (s : State) (h : P r s) : Q (drive n r s) := by
  induction n generalizing r s with
  | zero => exact hfuel r s h
  | succ n ih =>
    cases hp : r.prog[s.seqPc.toNat]? with
    | none =>
      rw [drive_end hp]
      exact hend r s h hp
    | some l =>
      cases hl : runEntry l r s with
      | done r' s' =>
        rw [drive_done hp hl]
        exact ih r' s' (hdone r s l r' s' h hp hl)
      | raised s' =>
        rw [drive_raised hp hl]
        exact hraised r s l s' h hp hl
      | waiting r' s' =>
        rw [drive_waiting hp hl]
        exact hwait r s l r' s' h hp hl

/-- On the reference target every request is answered at once, with success. -/
theorem State.onReference.nextReply {s : State} (h : s.onReference) : s.nextReply = {} := by
  cases hr : s.replies with
  | nil => simp [State.nextReply, hr]
  | cons x rest => simpa [State.nextReply, hr] using h.1 x (by simp [hr])

theorem State.onReference.nextTimer {s : State} (h : s.onReference) : s.nextTimer = {} := by
  cases hr : s.timer with
  | nil => simp [State.nextTimer, hr]
  | cons x rest => simpa [State.nextTimer, hr] using h.2 x (by simp [hr])

theorem State.onReference.targetNow {s : State} (h : s.onReference) : s.targetNow = s.target := by
  simp [State.targetNow, h.nextReply, Memory.selfChange]

/-- One register operation has been done on the reference target, and `SEQ_PC` has moved to `pc`. -/
structure RanOps (s t : State) (ops : List RegOp) (pc : BitVec 8) : Prop where
  target : t.target = applyOps s.target ops
  trace : t.trace = s.trace ++ opsEvents s.target ops
  seqPc : t.seqPc = pc
  status : t.status = if ops = [] then s.status else s.status.afterWrite
  onReference : s.onReference → t.onReference
  cfg : t.cfg = s.cfg
  cmd : t.cmd = s.cmd
  arg : t.arg = s.arg
  dbuf : t.dbuf = s.dbuf
  res : t.res = s.res
  timer : t.timer = s.timer
  run : t.run = s.run
  history : t.history = s.history
  seen : t.seen = s.seen
  inputs : t.inputs = s.inputs

theorem opsEvents_append (m : Memory) (xs ys : List RegOp) :
    opsEvents m (xs ++ ys) = opsEvents m xs ++ opsEvents (applyOps m xs) ys := by
  induction xs generalizing m with
  | nil => rfl
  | cons x xs ih => simp [opsEvents, applyOps, ih]

theorem applyOps_append (m : Memory) (xs ys : List RegOp) : applyOps m (xs ++ ys) = applyOps (applyOps m xs) ys := by
  simp [applyOps]

theorem RanOps.trans {s t u : State} {xs ys : List RegOp} {p q : BitVec 8} (h : RanOps s t xs p) (k : RanOps t u ys q) :
    RanOps s u (xs ++ ys) q where
  target := by rw [k.target, h.target, applyOps_append]
  trace := by rw [k.trace, h.trace, h.target, opsEvents_append, List.append_assoc]
  seqPc := k.seqPc
  status := by
    rw [k.status, h.status]
    cases xs <;> cases ys <;> simp [Status.afterWrite]
  onReference := fun h0 => k.onReference (h.onReference h0)
  cfg := k.cfg.trans h.cfg
  cmd := k.cmd.trans h.cmd
  arg := k.arg.trans h.arg
  dbuf := k.dbuf.trans h.dbuf
  res := k.res.trans h.res
  timer := k.timer.trans h.timer
  run := k.run.trans h.run
  history := k.history.trans h.history
  seen := k.seen.trans h.seen
  inputs := k.inputs.trans h.inputs

/-- Where `SEQ_PC` goes after an entry with this `JMP` (R27, R210). -/
def nextPc (pc : BitVec 8) (jmp : Option Nat) : BitVec 8 := (jmp.map (BitVec.ofNat 8)).getD (pc + 1)

/-- The entry of a register operation on the reference target. -/
theorem runEntry_ranOps (op : RegOp) (j : Option Nat) (r : Running) (s : State) (h : s.onReference) (hh : r.half = false) :
    ∃ t, runEntry { entry := op.entry, jmp := j } r s = .done r t ∧ RanOps s t [op] (nextPc s.seqPc j) := by
  have ht := h.targetNow
  have hr : ∀ x ∈ s.replies.tail, x = {} := fun x hx => h.1 x (List.mem_of_mem_tail hx)
  cases op with
  | store a v =>
    refine ⟨_, by
      simp only [runEntry, RegOp.entry]
      rw [State.memWrite_ack _ _ (by rw [h.nextReply]) (by rw [h.nextReply])], ?_⟩
    constructor <;> cases j <;>
      simp [applyOps, RegOp.apply, opsEvents, RegOp.events, nextPc, ht, Memory.putSpan, State.onReference]
    all_goals exact fun _ hx => ⟨hr, hx⟩
  | patch a keep orBits =>
    have h1 : (s.latchRead a).onReference := ⟨by simpa using hr, by simpa using h.2⟩
    have hr2 : ∀ x ∈ s.replies.tail.tail, x = {} := fun x hx => hr x (List.mem_of_mem_tail hx)
    refine ⟨_, by
      simp only [runEntry, RegOp.entry]
      rw [rmwEntry_read _ _ _ _ _ _ hh (by rw [h.nextReply]) (by rw [h.nextReply]),
        rmwWrite_ack _ _ _ _ _ _ (by rw [h1.nextReply]) (by rw [h1.nextReply])]
      rw [show ({ ({ r with half := true } : Running) with half := false } : Running) = r by cases r; simp_all], ?_⟩
    have ht1 : (s.latchRead a).targetNow = s.target := by rw [h1.targetNow, State.latchRead_target, ht]
    constructor <;> cases j <;>
      simp [applyOps, RegOp.apply, opsEvents, RegOp.events, nextPc, ht, ht1, rmwByte, State.onReference]
    all_goals exact fun _ hx => ⟨hr2, hx⟩

/-- A line runs as a register operation does: its own entry, or a bit write (R210). -/
def Line.runsAs (l : Line) (op : RegOp) : Prop :=
  l.jmp = none ∧ ∀ r s, runEntry l r s = runEntry { entry := op.entry } r s

theorem RanOps.nil (s : State) : RanOps s s [] s.seqPc := by constructor <;> simp [applyOps, opsEvents]

/-- A straight stretch of register operations on the reference target: the engine runs them in order and comes to the line after
them. -/
theorem drive_ops {lines : List Line} {ops : List RegOp} (hf : List.Forall₂ Line.runsAs lines ops) {n : Nat} {r : Running}
    {s : State} {pre post : List Line} (hs : s.onReference) (hh : r.half = false) (hp : r.prog = pre ++ lines ++ post)
    (hpc : s.seqPc.toNat = pre.length) (hlt : r.prog.length < 256) :
    ∃ t, drive (n + lines.length) r s = drive n r t ∧ RanOps s t ops (BitVec.ofNat 8 (pre.length + lines.length)) := by
  induction hf generalizing s pre with
  | nil =>
    refine ⟨s, rfl, ?_⟩
    have h := RanOps.nil s
    rwa [show s.seqPc = BitVec.ofNat 8 (pre.length + ([] : List Line).length) by
      apply BitVec.eq_of_toNat_eq
      have := s.seqPc.isLt
      simp [← hpc]] at h
  | @cons l op ls os hl hf ih =>
    obtain ⟨t, ht, hr⟩ := runEntry_ranOps op none r s hs hh
    have hlen : pre.length + 1 < 256 := by
      rw [hp] at hlt
      simp at hlt
      omega
    have hpc' : t.seqPc.toNat = (pre ++ [l]).length := by
      rw [hr.seqPc, nextPc]
      simp [BitVec.toNat_add, hpc]
      omega
    obtain ⟨u, hu, hru⟩ := ih (s := t) (pre := pre ++ [l]) (hr.onReference hs) (by simp [hp]) hpc'
    refine ⟨u, ?_, ?_⟩
    · have hget : r.prog[s.seqPc.toNat]? = some l := by simp [hp, hpc]
      rw [List.length_cons, ← Nat.add_assoc, drive_done hget ((hl.2 r s).trans ht), hu]
    · have h := hr.trans hru
      rw [show (pre ++ [l]).length + ls.length = pre.length + (l :: ls).length by simp; omega] at h
      exact h

end Sys2Proof.Machine
end

