-- ==== Sys2Proof/Laws/Exec.lean ====
section
/-! SUPPORT. What a command can do, said once: it runs its micro-program, or it is rejected before anything starts. -/

namespace Sys2Proof.Machine

/-- The state a plan leads to. -/
def State.follow (s : State) : Option (List Line × Finish) → State
  | some p => runCommand p.1 p.2 s
  | none => s.reject .invalidArgument

/-- Every command follows its plan: it always has a next state. -/
theorem exec_eq_follow (i : Instr) (s : State) : exec i s = .next (s.follow (planOf i s.cfg s.arg s.dbuf)) := by
  have hq : ∀ q : Quantity, readQuantity q s = s.follow (readPlan q s.cfg) := by
    intro q
    unfold readQuantity readPlan
    split <;> rfl
  cases i with
  | rdreg a len => simp only [exec, execRdreg, planOf]; split <;> rfl
  | wrreg a len => simp only [exec, execWrreg, planOf]; split <;> rfl
  | wrDcdc index => simp only [exec, execWrDcdc, planOf]; cases railOf index <;> rfl
  | wrLdo index => simp only [exec, execWrLdo, planOf]; cases ldoOf index <;> rfl
  | wrChgi => simp only [exec, execWrChgi, planOf, State.argNat]; cases encChg s.cfg s.arg.toNat <;> rfl
  | wrBright => simp only [exec, execWrBright, planOf, State.argNat]; cases encBright s.cfg s.arg.toNat <;> rfl
  | init => simp only [exec, execInit, planOf]; cases encChg s.cfg s.cfg.maChgDefault <;> rfl
  | rdBatv => exact congrArg _ (hq _)
  | rdBati => exact congrArg _ (hq _)
  | rdBatichg => exact congrArg _ (hq _)
  | rdBatp => exact congrArg _ (hq _)
  | rdVinv => exact congrArg _ (hq _)
  | rdVini => exact congrArg _ (hq _)
  | rdVbusv => exact congrArg _ (hq _)
  | rdVbusi => exact congrArg _ (hq _)
  | rdApsv => exact congrArg _ (hq _)
  | rdTemp => exact congrArg _ (hq _)
  | rdCcin => exact congrArg _ (hq _)
  | rdCcout => exact congrArg _ (hq _)
  | rdBatpct => exact congrArg _ (hq _)
  | _ => rfl

/-- A micro-program of the block: at most 26 entries, every jump and branch forward and inside the table (R210). -/
def ProgramLegal (prog : List Line) : Prop :=
  prog.length ≤ 26 ∧ ∀ k (h : k < prog.length), ∀ t ∈ (prog[k]).targets, k < t ∧ t ≤ prog.length

theorem programLegal_of_no_targets {prog : List Line} (hl : prog.length ≤ 26) (h : ∀ l ∈ prog, l.targets = []) :
    ProgramLegal prog :=
  ⟨hl, fun k hk t ht => by simp [h _ (List.getElem_mem hk)] at ht⟩

theorem dcdcEntry_targets (c : Config) (r : Fin 3) (mv : Nat) : Line.targets { entry := dcdcEntry c r mv } = [] := rfl

theorem ldoEntry_targets (c : Config) (k : Fin 2) (mv : Nat) : Line.targets { entry := ldoEntry c k mv } = [] := by
  unfold ldoEntry
  split <;> rfl

theorem initProgram_legal (c : Config) (k : Nat) : ProgramLegal (initProgram c k) := by
  refine ⟨by simp [initProgram, initHead, initTaken, initNotTaken], ?_⟩
  intro n hn t ht
  have hlen : (initProgram c k).length = 26 := by simp [initProgram, initHead, initTaken, initNotTaken]
  rw [hlen] at hn ⊢
  have hl := ldoEntry_targets c
  interval_cases n <;> simp [initProgram, initHead, initTaken, initNotTaken] at ht <;> first
    | simp only [hl, List.not_mem_nil] at ht
    | (simp [Line.targets, dcdcEntry, chgEntry, patchEntry] at ht; omega)
    | simp [Line.targets, dcdcEntry, chgEntry, patchEntry] at ht

/-- The micro-program of every command is legal, and its end index is the one of R27. -/
theorem planOf_legal {i : Instr} {c : Config} {arg : Word} {d : DataBuf} {p : List Line × Finish}
    (h : planOf i c arg d = some p) :
    ProgramLegal p.1 ∧ p.1.length = (endIndex i).toNat := by
  have one : ∀ e : Entry, Line.targets { entry := e } = [] → ProgramLegal [{ entry := e }] := by
    intro e he
    exact programLegal_of_no_targets (by simp) (by simpa using he)
  have hq : ∀ q : Quantity, readPlan q c = some p → ProgramLegal p.1 ∧ p.1.length = (q.spans c).length := by
    intro q hp
    unfold readPlan at hp
    split at hp
    · injection hp with hp
      subst hp
      refine ⟨programLegal_of_no_targets (by cases q <;> simp [Quantity.spans]) ?_, by simp⟩
      intro l hl
      simp only [List.mem_map] at hl
      obtain ⟨x, -, rfl⟩ := hl
      rfl
    · cases hp
  cases i with
  | rdreg a len =>
    simp only [planOf] at h
    split at h <;> cases h
    exact ⟨one _ rfl, rfl⟩
  | wrreg a len =>
    simp only [planOf] at h
    split at h <;> cases h
    exact ⟨one _ rfl, rfl⟩
  | wrDcdc index =>
    simp only [planOf, Option.map_eq_some_iff] at h
    obtain ⟨r, -, rfl⟩ := h
    exact ⟨one _ rfl, rfl⟩
  | wrLdo index =>
    simp only [planOf, Option.map_eq_some_iff] at h
    obtain ⟨r, -, rfl⟩ := h
    exact ⟨one _ (ldoEntry_targets _ _ _), rfl⟩
  | wrChgi =>
    simp only [planOf, Option.map_eq_some_iff] at h
    obtain ⟨r, -, rfl⟩ := h
    exact ⟨one _ rfl, rfl⟩
  | wrBright =>
    simp only [planOf, Option.map_eq_some_iff] at h
    obtain ⟨r, -, rfl⟩ := h
    exact ⟨one _ rfl, rfl⟩
  | init =>
    simp only [planOf, Option.map_eq_some_iff] at h
    obtain ⟨r, -, rfl⟩ := h
    exact ⟨initProgram_legal _ _, rfl⟩
  | sleepPrep =>
    cases h
    exact ⟨programLegal_of_no_targets (by simp [sleepPrepProgram]) (by simp [sleepPrepProgram, Line.targets]), rfl⟩
  | sleepRestore =>
    cases h
    exact ⟨programLegal_of_no_targets (by simp [sleepRestoreProgram]) (by simp [sleepRestoreProgram, Line.targets]), rfl⟩
  | buspwr m =>
    cases h
    exact ⟨programLegal_of_no_targets (by simp [buspwrProgram, bpmEntries])
      (by simp [buspwrProgram, bpmEntries, patchEntry, Line.targets]), rfl⟩
  | pwroff =>
    cases h
    exact ⟨one _ rfl, rfl⟩
  | rdbit a b =>
    cases h
    exact ⟨one _ rfl, rfl⟩
  | setbit a b v =>
    cases h
    exact ⟨one _ rfl, rfl⟩
  | rdfld a m b =>
    cases h
    exact ⟨one _ rfl, rfl⟩
  | wrfld a m b =>
    cases h
    exact ⟨one _ rfl, rfl⟩
  | rdBatv => exact hq .batV h
  | rdBati => exact hq .batI h
  | rdBatichg => exact hq .batIchg h
  | rdBatp => exact hq .batP h
  | rdVinv => exact hq .vinV h
  | rdVini => exact hq .vinI h
  | rdVbusv => exact hq .vbusV h
  | rdVbusi => exact hq .vbusI h
  | rdApsv => exact hq .apsV h
  | rdTemp => exact hq .temp h
  | rdCcin => exact hq .ccIn h
  | rdCcout => exact hq .ccOut h
  | rdBatpct => exact hq .batPct h
  | _ => cases h; exact ⟨programLegal_of_no_targets (by simp) (by simp), rfl⟩

end Sys2Proof.Machine
end

