-- ==== Sys2Proof/Laws/Track.lean ====
section
/-! SUPPORT. The micro-program in progress and the trace: what a round of the engine adds, said once, and that the engine stops only
where its trace and `SEQ_PC` say how far the program has come (`State.Tracks`). -/

namespace Sys2Proof.Machine

/-- The engine is about to run the entry at `SEQ_PC`, or to go on with it after its read half (R27, R28, R210). -/
structure InEntry (prog : List Line) (r : Running) (s : State) : Prop where
  same : r.prog = prog
  err : s.status.err = .ok
  track : ∃ done part, s.trace = done ++ part ∧ ProgramRan prog s.seqPc.toNat done
    ∧ (∀ l, prog[s.seqPc.toNat]? = some l → l.entry.Begun r.half s.tmp part)
    ∧ (prog[s.seqPc.toNat]? = none → r.half = false ∧ part = [])

/-- An entry that has not begun has no events. -/
theorem Entry.begun_nil (e : Entry) (tmp : Byte) : e.Begun false tmp [] := by cases e <;> simp [Entry.Begun]

theorem Entry.begun_false {e : Entry} {tmp : Byte} {es : List Event} (h : e.Begun false tmp es) : es = [] := by
  cases e <;> simp_all [Entry.Begun]

/-- The byte `SB` writes is the one of its keep and or masks (R131, R210). -/
theorem rmwByte_sb (b : Byte) (bit : Nat) (v : Bool) : rmwByte (sbKeep bit v) (sbOr bit v) b = withBit b bit v := by
  have h : bitMask bit = BitVec.twoPow 8 bit := by
    rw [BitVec.twoPow_eq]
    rfl
  cases v
  · simp only [rmwByte, sbKeep, sbOr, withBit, h, Bool.false_eq_true, if_false, BitVec.or_zero]
  · have h2 : b &&& 0xFF#8 = b := BitVec.and_allOnes (x := b)
    simp only [rmwByte, sbKeep, sbOr, withBit, h, if_true, h2]

theorem bitSet_eq_getLsbD (b : Byte) (bit : Nat) : bitSet b bit = b.getLsbD bit := by
  have h : ((b >>> bit) &&& 1#8) = BitVec.setWidth 8 (BitVec.ofBool (b.getLsbD bit)) := by
    apply BitVec.eq_of_getLsbD_eq
    intro i hi
    cases i with
    | zero => simp
    | succ i => simp
  rw [bitSet, h]
  cases b.getLsbD bit <;> decide

/-- What a round makes of an entry that was begun, in the terms of the trace. -/
def EntryResult.Tracked (prog : List Line) (l : Line) (s : State) : EntryResult → Prop
  | .done r' s' => r'.prog = prog ∧ r'.half = false ∧ s'.status.err = .ok ∧ ∃ done es,
      s'.trace = done ++ es ∧ ProgramRan prog s.seqPc.toNat done
        ∧ ∃ k, l.entry.Ran (l.jmp.getD (s.seqPc.toNat + 1)) es k ∧ s'.seqPc = BitVec.ofNat 8 k
  | .raised s' => s'.run = none ∧ s'.status.err = .busError ∧ s'.seqPc = s.seqPc ∧ ∃ done es,
      s'.trace = done ++ es ∧ ProgramRan prog s.seqPc.toNat done ∧ l.entry.Failed s'.status.failw es
  | .waiting r' s' => InEntry prog r' s' ∧ s'.seqPc = s.seqPc

theorem State.advance_seqPc_ofNat (s : State) (j : Option Nat) :
    (s.advance j).seqPc = BitVec.ofNat 8 (j.getD (s.seqPc.toNat + 1)) := by
  cases j with
  | none =>
    apply BitVec.eq_of_toNat_eq
    simp [State.advance, BitVec.toNat_add]
  | some t => rfl

/-- The entry is the read-modify-write of `a` with these masks (R17, R210). -/
structure Entry.Patches (e : Entry) (a keep orBits : Byte) : Prop where
  ran : ∀ next b, e.Ran next [.rd a 1 [b], .wr a [rmwByte keep orBits b]] next
  readFailed : e.Failed false [.rdFail a 1]
  writeFailed : ∀ b, e.Failed true [.rd a 1 [b], .wrFail a [rmwByte keep orBits b]]
  begun : ∀ half tmp es, e.Begun half tmp es ↔ es = if half then [.rd a 1 [tmp]] else []

theorem Entry.patches_rmw (a keep orBits : Byte) : (Entry.rmw a keep orBits).Patches a keep orBits where
  ran _ b := ⟨rfl, b, rfl⟩
  readFailed := .inl ⟨rfl, rfl⟩
  writeFailed b := .inr ⟨rfl, b, rfl⟩
  begun _ _ _ := .rfl

theorem Entry.patches_sb (a : Byte) (bit : Nat) (v : Bool) : (Entry.sb a bit v).Patches a (sbKeep bit v) (sbOr bit v) where
  ran _ b := ⟨rfl, b, by rw [rmwByte_sb]⟩
  readFailed := .inl ⟨rfl, rfl⟩
  writeFailed b := .inr ⟨rfl, b, by rw [rmwByte_sb]⟩
  begun _ _ _ := .rfl

/-- The write half of a read-modify-write, its read being the last event (R17). -/
theorem rmwWrite_tracked {prog : List Line} {l : Line} {r : Running} {s s0 : State} {a keep orBits : Byte}
    (hl : prog[s0.seqPc.toNat]? = some l) (he : l.entry.Patches a keep orBits) (hp : r.prog = prog) (hh : r.half = true)
    (hs : s.seqPc = s0.seqPc) (herr : s.status.err = .ok) {done : List Event}
    (ht : s.trace = done ++ [.rd a 1 [s.tmp]]) (hd : ProgramRan prog s0.seqPc.toNat done) :
    (rmwWrite a keep orBits l.jmp r s).Tracked prog l s0 := by
  rcases s.bus_cases with hb | ⟨hd', hr⟩ | ⟨l', hd', hr⟩
  · rw [rmwWrite_waiting _ _ _ _ _ _ hb]
    refine ⟨⟨hp, herr, done, _, ht, hs ▸ hd, ?_, ?_⟩, hs⟩
    · intro l2 hl2
      rw [hs, hl] at hl2
      cases hl2
      rw [he.begun, hh]
      rfl
    · intro hn
      rw [hs, hl] at hn
      cases hn
  · rw [rmwWrite_ack _ _ _ _ _ _ hd' hr]
    refine ⟨hp, rfl, by simpa [Status.afterWrite] using herr, done, _, ?_, hd, _, he.ran _ s.tmp, ?_⟩
    · simp [ht]
    · rw [State.advance_seqPc_ofNat]
      simp [hs]
  · rw [rmwWrite_nack _ _ _ _ _ _ hd' hr]
    refine ⟨rfl, rfl, hs, done, _, ?_, hd, he.writeFailed s.tmp⟩
    simp [ht]

theorem rmwEntry_tracked {prog : List Line} {l : Line} {r : Running} {s : State} {a keep orBits : Byte}
    (h : InEntry prog r s) (hl : prog[s.seqPc.toNat]? = some l) (he : l.entry.Patches a keep orBits) :
    (rmwEntry a keep orBits l.jmp r s).Tracked prog l s := by
  obtain ⟨done, part, ht, hd, hb, -⟩ := h.track
  have hb := (he.begun _ _ _).mp (hb l hl)
  by_cases hh : r.half = true
  · simp only [rmwEntry, hh, if_true]
    exact rmwWrite_tracked hl he h.same hh rfl h.err (by rw [ht, hb, hh]; rfl) hd
  · simp only [Bool.not_eq_true] at hh
    have ht : s.trace = done := by simpa [hb, hh] using ht
    rcases s.bus_cases with hb | ⟨hd', hr⟩ | ⟨l', hd', hr⟩
    · simp only [rmwEntry, hh, State.memRead_waiting _ _ hb]
      exact ⟨h, rfl⟩
    · rw [rmwEntry_read _ _ _ _ _ _ hh hd' hr]
      exact rmwWrite_tracked (r := { r with half := true }) hl he h.same rfl rfl h.err (by simp [ht]) hd
    · simp only [rmwEntry, hh, State.memRead_nack _ _ hd' hr]
      exact ⟨rfl, rfl, rfl, done, _, by simp [ht], hd, he.readFailed⟩

/-- One round of the engine (R210): the entry at `SEQ_PC` completes, fails or waits, and the trace says so. -/
theorem runEntry_tracked {prog : List Line} {l : Line} {r : Running} {s : State} (h : InEntry prog r s)
    (hl : prog[s.seqPc.toNat]? = some l) : (runEntry l r s).Tracked prog l s := by
  obtain ⟨done, part, ht, hd, hb, -⟩ := h.track
  have hb := hb l hl
  unfold runEntry
  cases he : l.entry with
  | rd a n =>
    rw [he] at hb
    obtain ⟨hh, rfl⟩ := hb
    rw [List.append_nil] at ht
    rcases s.bus_cases with hb | ⟨hd', hr⟩ | ⟨l', hd', hr⟩
    · simp only [State.memRead_waiting _ _ hb]
      exact ⟨h, rfl⟩
    · simp only [State.memRead_ack _ _ hd' hr]
      refine ⟨h.same, hh, by simpa using h.err, done, _, by simp [ht]; rfl, hd, _, ?_, State.advance_seqPc_ofNat _ _⟩
      rw [he]
      exact ⟨rfl, _, by simp [Memory.span], rfl⟩
    · simp only [State.memRead_nack _ _ hd' hr]
      exact ⟨rfl, rfl, rfl, done, _, by simp [ht]; rfl, hd, by rw [he]; exact ⟨rfl, rfl⟩⟩
  | wr a bytes =>
    rw [he] at hb
    obtain ⟨hh, rfl⟩ := hb
    rw [List.append_nil] at ht
    rcases s.bus_cases with hb | ⟨hd', hr⟩ | ⟨l', hd', hr⟩
    · simp only [State.memWrite_waiting _ _ hb]
      exact ⟨h, rfl⟩
    · simp only [State.memWrite_ack _ _ hd' hr]
      refine ⟨h.same, hh, by simpa [Status.afterWrite] using h.err, done, _, by simp [ht]; rfl, hd, _, ?_,
        State.advance_seqPc_ofNat _ _⟩
      rw [he]
      exact ⟨rfl, rfl⟩
    · simp only [State.memWrite_nack _ _ hd' hr]
      exact ⟨rfl, rfl, rfl, done, _, by simp [ht]; rfl, hd, by rw [he]; exact ⟨rfl, rfl⟩⟩
  | rmw a keep orBits => exact rmwEntry_tracked h hl (he ▸ Entry.patches_rmw a keep orBits)
  | sb a bit v => exact rmwEntry_tracked h hl (he ▸ Entry.patches_sb a bit v)
  | slp ms =>
    rw [he] at hb
    obtain ⟨hh, rfl⟩ := hb
    rw [List.append_nil] at ht
    cases hb : s.timerReady with
    | false =>
      simp only [State.sleep_waiting _ hb]
      exact ⟨h, rfl⟩
    | true =>
      simp only [State.sleep_ready _ hb]
      refine ⟨h.same, hh, by simpa using h.err, done, _, by simp [ht]; rfl, hd, _, ?_, State.advance_seqPc_ofNat _ _⟩
      rw [he]
      exact ⟨rfl, rfl⟩
  | br a bit t1 t0 =>
    rw [he] at hb
    obtain ⟨hh, rfl⟩ := hb
    rw [List.append_nil] at ht
    rcases s.bus_cases with hb | ⟨hd', hr⟩ | ⟨l', hd', hr⟩
    · simp only [State.memRead_waiting _ _ hb]
      exact ⟨h, rfl⟩
    · simp only [State.memRead_ack _ _ hd' hr]
      refine ⟨h.same, hh, by simpa using h.err, done, _, by simp [ht]; rfl, hd, _, ?_, rfl⟩
      rw [he]
      exact ⟨_, by simp [Memory.span]; rfl, by rw [bitSet_eq_getLsbD]; rfl⟩
    · simp only [State.memRead_nack _ _ hd' hr]
      exact ⟨rfl, rfl, rfl, done, _, by simp [ht]; rfl, hd, by rw [he]; exact ⟨rfl, rfl⟩⟩

/-- An entry goes on at the next index, or where its branch or its jump sends it (R210). -/
theorem Line.ran_index {l : Line} {k k' : Nat} {es : List Event} (h : l.entry.Ran (l.jmp.getD (k + 1)) es k') :
    k' = k + 1 ∨ k' ∈ l.targets := by
  have hj : l.jmp.getD (k + 1) = k + 1 ∨ l.jmp.getD (k + 1) ∈ l.targets := by
    cases hj : l.jmp with
    | none => exact .inl rfl
    | some t => exact .inr (by simp [Line.targets, hj])
  cases he : l.entry with
  | br a bit t1 t0 =>
    rw [he] at h
    obtain ⟨b, -, rfl⟩ := h
    right
    split <;> simp [Line.targets, he]
  | rd a n => rw [he] at h; exact h.1 ▸ hj
  | wr a bytes => rw [he] at h; exact h.1 ▸ hj
  | rmw a keep orBits => rw [he] at h; exact h.1 ▸ hj
  | sb a bit v => rw [he] at h; exact h.1 ▸ hj
  | slp ms => rw [he] at h; exact h.1 ▸ hj

/-- An entry of a legal micro-program goes on further down the table, and inside it. -/
theorem ProgramLegal.forward {prog : List Line} (hp : ProgramLegal prog) {k k' : Nat} {l : Line} {es : List Event}
    (hl : prog[k]? = some l) (h : l.entry.Ran (l.jmp.getD (k + 1)) es k') : k < k' ∧ k' ≤ prog.length := by
  obtain ⟨hk, rfl⟩ := List.getElem?_eq_some_iff.mp hl
  rcases Line.ran_index h with rfl | ht
  · omega
  · exact hp.2 k hk _ ht

/-- The engine stops only where the trace and `SEQ_PC` say how far the program has come. -/
theorem drive_tracks {prog : List Line} (hp : ProgramLegal prog) {n : Nat} {r : Running} {s : State} (h : InEntry prog r s)
    (hk : s.seqPc.toNat ≤ prog.length) (hn : prog.length < n + s.seqPc.toNat) :
    (drive n r s).Tracks prog ∧ ∀ r', (drive n r s).run = some r' → r'.prog = prog ∧ r'.fin = r.fin := by
  induction n generalizing r s with
  | zero => omega
  | succ n ih =>
    obtain ⟨done, part, ht, hd, hb, hz⟩ := h.track
    cases hl : prog[s.seqPc.toNat]? with
    | none =>
      obtain ⟨hh, rfl⟩ := hz hl
      rw [drive_end (h.same ▸ hl)]
      refine ⟨⟨done, [], by simpa using ht, by simpa using hd, ?_⟩, by simp⟩
      rw [State.complete_run]
      refine .inl ⟨?_, ?_, rfl⟩
      · cases r.fin <;> simp [State.complete, State.finish, State.setRes, Status.completed, Status.withInited]
      · have := List.getElem?_eq_none_iff.mp hl
        simp
        omega
    | some l =>
      have htr := runEntry_tracked h hl
      have hl' : r.prog[s.seqPc.toNat]? = some l := h.same ▸ hl
      have hrun := runEntry_via l r s
      cases he : runEntry l r s with
      | done r' s' =>
        rw [drive_done hl' he]
        rw [he] at htr
        obtain ⟨h1, h2, h3, done', es, h4, h5, k, h6, h7⟩ := htr
        have hf := hp.forward hl h6
        have hlen := hp.1
        have hpc : s'.seqPc.toNat = k := by
          rw [h7, BitVec.toNat_ofNat, Nat.mod_eq_of_lt (by omega)]
        rw [he] at hrun
        rw [← hrun.2.1]
        refine ih ⟨h1, h3, done' ++ es, [], by simp [h4], hpc ▸ .entry h5 hl h6, ?_, fun _ => ⟨h2, rfl⟩⟩ (by omega) (by omega)
        intro l' _
        rw [h2]
        exact l'.entry.begun_nil _
      | raised s' =>
        rw [drive_raised hl' he]
        rw [he] at htr
        obtain ⟨h1, h2, h3, done', es, h4, h5, h6⟩ := htr
        refine ⟨⟨done', es, h4, h3 ▸ h5, ?_⟩, by simp [h1]⟩
        rw [h1]
        exact .inr ⟨h2, l, h3 ▸ hl, h6⟩
      | waiting r' s' =>
        rw [drive_waiting hl' he]
        rw [he] at htr
        rw [he] at hrun
        obtain ⟨⟨g1, g2, done', es, h4, h5, h6, h7⟩, hpc⟩ := htr
        refine ⟨⟨done', es, h4, h5, ?_⟩, ?_⟩
        · exact ⟨g2, l, hpc ▸ hl, h6 l (hpc ▸ hl)⟩
        · rintro r2 ⟨⟩
          exact ⟨g1, hrun.2.1⟩

/-- A command that waits is in its entry. -/
theorem State.Tracks.inEntry {prog : List Line} {r : Running} {s : State} (h : s.Tracks prog) (hr : s.run = some r)
    (hp : r.prog = prog) : InEntry prog r s ∧ s.seqPc.toNat ≤ prog.length := by
  obtain ⟨done, part, ht, hd, hm⟩ := h
  rw [hr] at hm
  obtain ⟨he, l, hl, hb⟩ := hm
  refine ⟨⟨hp, he, done, part, ht, hd, ?_, ?_⟩, ?_⟩
  · intro l' hl'
    rw [hl] at hl'
    cases hl'
    exact hb
  · intro hn
    rw [hl] at hn
    cases hn
  · exact (List.getElem?_eq_some_iff.mp hl).1.le

/-- A micro-program from its entry 0. -/
theorem runCommand_tracks {prog : List Line} (hp : ProgramLegal prog) (fin : Finish) (s : State) :
    (runCommand prog fin s).Tracks prog
      ∧ ∀ r, (runCommand prog fin s).run = some r → r.prog = prog ∧ r.fin = fin := by
  refine drive_tracks hp (r := ⟨prog, fin, [], false⟩) ⟨rfl, rfl, [], [], rfl, .start, ?_, fun _ => ⟨rfl, rfl⟩⟩
    (by simp) (by simp)
  exact fun l _ => l.entry.begun_nil _

/-- A micro-program that goes on after a wait. -/
theorem State.Tracks.resume {prog : List Line} (hp : ProgramLegal prog) {r : Running} {s : State} (h : s.Tracks prog)
    (hr : s.run = some r) (hq : r.prog = prog) :
    (drive (r.prog.length + 1) r s).Tracks prog
      ∧ ∀ r', (drive (r.prog.length + 1) r s).run = some r' → r'.prog = prog ∧ r'.fin = r.fin := by
  obtain ⟨h1, h2⟩ := h.inEntry hr hq
  exact drive_tracks hp h1 h2 (by rw [hq]; omega)

end Sys2Proof.Machine
end

