-- ==== Sys2Proof/Laws/Along.lean ====
section
/-! SUPPORT. A command that waits: what a step of the wait leaves alone, the states a command passes through, and what holds of all of
them. -/

namespace Sys2Proof.Machine

section
variable (s : State) (r : Running)

@[simp] theorem State.tick_cfg : (s.tick r).cfg = s.cfg := by unfold State.tick; split <;> rfl
@[simp] theorem State.tick_cmd : (s.tick r).cmd = s.cmd := by unfold State.tick; split <;> rfl
@[simp] theorem State.tick_arg : (s.tick r).arg = s.arg := by unfold State.tick; split <;> rfl
@[simp] theorem State.tick_dbuf : (s.tick r).dbuf = s.dbuf := by unfold State.tick; split <;> rfl
@[simp] theorem State.tick_res : (s.tick r).res = s.res := by unfold State.tick; split <;> rfl
@[simp] theorem State.tick_status : (s.tick r).status = s.status := by unfold State.tick; split <;> rfl
@[simp] theorem State.tick_seqPc : (s.tick r).seqPc = s.seqPc := by unfold State.tick; split <;> rfl
@[simp] theorem State.tick_tmp : (s.tick r).tmp = s.tmp := by unfold State.tick; split <;> rfl
@[simp] theorem State.tick_run : (s.tick r).run = s.run := by unfold State.tick; split <;> rfl
@[simp] theorem State.tick_trace : (s.tick r).trace = s.trace := by unfold State.tick; split <;> rfl
@[simp] theorem State.tick_history : (s.tick r).history = s.history := by unfold State.tick; split <;> rfl
@[simp] theorem State.tick_seen : (s.tick r).seen = s.seen := by unfold State.tick; split <;> rfl
@[simp] theorem State.tick_target : (s.tick r).target = s.target := by unfold State.tick; split <;> rfl
@[simp] theorem State.tick_inputs : (s.tick r).inputs = s.inputs := by unfold State.tick; split <;> rfl

end

/-- A step of a wait in which no reset comes: one step of the delay is over, and the host may have read (R32, R264). -/
theorem State.waitStep_waiting {s : State} {r : Running} (hn : r.ready s = false) (hc : s.cutOff r = false) :
    ∃ ins sn, s.waitStep r = { s.tick r with inputs := ins, seen := sn } ∧ ins <:+ s.inputs ∧ s.seen <+: sn
      ∧ (s.inputs = [] → ins = [] ∧ sn = s.seen) := by
  have hw : s.waitStep r = (s.tick r).busyInput := by simp [State.waitStep, hn]
  rw [hw]
  unfold State.busyInput
  have hi := s.tick_inputs r
  have stay : ∃ ins sn, s.tick r = { s.tick r with inputs := ins, seen := sn } ∧ ins <:+ s.inputs ∧ s.seen <+: sn
      ∧ (s.inputs = [] → ins = [] ∧ sn = s.seen) :=
    ⟨(s.tick r).inputs, (s.tick r).seen, rfl, by simp, by simp, by simp⟩
  split
  · rename_i rest h
    exact ⟨rest, _, rfl, by rw [← hi, h]; exact List.suffix_cons _ _, by simp, by rw [← hi, h]; simp⟩
  · rename_i rest h
    exact ⟨rest, _, rfl, by rw [← hi, h]; exact List.suffix_cons _ _, by simp, by rw [← hi, h]; simp⟩
  · rename_i l rest h
    rw [hi] at h
    simp [State.cutOff, hn, h] at hc
  all_goals exact stay

/-- A later step of a command: the rest of it if its collaborator answers, else a step of the wait. -/
theorem Along.step_cases {s u : State} {r : Running} (hr : s.run = some r) (hc : s.cutOff r = false) (hs : step s = .next u) :
    (r.ready s = true ∧ u = drive (r.prog.length + 1) r s)
      ∨ (r.ready s = false ∧ ∃ ins sn, u = { s.tick r with inputs := ins, seen := sn } ∧ ins <:+ s.inputs ∧ s.seen <+: sn
        ∧ (s.inputs = [] → ins = [] ∧ sn = s.seen)) := by
  simp only [step, hr, Host.Outcome.next.injEq] at hs
  subst hs
  cases h : r.ready s with
  | true => exact .inl ⟨rfl, by simp [State.waitStep, h]⟩
  | false => exact .inr ⟨rfl, State.waitStep_waiting h hc⟩

/-- What holds of the state in which `exec` answers (`hfirst`), and is kept by the rest of a command that waits (`hgo`) and by a step of
the wait (`hwait`), holds of every state the command passes through. -/
theorem Along.induct {i : Instr} {s : State} {P : State → Prop} (hfirst : ∀ t, exec i s = .next t → P t)
    (hgo : ∀ t r, P t → t.run = some r → r.ready t = true → P (drive (r.prog.length + 1) r t))
    (hwait : ∀ t r ins sn, P t → t.run = some r → r.ready t = false → ins <:+ t.inputs → t.seen <+: sn →
      P { t.tick r with inputs := ins, seen := sn })
    {t : State} (h : Along i s t) : P t := by
  induction h with
  | first h => exact hfirst _ h
  | later h hr hc hs ih =>
    rcases Along.step_cases hr hc hs with ⟨h1, rfl⟩ | ⟨h1, ins, sn, rfl, h2, h3, -⟩
    · exact hgo _ _ ih hr h1
    · exact hwait _ _ _ _ ih hr h1 h2 h3

/-- What the trace says does not depend on the answers to come, nor on the host. -/
theorem State.Tracks.of_tick {prog : List Line} {s : State} {r : Running} (h : s.Tracks prog) (ins : List Input)
    (sn : List (HostReg × BitVec 96)) : State.Tracks { s.tick r with inputs := ins, seen := sn } prog := by
  obtain ⟨done, part, ht, hd, hm⟩ := h
  exact ⟨done, part, by simpa using ht, by simpa using hd, by simpa using hm⟩

/-- Every command a state passes through is its micro-program, as far as it has come (R27, R210, R256). -/
theorem Along.tracks {i : Instr} {s t : State} (h : Along i s t) {p : List Line × Finish}
    (hp : planOf i s.cfg s.arg s.dbuf = some p) :
    t.Tracks p.1 ∧ ∀ r, t.run = some r → r.prog = p.1 ∧ r.fin = p.2 := by
  have hl := (planOf_legal hp).1
  refine Along.induct (P := fun t => t.Tracks p.1 ∧ ∀ r, t.run = some r → r.prog = p.1 ∧ r.fin = p.2) ?_ ?_ ?_ h
  · intro t ht
    rw [exec_eq_follow, hp] at ht
    cases ht
    exact runCommand_tracks hl _ s
  · intro t r ⟨h1, h2⟩ hr _
    obtain ⟨h3, h4⟩ := h1.resume hl hr (h2 r hr).1
    exact ⟨h3, fun r' hr' => (h2 r hr).2 ▸ h4 r' hr'⟩
  · intro t r ins sn ⟨h1, h2⟩ hr _ _ _
    exact ⟨h1.of_tick ins sn, fun r' hr' => h2 r' (by simpa using hr')⟩

/-- A rejected command passes through one state (R94, R251). -/
theorem Along.rejected {i : Instr} {s t : State} (h : Along i s t) (hp : planOf i s.cfg s.arg s.dbuf = none) :
    t = s.reject .invalidArgument := by
  refine Along.induct (P := fun t => t = s.reject .invalidArgument) ?_ ?_ ?_ h
  · intro t ht
    rw [exec_eq_follow, hp] at ht
    cases ht
    rfl
  · rintro t r rfl hr
    cases hr
  · rintro t r ins sn rfl hr
    cases hr

end Sys2Proof.Machine
end

