-- ==== Sys2Proof/Laws/Served.lean ====
section
/-! SUPPORT. The target and the trace: along every command the registers are what the events of the trace made of them
(`State.Served`), and the answers to come are those not yet used up. -/

namespace Sys2Proof.Machine

/-- Two answers that differ at most in when they come. -/
def Reply.Same (x y : Reply) : Prop := x.selfChanges = y.selfChanges ∧ x.result = y.result

/-- `t` follows from `s` by the events of its trace. -/
structure State.Follows (s t : State) : Prop where
  served : s.Served t.trace t.target
  answers : ∀ k, Reply.Same (t.replyAt k) (s.replyAt (transactions t.trace + k))

theorem transactions_snoc (es : List Event) (e : Event) :
    transactions (es ++ [e]) = transactions es + if e.isSleep then 0 else 1 := by
  cases e <;> simp [transactions, Event.isSleep]

theorem State.Follows.now {s t : State} (h : s.Follows t) :
    t.targetNow = Memory.selfChange t.target (s.replyAt (transactions t.trace)).selfChanges
      ∧ t.nextReply.result = (s.replyAt (transactions t.trace)).result := by
  obtain ⟨h1, h2⟩ := h.answers 0
  rw [State.targetNow, State.nextReply_eq_replyAt]
  exact ⟨by rw [h1]; rfl, h2⟩

/-- After a transaction the answers count from the next one. -/
theorem State.Follows.next {s t : State} (h : s.Follows t) {e : Event} (he : e.isSleep = false) (k : Nat) :
    Reply.Same (t.takeReply.replyAt k) (s.replyAt (transactions (t.trace ++ [e]) + k)) := by
  rw [State.takeReply_replyAt, transactions_snoc, he]
  have := h.answers (k + 1)
  rwa [Nat.add_comm k 1, ← Nat.add_assoc, Nat.add_comm 1 k] at this

/-- One move of the engine. -/
theorem State.Follows.move {fin : Finish} {s t u : State} (h : s.Follows t) (hm : EngineMove fin t u) : s.Follows u := by
  obtain ⟨hn, hr⟩ := h.now
  cases hm with
  | read a n hd ha => exact ⟨.read a n h.served (hr ▸ ha) hn, h.next rfl⟩
  | readFailed a n l hd ha => exact ⟨.readFail a n h.served (hr ▸ ha) hn, h.next rfl⟩
  | wrote a bytes hd ha => exact ⟨.write a bytes h.served (hr ▸ ha) hn, h.next rfl⟩
  | writeFailed a bytes l hd ha => exact ⟨.writeFail a bytes h.served (hr ▸ ha) hn, h.next rfl⟩
  | slept ms =>
    refine ⟨.sleep ms h.served, fun k => ?_⟩
    rw [State.log_trace, transactions_snoc]
    exact h.answers k
  | latched => exact ⟨h.served, h.answers⟩
  | moved => exact ⟨h.served, h.answers⟩
  | completed got =>
    refine ⟨by simpa using h.served, fun k => ?_⟩
    have := h.answers k
    simpa [State.replyAt] using this
  | blocked => exact ⟨h.served, h.answers⟩

theorem State.Follows.moves {fin : Finish} {s t u : State} (h : s.Follows t) (hm : EngineMoves fin t u) : s.Follows u := by
  induction hm with
  | refl => exact h
  | tail _ hm ih => exact ih.move hm

/-- A step of a wait uses up no answer and changes none but in when it comes. -/
theorem State.tick_replyAt (s : State) (r : Running) (k : Nat) : Reply.Same ((s.tick r).replyAt k) (s.replyAt k) := by
  unfold State.tick
  split
  · exact ⟨rfl, rfl⟩
  · cases h : s.replies with
    | nil => simp [State.replyAt, h, Reply.Same]
    | cons x rest => cases k <;> simp [State.replyAt, h, Reply.Same, Reply.tick]

/-- The target along a command is what the events of its trace made of it (R61, R62, R262). -/
theorem Along.follows {i : Instr} {s t : State} (h : Along i s t) : s.Follows t := by
  have h0 : s.Follows s.startCommand := ⟨.start, fun k => by simp [transactions, Reply.Same]⟩
  refine h.induct ?_ ?_ ?_
  · intro t ht
    rw [exec_eq_follow] at ht
    cases ht
    cases planOf i s.cfg s.arg s.dbuf with
    | none => exact ⟨h0.served, h0.answers⟩
    | some p => exact h0.moves (runCommand_moves p.1 p.2 s)
  · intro t r ht hr _
    exact ht.moves (drive_moves _ _ _)
  · intro t r ins sn ht _ _ _ _
    refine ⟨by simpa using ht.served, fun k => ?_⟩
    obtain ⟨h1, h2⟩ := ht.answers k
    obtain ⟨h3, h4⟩ := t.tick_replyAt r k
    rw [State.tick_trace]
    exact ⟨h3.trans h1, h4.trans h2⟩

end Sys2Proof.Machine
end

