-- ==== Sys2Proof/Laws/Lines.lean ====
section
/-! SUPPORT. Two tables of the same micro-program: an entry of the engine and the register operation its rule gives leave the same
events, so what holds of a program's trace in one form holds in the other. -/

namespace Sys2Proof.Machine

/-- The two entries complete, fail and wait with the same events. -/
structure Entry.Same (e f : Entry) : Prop where
  ran : ∀ {next es k}, e.Ran next es k → f.Ran next es k
  failed : ∀ {w es}, e.Failed w es → f.Failed w es
  begun : ∀ {half tmp es}, e.Begun half tmp es → f.Begun half tmp es

theorem Entry.Same.refl (e : Entry) : e.Same e := ⟨id, id, id⟩

/-- The two lines are the same entry with the same jump. -/
def Line.Same (l m : Line) : Prop := l.jmp = m.jmp ∧ l.entry.Same m.entry

/-- Two tables are line by line the same. -/
abbrev SameLines (p q : List Line) : Prop := List.Forall₂ Line.Same p q

theorem SameLines.getElem {p q : List Line} (h : SameLines p q) {k : Nat} {l : Line} (hl : p[k]? = some l) :
    ∃ m, q[k]? = some m ∧ l.Same m := by
  induction h generalizing k with
  | nil => simp at hl
  | cons h _ ih =>
    cases k with
    | zero =>
      simp only [List.getElem?_cons_zero, Option.some.injEq] at hl ⊢
      subst hl
      exact ⟨_, rfl, h⟩
    | succ k =>
      rw [List.getElem?_cons_succ] at hl ⊢
      exact ih hl

theorem ProgramRan.same {p q : List Line} (h : SameLines p q) {k : Nat} {es : List Event} (hr : ProgramRan p k es) :
    ProgramRan q k es := by
  induction hr with
  | start => exact .start
  | entry _ hl he ih =>
    obtain ⟨m, hm, hj, hs⟩ := h.getElem hl
    exact .entry ih hm (hj ▸ hs.ran he)

/-- What the trace says of a program it says of the same program in another form. -/
theorem State.Tracks.same {p q : List Line} (h : SameLines p q) {t : State} (ht : t.Tracks p) : t.Tracks q := by
  obtain ⟨done, part, h1, h2, h3⟩ := ht
  refine ⟨done, part, h1, h2.same h, ?_⟩
  cases hr : t.run with
  | some r =>
    rw [hr] at h3
    obtain ⟨h4, l, h5, h6⟩ := h3
    obtain ⟨m, hm, -, hs⟩ := h.getElem h5
    exact ⟨h4, m, hm, hs.begun h6⟩
  | none =>
    rw [hr] at h3
    rcases h3 with ⟨h4, h5, h6⟩ | ⟨h4, l, h5, h6⟩
    · exact .inl ⟨h4, h5.trans h.length_eq, h6⟩
    · obtain ⟨m, hm, -, hs⟩ := h.getElem h5
      exact .inr ⟨h4, m, hm, hs.failed h6⟩

/-- Two read-modify-writes of a register with the same byte for every byte are the same entry. -/
theorem Entry.same_rmw {a k o k' o' : Byte} (h : ∀ b : Byte, (b &&& k) ||| o = (b &&& k') ||| o') :
    (Entry.rmw a k o).Same (.rmw a k' o') := by
  constructor
  · rintro next es k ⟨rfl, b, rfl⟩
    exact ⟨rfl, b, by rw [h]⟩
  · rintro w es (⟨rfl, rfl⟩ | ⟨rfl, b, rfl⟩)
    · exact .inl ⟨rfl, rfl⟩
    · exact .inr ⟨rfl, b, by rw [h]⟩
  · exact id

/-- `SB` is its register operation (R131, R210). -/
theorem Entry.same_sb (a : Byte) (bit : Fin 8) (v : Bool) : (Entry.sb a bit v).Same (RegOp.setBit a bit v).entry := by
  have hb : ∀ b : Byte, withBit b bit v =
      (b &&& (if v then 0xFF#8 else ~~~BitVec.twoPow 8 bit)) ||| (if v then BitVec.twoPow 8 bit else 0#8) := by
    intro b
    have h : b &&& 0xFF#8 = b := BitVec.and_allOnes (x := b)
    cases v <;> simp [withBit, h]
  have he : (RegOp.setBit a bit v).entry
      = .rmw a (if v then 0xFF#8 else ~~~BitVec.twoPow 8 bit) (if v then BitVec.twoPow 8 bit else 0#8) := by
    cases v <;> rfl
  rw [he]
  constructor
  · rintro next es k ⟨rfl, b, rfl⟩
    exact ⟨rfl, b, by rw [hb]⟩
  · rintro w es (⟨rfl, rfl⟩ | ⟨rfl, b, rfl⟩)
    · exact .inl ⟨rfl, rfl⟩
    · exact .inr ⟨rfl, b, by rw [hb]⟩
  · exact id

/-- A DC-DC write is its register operation, with the scale of R7 (R190, R216). -/
theorem dcdcEntry_same {c : Config} (h : c.dcdcScale = true) (r : Fin 3) (mv : Nat) :
    (dcdcEntry c r mv).Same (dcdcOp c r mv).entry := by
  simp only [Config.dcdcScale, Bool.and_eq_true, decide_eq_true_eq] at h
  have he : encDcdc c mv (widthBits (atRail c.wDcdc r)) = (mv - 700) / 25 % 2 ^ widthBits (atRail c.wDcdc r) := by
    unfold encDcdc
    rw [h.1, h.2]
    split
    · rw [show mv - 700 = 0 by omega]
      simp
    · rfl
  have hk : ~~~BitVec.ofNat 8 (2 ^ widthBits (atRail c.wDcdc r) - 1)
      = BitVec.ofNat 8 (256 - 2 ^ widthBits (atRail c.wDcdc r)) := by
    cases atRail c.wDcdc r <;> decide
  simp only [dcdcEntry, dcdcOp, RegOp.entry, he, hk]
  exact .refl _

/-- An LDO write is its register operation (R192, R218). -/
theorem ldoEntry_same (c : Config) (k : Fin 2) (mv : Nat) : (ldoEntry c k mv).Same (ldoOp c k mv).entry := by
  unfold ldoEntry ldoOp
  split
  · refine Entry.same_rmw fun b => ?_
    congr 1
    apply BitVec.eq_of_toNat_eq
    simp [encLdo, Nat.shiftLeft_eq]
  · exact .refl _

/-- The micro-program of `INIT` is the table of R211. -/
theorem initProgram_same {c : Config} (h : c.dcdcScale = true) (k : Nat) : SameLines (initProgram c k) (initLines c k) := by
  have hs : ∀ a (b : Fin 8) v, (Entry.sb a b v).Same (RegOp.setBit a b v).entry := Entry.same_sb
  simp only [initProgram, initHead, initTaken, initNotTaken, initLines, linesOf, initOpsBeforeHold, bpmOps, initOpAfterHold,
    List.map_cons, List.map_nil, List.cons_append, List.nil_append, List.take, List.drop]
  repeat' first
    | exact .nil
    | refine .cons ⟨rfl, ?_⟩ ?_
    | exact hs _ _ _
    | exact dcdcEntry_same h _ _
    | exact ldoEntry_same c _ _
    | exact .refl _

end Sys2Proof.Machine
end

