-- ==== Sys2Proof/Laws/PerInstr.lean ====
section
/-! SUPPORT. The family `RoundTrip`: the decoder reads every command back from its own word (R95), one lemma per constructor. -/

namespace Sys2Proof

theorem fieldOp_wordN (op : Byte) : fieldOp (wordN op) = op := by
  apply BitVec.eq_of_getLsbD_eq
  intro i hi
  simp only [fieldOp, wordN, BitVec.getLsbD_extractLsb', BitVec.getLsbD_append]
  interval_cases i <;> simp

theorem zeroN_wordN (op : Byte) : zeroN (wordN op) = true := by
  rw [zeroN, beq_iff_eq]
  apply BitVec.eq_of_getLsbD_eq
  intro i hi
  simp only [wordN, BitVec.getLsbD_extractLsb', BitVec.getLsbD_append]
  interval_cases i <;> simp

theorem fieldOp_wordS (op addr : Byte) (len : BitVec 3) : fieldOp (wordS op addr len) = op := by
  apply BitVec.eq_of_getLsbD_eq
  intro i hi
  simp only [fieldOp, wordS, BitVec.getLsbD_extractLsb', BitVec.getLsbD_append]
  interval_cases i <;> simp

theorem fieldA_wordS (op addr : Byte) (len : BitVec 3) : fieldA (wordS op addr len) = addr := by
  apply BitVec.eq_of_getLsbD_eq
  intro i hi
  simp only [fieldA, wordS, BitVec.getLsbD_extractLsb', BitVec.getLsbD_append]
  interval_cases i <;> simp

theorem fieldLen_wordS (op addr : Byte) (len : BitVec 3) : fieldLen (wordS op addr len) = len := by
  apply BitVec.eq_of_getLsbD_eq
  intro i hi
  simp only [fieldLen, wordS, BitVec.getLsbD_extractLsb', BitVec.getLsbD_append]
  interval_cases i <;> simp

theorem zeroS_wordS (op addr : Byte) (len : BitVec 3) : zeroS (wordS op addr len) = true := by
  rw [zeroS, Bool.and_eq_true, beq_iff_eq, beq_iff_eq]
  constructor <;> apply BitVec.eq_of_getLsbD_eq <;> intro i hi <;>
    simp only [wordS, BitVec.getLsbD_extractLsb', BitVec.getLsbD_append] <;> interval_cases i <;> simp

theorem fieldOp_wordB (op addr : Byte) (bit : BitVec 3) (v : Bool) : fieldOp (wordB op addr bit v) = op := by
  apply BitVec.eq_of_getLsbD_eq
  intro i hi
  simp only [fieldOp, wordB, BitVec.getLsbD_extractLsb', BitVec.getLsbD_append]
  interval_cases i <;> simp

theorem fieldA_wordB (op addr : Byte) (bit : BitVec 3) (v : Bool) : fieldA (wordB op addr bit v) = addr := by
  apply BitVec.eq_of_getLsbD_eq
  intro i hi
  simp only [fieldA, wordB, BitVec.getLsbD_extractLsb', BitVec.getLsbD_append]
  interval_cases i <;> simp

theorem fieldLen_wordB (op addr : Byte) (bit : BitVec 3) (v : Bool) : fieldLen (wordB op addr bit v) = bit := by
  apply BitVec.eq_of_getLsbD_eq
  intro i hi
  simp only [fieldLen, wordB, BitVec.getLsbD_extractLsb', BitVec.getLsbD_append]
  interval_cases i <;> simp

theorem fieldBit0_wordB (op addr : Byte) (bit : BitVec 3) (v : Bool) : fieldBit0 (wordB op addr bit v) = v := by
  rw [fieldBit0, wordB, BitVec.getLsbD_append]
  cases v <;> rfl

theorem zeroB_wordB (op addr : Byte) (bit : BitVec 3) (v : Bool) : zeroB (wordB op addr bit v) = true := by
  rw [zeroB, Bool.and_eq_true, beq_iff_eq, beq_iff_eq]
  constructor <;> apply BitVec.eq_of_getLsbD_eq <;> intro i hi <;>
    simp only [wordB, BitVec.getLsbD_extractLsb', BitVec.getLsbD_append] <;> interval_cases i <;> simp

theorem fieldOp_wordF (op addr mask : Byte) (shift : BitVec 3) : fieldOp (wordF op addr mask shift) = op := by
  apply BitVec.eq_of_getLsbD_eq
  intro i hi
  simp only [fieldOp, wordF, BitVec.getLsbD_extractLsb', BitVec.getLsbD_append]
  interval_cases i <;> simp

theorem fieldA_wordF (op addr mask : Byte) (shift : BitVec 3) : fieldA (wordF op addr mask shift) = addr := by
  apply BitVec.eq_of_getLsbD_eq
  intro i hi
  simp only [fieldA, wordF, BitVec.getLsbD_extractLsb', BitVec.getLsbD_append]
  interval_cases i <;> simp

theorem fieldM_wordF (op addr mask : Byte) (shift : BitVec 3) : fieldM (wordF op addr mask shift) = mask := by
  apply BitVec.eq_of_getLsbD_eq
  intro i hi
  simp only [fieldM, wordF, BitVec.getLsbD_extractLsb', BitVec.getLsbD_append]
  interval_cases i <;> simp

theorem fieldShift_wordF (op addr mask : Byte) (shift : BitVec 3) : fieldShift (wordF op addr mask shift) = shift := by
  apply BitVec.eq_of_getLsbD_eq
  intro i hi
  simp only [fieldShift, wordF, BitVec.getLsbD_extractLsb', BitVec.getLsbD_append]
  interval_cases i <;> simp

theorem zeroF_wordF (op addr mask : Byte) (shift : BitVec 3) : zeroF (wordF op addr mask shift) = true := by
  rw [zeroF, beq_iff_eq]
  apply BitVec.eq_of_getLsbD_eq
  intro i hi
  simp only [wordF, BitVec.getLsbD_extractLsb', BitVec.getLsbD_append]
  interval_cases i <;> simp

theorem fieldOp_wordX (op index : Byte) : fieldOp (wordX op index) = op := by
  apply BitVec.eq_of_getLsbD_eq
  intro i hi
  simp only [fieldOp, wordX, BitVec.getLsbD_extractLsb', BitVec.getLsbD_append]
  interval_cases i <;> simp

theorem fieldA_wordX (op index : Byte) : fieldA (wordX op index) = index := by
  apply BitVec.eq_of_getLsbD_eq
  intro i hi
  simp only [fieldA, wordX, BitVec.getLsbD_extractLsb', BitVec.getLsbD_append]
  interval_cases i <;> simp

theorem zeroX_wordX (op index : Byte) : zeroX (wordX op index) = true := by
  rw [zeroX, beq_iff_eq]
  apply BitVec.eq_of_getLsbD_eq
  intro i hi
  simp only [wordX, BitVec.getLsbD_extractLsb', BitVec.getLsbD_append]
  interval_cases i <;> simp

namespace Laws.RoundTrip

/-- The word of the command decodes to the command. -/
def Statement : Instr → Prop := fun i => decode (encode i) = .ok i

theorem rdreg (addr : Byte) (len : BitVec 3) : Statement (.rdreg addr len) := by
  simp [Statement, encode, decode, fieldOp_wordS, fieldA_wordS, fieldLen_wordS, zeroS_wordS, ifZero]

theorem wrreg (addr : Byte) (len : BitVec 3) : Statement (.wrreg addr len) := by
  simp [Statement, encode, decode, fieldOp_wordS, fieldA_wordS, fieldLen_wordS, zeroS_wordS, ifZero]

theorem rdbit (addr : Byte) (bit : BitVec 3) : Statement (.rdbit addr bit) := by
  simp [Statement, encode, decode, fieldOp_wordS, fieldA_wordS, fieldLen_wordS, zeroS_wordS, ifZero]

theorem setbit (addr : Byte) (bit : BitVec 3) (v : Bool) : Statement (.setbit addr bit v) := by
  simp [Statement, encode, decode, fieldOp_wordB, fieldA_wordB, fieldLen_wordB, fieldBit0_wordB, zeroB_wordB, ifZero]

theorem rdfld (addr mask : Byte) (shift : BitVec 3) : Statement (.rdfld addr mask shift) := by
  simp [Statement, encode, decode, fieldOp_wordF, fieldA_wordF, fieldM_wordF, fieldShift_wordF, zeroF_wordF, ifZero]

theorem wrfld (addr mask : Byte) (shift : BitVec 3) : Statement (.wrfld addr mask shift) := by
  simp [Statement, encode, decode, fieldOp_wordF, fieldA_wordF, fieldM_wordF, fieldShift_wordF, zeroF_wordF, ifZero]

theorem dec8 : Statement .dec8 := rfl

theorem dec12 : Statement .dec12 := rfl

theorem dec13 : Statement .dec13 := rfl

theorem dec16 : Statement .dec16 := rfl

theorem dec24 : Statement .dec24 := rfl

theorem dec32 : Statement .dec32 := rfl

theorem rdBatv : Statement .rdBatv := rfl

theorem rdBati : Statement .rdBati := rfl

theorem rdBatichg : Statement .rdBatichg := rfl

theorem rdBatp : Statement .rdBatp := rfl

theorem rdVinv : Statement .rdVinv := rfl

theorem rdVini : Statement .rdVini := rfl

theorem rdVbusv : Statement .rdVbusv := rfl

theorem rdVbusi : Statement .rdVbusi := rfl

theorem rdApsv : Statement .rdApsv := rfl

theorem rdTemp : Statement .rdTemp := rfl

theorem rdCcin : Statement .rdCcin := rfl

theorem rdCcout : Statement .rdCcout := rfl

theorem rdBatpct : Statement .rdBatpct := rfl

theorem cvtPct : Statement .cvtPct := rfl

theorem wrDcdc (index : Byte) : Statement (.wrDcdc index) := by
  simp [Statement, encode, decode, fieldOp_wordX, fieldA_wordX, zeroX_wordX, ifZero]

theorem wrLdo (index : Byte) : Statement (.wrLdo index) := by
  simp [Statement, encode, decode, fieldOp_wordX, fieldA_wordX, zeroX_wordX, ifZero]

theorem wrChgi : Statement .wrChgi := rfl

theorem wrBright : Statement .wrBright := rfl

theorem init : Statement .init := rfl

theorem sleepPrep : Statement .sleepPrep := rfl

theorem sleepRestore : Statement .sleepRestore := rfl

theorem buspwr (mode : BusMode) : Statement (.buspwr mode) := by
  cases mode <;> rfl

theorem pwroff : Statement .pwroff := rfl

end Laws.RoundTrip

end Sys2Proof
end

