-- ==== Sys2Proof/Laws/Prompt.lean ====
section
/-! SUPPORT. How late an answer comes makes no difference to what a command does: the engine that goes on after a wait does what it
would have done had the answer come at once. -/

namespace Sys2Proof.Machine

section
variable (s : State)

@[simp] theorem State.prompt_cfg : s.prompt.cfg = s.cfg := rfl
@[simp] theorem State.prompt_arg : s.prompt.arg = s.arg := rfl
@[simp] theorem State.prompt_dbuf : s.prompt.dbuf = s.dbuf := rfl
@[simp] theorem State.prompt_seqPc : s.prompt.seqPc = s.seqPc := rfl
@[simp] theorem State.prompt_target : s.prompt.target = s.target := rfl

end

/-- The next answer of the bus side, at once. -/
theorem State.prompt_nextReply (s : State) : s.prompt.nextReply = { s.nextReply with delay := 0 } := by
  cases h : s.replies <;> simp [State.nextReply, State.prompt, h]

theorem State.prompt_nextTimer (s : State) : s.prompt.nextTimer = { s.nextTimer with delay := 0 } := by
  cases h : s.timer <;> simp [State.nextTimer, State.prompt, h]

theorem State.prompt_targetNow (s : State) : s.prompt.targetNow = s.targetNow := by
  rw [State.targetNow, State.prompt_nextReply]
  rfl

theorem State.prompt_takeReply (s : State) : s.prompt.takeReply = s.takeReply.prompt := by
  simp only [State.takeReply, State.prompt_targetNow]
  simp [State.prompt, List.map_tail]

/-- A step of a wait does not show in the state with every answer at once. -/
theorem State.tick_prompt (s : State) (r : Running) : (s.tick r).prompt = s.prompt := by
  unfold State.tick
  split
  · cases h : s.timer <;> simp [State.prompt, h, TimerReply.tick]
  · cases h : s.replies <;> simp [State.prompt, h, Reply.tick]

/-- The same result, with another command in progress in its state. -/
def EntryResult.withRun (x : Option Running) : EntryResult → EntryResult
  | .done r s => .done r { s with run := x }
  | .raised s => .raised s
  | .waiting r s => .waiting r { s with run := x }

/-- A collaborator's answer, its state changed. -/
def Served.map {α : Type} (f : State → State) : Served α → Served α
  | .answered x s => .answered x (f s)
  | .failed s => .failed (f s)
  | .waiting => .waiting

theorem State.memRead_withRun (s : State) (x : Option Running) (a : Byte) (n : Nat) :
    ({ s with run := x } : State).memRead a n = (s.memRead a n).map (fun t => { t with run := x }) := by
  rcases s.bus_cases with h | ⟨hd, hr⟩ | ⟨l, hd, hr⟩
  · rw [State.memRead_waiting a n h, State.memRead_waiting a n (by exact h)]
    rfl
  · rw [State.memRead_ack a n hd hr, State.memRead_ack a n (by exact hd) (by exact hr)]
    rfl
  · rw [State.memRead_nack a n hd hr, State.memRead_nack (l := l) a n (by exact hd) (by exact hr)]
    rfl

theorem State.memWrite_withRun (s : State) (x : Option Running) (a : Byte) (bytes : List Byte) :
    ({ s with run := x } : State).memWrite a bytes = (s.memWrite a bytes).map (fun t => { t with run := x }) := by
  rcases s.bus_cases with h | ⟨hd, hr⟩ | ⟨l, hd, hr⟩
  · rw [State.memWrite_waiting a bytes h, State.memWrite_waiting a bytes (by exact h)]
    rfl
  · rw [State.memWrite_ack a bytes hd hr, State.memWrite_ack a bytes (by exact hd) (by exact hr)]
    rfl
  · rw [State.memWrite_nack a bytes hd hr, State.memWrite_nack (l := l) a bytes (by exact hd) (by exact hr)]
    rfl

theorem State.sleep_withRun (s : State) (x : Option Running) (ms : Nat) :
    ({ s with run := x } : State).sleep ms = (s.sleep ms).map (fun t => { t with run := x }) := by
  change (if s.nextTimer.delay ≠ 0 ∨ s.nextTimer.returns = false then _ else _) = _
  unfold State.sleep
  split <;> rfl

theorem rmwWrite_withRun (a keep orBits : Byte) (j : Option Nat) (r : Running) (s : State) (x : Option Running) :
    rmwWrite a keep orBits j r { s with run := x } = (rmwWrite a keep orBits j r s).withRun x := by
  simp only [rmwWrite, State.memWrite_withRun]
  cases s.memWrite a [rmwByte keep orBits s.tmp] <;> cases j <;> rfl

theorem rmwEntry_withRun (a keep orBits : Byte) (j : Option Nat) (r : Running) (s : State) (x : Option Running) :
    rmwEntry a keep orBits j r { s with run := x } = (rmwEntry a keep orBits j r s).withRun x := by
  simp only [rmwEntry, State.memRead_withRun]
  split
  · exact rmwWrite_withRun a keep orBits j r s x
  · cases s.memRead a 1 with
    | answered bytes s1 => exact rmwWrite_withRun a keep orBits j _ { s1 with tmp := byteAt bytes 0 } x
    | failed s1 => rfl
    | waiting => rfl

/-- The engine does not look at the field that says which command is in progress. -/
theorem runEntry_withRun (l : Line) (r : Running) (s : State) (x : Option Running) :
    runEntry l r { s with run := x } = (runEntry l r s).withRun x := by
  unfold runEntry
  cases l.entry with
  | rd a n =>
    simp only [State.memRead_withRun]
    cases s.memRead a n <;> cases l.jmp <;> rfl
  | wr a bytes =>
    simp only [State.memWrite_withRun]
    cases s.memWrite a bytes <;> cases l.jmp <;> rfl
  | rmw a keep orBits => exact rmwEntry_withRun a keep orBits _ r s x
  | sb a bit v => exact rmwEntry_withRun a _ _ _ r s x
  | slp ms =>
    have hf : ∀ y, s.sleep ms ≠ .failed y := by
      unfold State.sleep
      split <;> simp
    simp only [State.sleep_withRun]
    cases h : s.sleep ms with
    | answered u s1 => cases l.jmp <;> rfl
    | failed s1 => exact absurd h (hf s1)
    | waiting => rfl
  | br a bit t1 t0 =>
    simp only [State.memRead_withRun]
    cases s.memRead a 1 <;> rfl

theorem drive_withRun (n : Nat) (r : Running) (s : State) (x : Option Running) : drive n r { s with run := x } = drive n r s := by
  induction n generalizing r s with
  | zero => rfl
  | succ n ih =>
    simp only [drive]
    cases hl : r.prog[s.seqPc.toNat]? with
    | none => cases r.fin <;> rfl
    | some l =>
      have h := runEntry_withRun l r s x
      dsimp only
      rw [h]
      cases runEntry l r s with
      | done r' s' => exact ih r' s'
      | raised s' => rfl
      | waiting r' s' => rfl

/-! ### Answers at once -/

/-- A transaction that is answered in this step is answered so when every answer comes at once. -/
theorem State.memRead_prompt {s : State} (a : Byte) (n : Nat) (h : s.memRead a n ≠ .waiting) :
    s.prompt.memRead a n = (s.memRead a n).map State.prompt := by
  rcases s.bus_cases with hb | ⟨hd, hr⟩ | ⟨l, hd, hr⟩
  · exact absurd (State.memRead_waiting a n hb) h
  · rw [State.memRead_ack a n hd hr, State.memRead_ack a n (by rw [s.prompt_nextReply]) (by rw [s.prompt_nextReply]; exact hr),
      s.prompt_targetNow, s.prompt_takeReply]
    rfl
  · rw [State.memRead_nack a n hd hr, State.memRead_nack (l := l) a n (by rw [s.prompt_nextReply])
      (by rw [s.prompt_nextReply]; exact hr), s.prompt_takeReply]
    rfl

theorem State.memWrite_prompt {s : State} (a : Byte) (bytes : List Byte) (h : s.memWrite a bytes ≠ .waiting) :
    s.prompt.memWrite a bytes = (s.memWrite a bytes).map State.prompt := by
  rcases s.bus_cases with hb | ⟨hd, hr⟩ | ⟨l, hd, hr⟩
  · exact absurd (State.memWrite_waiting a bytes hb) h
  · rw [State.memWrite_ack a bytes hd hr,
      State.memWrite_ack a bytes (by rw [s.prompt_nextReply]) (by rw [s.prompt_nextReply]; exact hr),
      s.prompt_targetNow, s.prompt_takeReply]
    rfl
  · rw [State.memWrite_nack a bytes hd hr, State.memWrite_nack (l := l) a bytes (by rw [s.prompt_nextReply])
      (by rw [s.prompt_nextReply]; exact hr), s.prompt_targetNow, s.prompt_takeReply]
    rfl

theorem State.sleep_prompt {s : State} (ms : Nat) (h : s.sleep ms ≠ .waiting) :
    s.prompt.sleep ms = (s.sleep ms).map State.prompt := by
  cases hb : s.timerReady with
  | false => exact absurd (State.sleep_waiting ms hb) h
  | true =>
    have hp : s.prompt.timerReady = true := by
      simp only [State.timerReady, Bool.and_eq_true] at hb
      simp [State.timerReady, s.prompt_nextTimer, hb.2]
    rw [State.sleep_ready ms hb, State.sleep_ready ms hp]
    simp [Served.map, State.prompt, State.log, List.map_tail]

/-- The result when every answer to come, and the one the entry waits for, comes at once; `go` runs the entry on from where it waits. -/
def EntryResult.prompt (go : Running → State → EntryResult) : EntryResult → EntryResult
  | .done r s => .done r s.prompt
  | .raised s => .raised s.prompt
  | .waiting r s => go r s.prompt

theorem rmwWrite_prompt (a keep orBits : Byte) (j : Option Nat) (r : Running) (s : State) :
    rmwWrite a keep orBits j r s.prompt = (rmwWrite a keep orBits j r s).prompt (rmwWrite a keep orBits j) := by
  by_cases h : s.memWrite a [rmwByte keep orBits s.tmp] = .waiting
  · conv_rhs => simp only [rmwWrite, h]
    rfl
  · have hp := State.memWrite_prompt a _ h
    have ht : s.prompt.tmp = s.tmp := rfl
    conv_lhs => simp only [rmwWrite, ht, hp]
    conv_rhs => simp only [rmwWrite]
    cases hm : s.memWrite a [rmwByte keep orBits s.tmp] with
    | answered u s1 => cases j <;> rfl
    | failed s1 => rfl
    | waiting => exact absurd hm h

/-- A write half that waits waits as it is. -/
theorem rmwWrite_waiting_eq {a keep orBits : Byte} {j : Option Nat} {r r' : Running} {s s' : State}
    (h : rmwWrite a keep orBits j r s = .waiting r' s') : r' = r ∧ s' = s := by
  unfold rmwWrite at h
  split at h <;> cases h
  exact ⟨rfl, rfl⟩

theorem rmwEntry_prompt (a keep orBits : Byte) (j : Option Nat) (r : Running) (s : State) :
    rmwEntry a keep orBits j r s.prompt = (rmwEntry a keep orBits j r s).prompt (rmwEntry a keep orBits j) := by
  have half : ∀ r s, r.half = true →
      (rmwWrite a keep orBits j r s).prompt (rmwWrite a keep orBits j)
        = (rmwWrite a keep orBits j r s).prompt (rmwEntry a keep orBits j) := by
    intro r s hh
    cases hw : rmwWrite a keep orBits j r s with
    | done r' s' => rfl
    | raised s' => rfl
    | waiting r' s' =>
      obtain ⟨rfl, rfl⟩ := rmwWrite_waiting_eq hw
      simp [EntryResult.prompt, rmwEntry, hh]
  by_cases hh : r.half = true
  · simp only [rmwEntry, hh, if_true]
    rw [rmwWrite_prompt, half r s hh]
  · simp only [Bool.not_eq_true] at hh
    by_cases h : s.memRead a 1 = .waiting
    · conv_rhs => simp only [rmwEntry, hh, h]
      rfl
    · have hp := State.memRead_prompt a 1 h
      conv_lhs => simp only [rmwEntry, hh, hp]
      conv_rhs => arg 2; simp only [rmwEntry, hh]
      cases hm : s.memRead a 1 with
      | answered bytes s1 =>
        have h1 := rmwWrite_prompt a keep orBits j { r with half := true } { s1 with tmp := byteAt bytes 0 }
        rw [half _ _ rfl] at h1
        exact h1
      | failed s1 => rfl
      | waiting => exact absurd hm h

/-- An entry whose answers come at once does what it does, and what it goes on to do when it has waited. -/
theorem runEntry_prompt (l : Line) (r : Running) (s : State) :
    runEntry l r s.prompt = (runEntry l r s).prompt (runEntry l) := by
  cases he : l.entry with
  | rd a n =>
    by_cases h : s.memRead a n = .waiting
    · conv_rhs => arg 2; simp only [runEntry, he, h]
      rfl
    · have hp := State.memRead_prompt a n h
      conv_lhs => simp only [runEntry, he, hp]
      conv_rhs => arg 2; simp only [runEntry, he]
      cases hm : s.memRead a n with
      | answered bytes s1 => cases l.jmp <;> rfl
      | failed s1 => rfl
      | waiting => exact absurd hm h
  | wr a bytes =>
    by_cases h : s.memWrite a bytes = .waiting
    · conv_rhs => arg 2; simp only [runEntry, he, h]
      rfl
    · have hp := State.memWrite_prompt a bytes h
      conv_lhs => simp only [runEntry, he, hp]
      conv_rhs => arg 2; simp only [runEntry, he]
      cases hm : s.memWrite a bytes with
      | answered u s1 => cases l.jmp <;> rfl
      | failed s1 => rfl
      | waiting => exact absurd hm h
  | rmw a keep orBits =>
    have hr : ∀ r s, runEntry l r s = rmwEntry a keep orBits l.jmp r s := fun r s => by simp only [runEntry, he]
    rw [hr, hr, rmwEntry_prompt, show runEntry l = rmwEntry a keep orBits l.jmp from funext fun r => funext (hr r)]
  | sb a bit v =>
    have hr : ∀ r s, runEntry l r s = rmwEntry a (sbKeep bit v) (sbOr bit v) l.jmp r s := fun r s => by simp only [runEntry, he]
    rw [hr, hr, rmwEntry_prompt,
      show runEntry l = rmwEntry a (sbKeep bit v) (sbOr bit v) l.jmp from funext fun r => funext (hr r)]
  | slp ms =>
    by_cases h : s.sleep ms = .waiting
    · conv_rhs => arg 2; simp only [runEntry, he, h]
      rfl
    · have hp := State.sleep_prompt ms h
      conv_lhs => simp only [runEntry, he, hp]
      conv_rhs => arg 2; simp only [runEntry, he]
      cases hm : s.sleep ms with
      | answered u s1 => cases l.jmp <;> rfl
      | failed s1 => rfl
      | waiting => exact absurd hm h
  | br a bit t1 t0 =>
    by_cases h : s.memRead a 1 = .waiting
    · conv_rhs => arg 2; simp only [runEntry, he, h]
      rfl
    · have hp := State.memRead_prompt a 1 h
      conv_lhs => simp only [runEntry, he, hp]
      conv_rhs => arg 2; simp only [runEntry, he]
      cases hm : s.memRead a 1 with
      | answered bytes s1 => rfl
      | failed s1 => rfl
      | waiting => exact absurd hm h

/-! ### The rounds -/

/-- What a round makes of `SEQ_PC`, and that the program stays the same one (R27, R210). -/
def EntryResult.Moves (l : Line) (r : Running) (s : State) : EntryResult → Prop
  | .done r' s' => r'.prog = r.prog ∧ (s'.seqPc = s.seqPc + 1 ∨ ∃ t ∈ l.targets, s'.seqPc = BitVec.ofNat 8 t)
  | .raised s' => s'.run = none
  | .waiting r' s' => r'.prog = r.prog ∧ s'.seqPc = s.seqPc

theorem State.advance_moves (l : Line) (s : State) :
    (s.advance l.jmp).seqPc = s.seqPc + 1 ∨ ∃ t ∈ l.targets, (s.advance l.jmp).seqPc = BitVec.ofNat 8 t := by
  cases hj : l.jmp with
  | none => exact .inl rfl
  | some t => exact .inr ⟨t, by simp [Line.targets, hj], rfl⟩

theorem rmwWrite_moves {a keep orBits : Byte} (l : Line) {r : Running} {s s0 : State} (h : s.seqPc = s0.seqPc) :
    (rmwWrite a keep orBits l.jmp r s).Moves l r s0 := by
  rcases s.bus_cases with hb | ⟨hd, hr⟩ | ⟨l', hd, hr⟩
  · rw [rmwWrite_waiting _ _ _ _ _ _ hb]
    exact ⟨rfl, h⟩
  · rw [rmwWrite_ack _ _ _ _ _ _ hd hr]
    exact ⟨rfl, h ▸ State.advance_moves l _⟩
  · rw [rmwWrite_nack _ _ _ _ _ _ hd hr]
    rfl

theorem rmwEntry_moves {a keep orBits : Byte} (l : Line) (r : Running) (s : State) :
    (rmwEntry a keep orBits l.jmp r s).Moves l r s := by
  by_cases hh : r.half = true
  · simp only [rmwEntry, hh, if_true]
    exact rmwWrite_moves l rfl
  · simp only [Bool.not_eq_true] at hh
    rcases s.bus_cases with hb | ⟨hd, hr⟩ | ⟨l', hd, hr⟩
    · simp only [rmwEntry, hh, State.memRead_waiting _ _ hb]
      exact ⟨rfl, rfl⟩
    · rw [rmwEntry_read _ _ _ _ _ _ hh hd hr]
      have h := rmwWrite_moves (a := a) (keep := keep) (orBits := orBits) l (r := { r with half := true })
        (s := s.latchRead a) (s0 := s) rfl
      revert h
      generalize rmwWrite _ _ _ _ _ _ = e
      cases e <;> exact id
    · simp only [rmwEntry, hh, State.memRead_nack _ _ hd hr]
      rfl

theorem runEntry_moves (l : Line) (r : Running) (s : State) : (runEntry l r s).Moves l r s := by
  unfold runEntry
  cases he : l.entry with
  | rd a n =>
    rcases s.bus_cases with hb | ⟨hd, hr⟩ | ⟨l', hd, hr⟩
    · simp only [State.memRead_waiting _ _ hb]
      exact ⟨rfl, rfl⟩
    · simp only [State.memRead_ack _ _ hd hr]
      exact ⟨rfl, State.advance_moves l _⟩
    · simp only [State.memRead_nack _ _ hd hr]
      rfl
  | wr a bytes =>
    rcases s.bus_cases with hb | ⟨hd, hr⟩ | ⟨l', hd, hr⟩
    · simp only [State.memWrite_waiting _ _ hb]
      exact ⟨rfl, rfl⟩
    · simp only [State.memWrite_ack _ _ hd hr]
      exact ⟨rfl, State.advance_moves l _⟩
    · simp only [State.memWrite_nack _ _ hd hr]
      rfl
  | rmw a keep orBits => exact rmwEntry_moves l r s
  | sb a bit v => exact rmwEntry_moves l r s
  | slp ms =>
    cases hb : s.timerReady with
    | false =>
      simp only [State.sleep_waiting _ hb]
      exact ⟨rfl, rfl⟩
    | true =>
      simp only [State.sleep_ready _ hb]
      exact ⟨rfl, State.advance_moves l _⟩
  | br a bit t1 t0 =>
    rcases s.bus_cases with hb | ⟨hd, hr⟩ | ⟨l', hd, hr⟩
    · simp only [State.memRead_waiting _ _ hb]
      exact ⟨rfl, rfl⟩
    · simp only [State.memRead_ack _ _ hd hr]
      refine ⟨rfl, .inr ⟨_, ?_, rfl⟩⟩
      split <;> simp [Line.targets, he]
    · simp only [State.memRead_nack _ _ hd hr]
      rfl

/-- A completed entry of a legal micro-program moves `SEQ_PC` down the table (R210). -/
theorem Running.legal.forward {r r' : Running} {s s' : State} {l : Line} (hl : r.legal s.seqPc)
    (h : r.prog[s.seqPc.toNat]? = some l) (he : runEntry l r s = .done r' s') :
    s.seqPc.toNat < s'.seqPc.toNat ∧ r'.prog = r.prog ∧ r'.legal s'.seqPc := by
  obtain ⟨h1, h2, h3⟩ := hl
  have hp := runEntry_moves l r s
  rw [he] at hp
  obtain ⟨hq, hp⟩ := hp
  obtain ⟨hlt, hget⟩ := List.getElem?_eq_some_iff.mp h
  have : s.seqPc.toNat < s'.seqPc.toNat ∧ s'.seqPc.toNat ≤ r.prog.length := by
    rcases hp with hp | ⟨t, ht, hp⟩
    · rw [hp, BitVec.toNat_add]
      simp
      omega
    · have := h3 _ hlt t (hget ▸ ht)
      rw [hp, BitVec.toNat_ofNat, Nat.mod_eq_of_lt (by omega)]
      exact this
  refine ⟨this.1, hq, ?_⟩
  unfold Running.legal
  rw [hq]
  exact ⟨h1, this.2, h3⟩

/-- One round for each entry ahead and one for the end index are enough; more make no difference (R210). -/
theorem drive_fuel {n m : Nat} {r : Running} {s : State} (hl : r.legal s.seqPc) (hn : r.prog.length < n + s.seqPc.toNat)
    (hm : r.prog.length < m + s.seqPc.toNat) : drive n r s = drive m r s := by
  induction n generalizing m r s with
  | zero =>
    have := hl.2.1
    omega
  | succ n ih =>
    cases m with
    | zero =>
      have := hl.2.1
      omega
    | succ m =>
      cases hp : r.prog[s.seqPc.toNat]? with
      | none => rw [drive_end hp, drive_end hp]
      | some l =>
        cases he : runEntry l r s with
        | done r' s' =>
          obtain ⟨h1, h2, h3⟩ := hl.forward hp he
          rw [drive_done hp he, drive_done hp he]
          exact ih (m := m) h3 (by rw [h2]; omega) (by rw [h2]; omega)
        | raised s' => rw [drive_raised hp he, drive_raised hp he]
        | waiting r' s' => rw [drive_waiting hp he, drive_waiting hp he]

/-- A state of a command, when every answer to come is at once: it is as it is, or its command goes on. -/
def State.settled (s : State) : State :=
  match s.run with
  | none => s.prompt
  | some r => drive (r.prog.length + 1) r s.prompt

/-- The engine ends, when every answer comes at once, where it ends after it has waited. -/
theorem drive_settled {n : Nat} {r : Running} {s : State} (hl : r.legal s.seqPc) (hn : r.prog.length < n + s.seqPc.toNat) :
    (drive n r s).settled = drive n r s.prompt := by
  induction n generalizing r s with
  | zero =>
    have := hl.2.1
    omega
  | succ n ih =>
    cases hp : r.prog[s.seqPc.toNat]? with
    | none =>
      rw [drive_end hp, drive_end (s := s.prompt) hp]
      cases r.fin <;> rfl
    | some l =>
      have hq := runEntry_prompt l r s
      have hv := runEntry_moves l r s
      cases he : runEntry l r s with
      | done r' s' =>
        rw [he] at hq
        obtain ⟨h1, h2, h3⟩ := hl.forward hp he
        rw [drive_done hp he, drive_done (s := s.prompt) hp hq]
        exact ih h3 (by rw [h2]; omega)
      | raised s' =>
        rw [he] at hq hv
        rw [drive_raised hp he, drive_raised (s := s.prompt) hp hq, State.settled, show s'.run = none from hv]
      | waiting r' s' =>
        rw [he] at hq hv
        obtain ⟨h1, h2⟩ := hv
        have hl' : r'.legal s'.seqPc := by
          unfold Running.legal
          rw [h1, h2]
          exact hl
        have hp' : r'.prog[s'.prompt.seqPc.toNat]? = some l := by
          rw [h1, State.prompt_seqPc, h2]
          exact hp
        have hgo : drive (n + 1) r s.prompt = drive (n + 1) r' s'.prompt := by
          simp only [drive, hp', show r.prog[s.prompt.seqPc.toNat]? = some l from hp, hq, EntryResult.prompt]
        rw [drive_waiting hp he, hgo]
        change drive (r'.prog.length + 1) r' { s'.prompt with run := some r' } = _
        rw [drive_withRun]
        exact drive_fuel hl' (by omega) (by rw [h1, State.prompt_seqPc, h2]; omega)

/-- Every state of a command settles, with nothing from the host, into the state in which the command answers when every answer comes at
once. -/
theorem Along.settled {i : Instr} {s t : State} (hi : s.inputs = []) (h : Along i s t) :
    exec i s.prompt = .next t.settled ∧ t.inputs = [] := by
  cases hp : planOf i s.cfg s.arg s.dbuf with
  | none =>
    have hr := h.rejected hp
    subst hr
    rw [exec_eq_follow]
    simp only [State.prompt_cfg, State.prompt_arg, State.prompt_dbuf, hp]
    exact ⟨rfl, hi⟩
  | some p =>
    have hl := (planOf_legal hp).1
    have legal : ∀ (t : State) (r : Running), t.Tracks p.1 → t.run = some r → r.prog = p.1 → r.legal t.seqPc := by
      intro t r ht hr hq
      have := (ht.inEntry hr hq).2
      unfold Running.legal
      rw [hq]
      exact ⟨hl.1, this, hl.2⟩
    induction h with
    | first h =>
      rw [exec_eq_follow] at h ⊢
      simp only [State.prompt_cfg, State.prompt_arg, State.prompt_dbuf, hp] at h ⊢
      cases h
      refine ⟨?_, (runCommand_moves p.1 p.2 s).keeps.2.2.2.1.trans hi⟩
      change _ = Host.Outcome.next (drive (p.1.length + 1) ⟨p.1, p.2, [], false⟩ s.startCommand).settled
      rw [drive_settled ⟨hl.1, by simp, hl.2⟩ (by simp)]
      rfl
    | later h hr hc hs ih =>
      obtain ⟨ih, hin⟩ := ih
      obtain ⟨ht, hq⟩ := h.tracks hp
      have hlt := legal _ _ ht hr (hq _ hr).1
      rw [ih]
      rcases Along.step_cases hr hc hs with ⟨-, rfl⟩ | ⟨-, ins, sn, rfl, -, -, h3⟩
      · refine ⟨?_, (drive_moves _ _ _).keeps.2.2.2.1.trans hin⟩
        rw [drive_settled hlt (by omega), State.settled, hr]
      · obtain ⟨rfl, rfl⟩ := h3 hin
        refine ⟨?_, rfl⟩
        rename_i u r
        rw [show ({ u.tick r with inputs := [], seen := u.seen } : State) = u.tick r by
          rw [← State.tick_seen u r, ← hin, ← State.tick_inputs u r]]
        simp only [State.settled, State.tick_run, State.tick_prompt]

end Sys2Proof.Machine
end

