-- ==== Sys2Proof/Tests/Slice0.lean ====
section
/-! SUPPORT. The model's own tests. Expected values are those of spec/95_test_vectors.md (the vector is named in each comment) or of
R99; the witnesses at the end show, for each statement with hypotheses, a state and operands that meet them. -/

namespace Sys2Proof.Tests

open Sys2Proof.Machine

/-! ## Well-formedness: the ill-formed term each check refuses (R122, R190, R192) -/

theorem test_wf_rdreg_len_zero : (Instr.rdreg 0x78 0).wellFormed = false := by decide
theorem test_wf_rdreg_len_five : (Instr.rdreg 0x78 5).wellFormed = false := by decide
theorem test_wf_rdreg_past_end : (Instr.rdreg 0xFF 2).wellFormed = false := by decide
theorem test_wf_wrreg_len_zero : (Instr.wrreg 0xB0 0).wellFormed = false := by decide
theorem test_wf_wrreg_past_end : (Instr.wrreg 0xFD 4).wellFormed = false := by decide
theorem test_wf_wrDcdc_index : (Instr.wrDcdc 3).wellFormed = false := by decide
theorem test_wf_wrLdo_index : (Instr.wrLdo 2).wellFormed = false := by decide
theorem test_wf_last_span : (Instr.rdreg 0xFC 4).wellFormed = true := by decide

/-! ## Decoding: for every command a word written out from the spec's encoding (R95, R99, part 2 of the vectors) -/

theorem test_decode_rdreg : decode 0x01FC0400#32 = .ok (.rdreg 0xFC 4) := by decide
theorem test_decode_wrreg : decode 0x02B00400#32 = .ok (.wrreg 0xB0 4) := by decide
theorem test_decode_rdbit : decode 0x10400700#32 = .ok (.rdbit 0x40 7) := by decide
theorem test_decode_setbit : decode 0x11120301#32 = .ok (.setbit 0x12 3 true) := by decide
theorem test_decode_clrbit : decode 0x11120000#32 = .ok (.setbit 0x12 0 false) := by decide
theorem test_decode_rdfld : decode 0x12283C02#32 = .ok (.rdfld 0x28 0x3C 2) := by decide
theorem test_decode_wrfld : decode 0x1328F007#32 = .ok (.wrfld 0x28 0xF0 7) := by decide
theorem test_decode_dec8 : decode 0x20000000#32 = .ok .dec8 := by decide
theorem test_decode_dec12 : decode 0x21000000#32 = .ok .dec12 := by decide
theorem test_decode_dec13 : decode 0x22000000#32 = .ok .dec13 := by decide
theorem test_decode_dec16 : decode 0x23000000#32 = .ok .dec16 := by decide
theorem test_decode_dec24 : decode 0x24000000#32 = .ok .dec24 := by decide
theorem test_decode_dec32 : decode 0x25000000#32 = .ok .dec32 := by decide
theorem test_decode_rdBatv : decode 0x30000000#32 = .ok .rdBatv := by decide
theorem test_decode_rdBati : decode 0x31000000#32 = .ok .rdBati := by decide
theorem test_decode_rdBatichg : decode 0x32000000#32 = .ok .rdBatichg := by decide
theorem test_decode_rdBatp : decode 0x33000000#32 = .ok .rdBatp := by decide
theorem test_decode_rdVinv : decode 0x34000000#32 = .ok .rdVinv := by decide
theorem test_decode_rdVini : decode 0x35000000#32 = .ok .rdVini := by decide
theorem test_decode_rdVbusv : decode 0x36000000#32 = .ok .rdVbusv := by decide
theorem test_decode_rdVbusi : decode 0x37000000#32 = .ok .rdVbusi := by decide
theorem test_decode_rdApsv : decode 0x38000000#32 = .ok .rdApsv := by decide
theorem test_decode_rdTemp : decode 0x39000000#32 = .ok .rdTemp := by decide
theorem test_decode_rdCcin : decode 0x3A000000#32 = .ok .rdCcin := by decide
theorem test_decode_rdCcout : decode 0x3B000000#32 = .ok .rdCcout := by decide
theorem test_decode_rdBatpct : decode 0x3C000000#32 = .ok .rdBatpct := by decide
theorem test_decode_cvtPct : decode 0x3D000000#32 = .ok .cvtPct := by decide
theorem test_decode_wrDcdc : decode 0x40020000#32 = .ok (.wrDcdc 2) := by decide
theorem test_decode_wrLdo : decode 0x41010000#32 = .ok (.wrLdo 1) := by decide
theorem test_decode_wrChgi : decode 0x42000000#32 = .ok .wrChgi := by decide
theorem test_decode_wrBright : decode 0x43000000#32 = .ok .wrBright := by decide
theorem test_decode_init : decode 0x50000000#32 = .ok .init := by decide
theorem test_decode_sleepPrep : decode 0x51000000#32 = .ok .sleepPrep := by decide
theorem test_decode_sleepRestore : decode 0x52000000#32 = .ok .sleepRestore := by decide
theorem test_decode_buspwr_sink : decode 0x53000000#32 = .ok (.buspwr .sink) := by decide
theorem test_decode_buspwr_source : decode 0x53000001#32 = .ok (.buspwr .source) := by decide
theorem test_decode_pwroff : decode 0x54000000#32 = .ok .pwroff := by decide

/-- V120 to V132: the illegal words. -/
theorem test_decode_illegal :
    [0x00000000#32, 0x55000000#32, 0xFFFFFFFF#32].all (fun w => decode w == .error .unassignedOpcode)
      && [0x50000001#32, 0x30010000#32, 0x11400702#32, 0x10400701#32, 0x1228F008#32, 0x53000002#32, 0x01780800#32, 0x21000001#32,
          0x40000100#32, 0x01FF0800#32].all (fun w => decode w == .error .reservedBitSet) = true := by decide

/-- The host's question, with the bits the table gives a row. -/
theorem test_decodeTableWord : decodeTableWord 32 0x01000000 = some (.rdreg 0 0) ∧ decodeTableWord 32 0 = none := by decide

/-! ## One command at a time (spec/95_test_vectors.md) -/

/-- A fresh engine with `CFG_REF`, the target holding these bytes, `ARG` and `DBUF` set by the host. -/
def machine (target : Memory) (arg : Word := 0) (dbuf : DataBuf := ⟨0, 0, 0, 0⟩) (replies : List Reply := []) : State :=
  { State.reset with target := target, arg := arg, dbuf := dbuf, replies := replies }

/-- The bus side fails transaction `n`, counted from 0, with the old-value draw. -/
def failAt (n : Nat) : List Reply := List.replicate n ({} : Reply) ++ [{ result := .nack [] }]

/-- The command ends with this trace, this `STATUS` byte and this `SEQ_PC`, and the state passes the last check. -/
def ends (i : Instr) (s : State) (trace : List Event) (status : Byte) (pc : BitVec 8) (also : State → Bool := fun _ => true) : Bool :=
  match exec i s with
  | .next t => decide (t.trace = trace) && t.status.toByte == status && t.seqPc == pc && also t
  | .fault _ => false
  | .refused _ => false

/-- `RES` holds this integer. -/
def resIs (v : Int) (t : State) : Bool := t.res == BitVec.ofInt 96 v

/-- V2: bytes 1 to 3 of `DBUF` are kept -/
theorem test_rdreg : ends (.rdreg 0xFF 1) (machine [(0xFF, 0x04)] 0 ⟨1, 2, 3, 4⟩)
    [.rd 0xFF 1 [0x04]] 0x02 1 (fun t => decide (t.dbuf = ⟨4, 2, 3, 4⟩)) = true := by decide

/-- V4 -/
theorem test_rdreg_span_past_end : ends (.rdreg 0xFF 2) (machine [])
    [] 0x0A 0 = true := by decide

/-- V9 -/
theorem test_wrreg : ends (.wrreg 0xB0 4) (machine [] 0 ⟨0x12, 0x34, 0x56, 0x78⟩)
    [.wr 0xB0 [0x12, 0x34, 0x56, 0x78]] 0x12 1 (fun t => decide (t.target = [(0xB0, 0x12), (0xB1, 0x34), (0xB2, 0x56), (0xB3, 0x78)])) = true := by decide

/-- V10 -/
theorem test_wrreg_fails : ends (.wrreg 0x82 1) (machine [] 0 ⟨0xAA, 0, 0, 0⟩ (failAt 0))
    [.wrFail 0x82 [0xAA]] 0x46 0 = true := by decide

/-- V13 -/
theorem test_rdbit : ends (.rdbit 0x40 7) (machine [(0x40, 0x80)])
    [.rd 0x40 1 [0x80]] 0x02 1 (resIs 1) = true := by decide

/-- V14 -/
theorem test_rdbit_clear : ends (.rdbit 0x40 0) (machine [(0x40, 0x80)])
    [.rd 0x40 1 [0x80]] 0x02 1 (resIs 0) = true := by decide

/-- S6: bit 3 of 0b00000101 -/
theorem test_setbit : ends (.setbit 0x12 3 true) (machine [(0x12, 0x05)])
    [.rd 0x12 1 [0x05], .wr 0x12 [0x0D]] 0x12 1 = true := by decide

/-- V18 -/
theorem test_setbit_write_fails : ends (.setbit 0x40 4 false) (machine [(0x40, 0xFF)] 0 ⟨0, 0, 0, 0⟩ (failAt 1))
    [.rd 0x40 1 [0xFF], .wrFail 0x40 [0xEF]] 0x46 0 = true := by decide

/-- V20c -/
theorem test_rdfld : ends (.rdfld 0x28 0x3C 2) (machine [(0x28, 0x5A)])
    [.rd 0x28 1 [0x5A]] 0x02 1 (resIs 6) = true := by decide

/-- V20e -/
theorem test_rdfld_no_shift : ends (.rdfld 0x28 0xF0 0) (machine [(0x28, 0x5A)])
    [.rd 0x28 1 [0x5A]] 0x02 1 (resIs 80) = true := by decide

/-- V21e: `3 << 7` masked to the field -/
theorem test_wrfld_too_wide : ends (.wrfld 0x28 0xF0 7) (machine [(0x28, 0x5A)] 3)
    [.rd 0x28 1 [0x5A], .wr 0x28 [0x8A]] 0x12 1 = true := by decide

/-- V21b: `ARG[31:8]` is ignored -/
theorem test_wrfld_high_arg : ends (.wrfld 0x28 0x0C 2) (machine [(0x28, 0x5A)] 0xFFFFFF03)
    [.rd 0x28 1 [0x5A], .wr 0x28 [0x5E]] 0x12 1 = true := by decide

/-- V22 -/
theorem test_dec8 : ends .dec8 (machine [] 0 ⟨0xA5, 0, 0, 0⟩)
    [] 0x02 0 (resIs 165) = true := by decide

/-- V26, conflict C1 -/
theorem test_dec12_unmasked : ends .dec12 (machine [] 0 ⟨0x00, 0x1F, 0, 0⟩)
    [] 0x02 0 (resIs 31) = true := by decide

/-- V25 -/
theorem test_dec12_max : ends .dec12 (machine [] 0 ⟨0xFF, 0xFF, 0, 0⟩)
    [] 0x02 0 (resIs 4335) = true := by decide

/-- V29 -/
theorem test_dec13 : ends .dec13 (machine [] 0 ⟨0x12, 0x1F, 0, 0⟩)
    [] 0x02 0 (resIs 607) = true := by decide

/-- V31 -/
theorem test_dec13_max : ends .dec13 (machine [] 0 ⟨0xFF, 0xFF, 0, 0⟩)
    [] 0x02 0 (resIs 8415) = true := by decide

/-- V33 -/
theorem test_dec16 : ends .dec16 (machine [] 0 ⟨0x12, 0x34, 0, 0⟩)
    [] 0x02 0 (resIs 4660) = true := by decide

/-- V35 -/
theorem test_dec24 : ends .dec24 (machine [] 0 ⟨1, 2, 3, 0⟩)
    [] 0x02 0 (resIs 66051) = true := by decide

/-- V38: positive -/
theorem test_dec32_top_bit : ends .dec32 (machine [] 0 ⟨0x80, 0, 0, 0⟩)
    [] 0x02 0 (resIs 2147483648) = true := by decide

/-- V37 -/
theorem test_dec32 : ends .dec32 (machine [] 0 ⟨0, 0, 1, 0⟩)
    [] 0x02 0 (resIs 256) = true := by decide

/-- S2: 3.3 V -/
theorem test_rdBatv : ends .rdBatv (machine [(0x78, 0xBB), (0x79, 0x08)])
    [.rd 0x78 2 [0xBB, 0x08]] 0x02 1 (resIs 3300000) = true := by decide

/-- mid-range value of R165 -/
theorem test_rdBatichg : ends .rdBatichg (machine [(0x7A, 0x0C), (0x7B, 0x08)])
    [.rd 0x7A 2 [0x0C, 0x08]] 0x02 1 (resIs 100000) = true := by decide

/-- mid-range value of R166 -/
theorem test_rdBatp : ends .rdBatp (machine [(0x70, 0x00), (0x71, 0x27), (0x72, 0x10)])
    [.rd 0x70 3 [0x00, 0x27, 0x10]] 0x02 1 (resIs 5500000) = true := by decide

/-- mid-range value of R167 -/
theorem test_rdVinv : ends .rdVinv (machine [(0x56, 0xBB), (0x57, 0x08)])
    [.rd 0x56 2 [0xBB, 0x08]] 0x02 1 (resIs 5100000) = true := by decide

/-- mid-range value of R168 -/
theorem test_rdVini : ends .rdVini (machine [(0x58, 0x32), (0x59, 0x00)])
    [.rd 0x58 2 [0x32, 0x00]] 0x02 1 (resIs 500000) = true := by decide

/-- mid-range value of R169 -/
theorem test_rdVbusv : ends .rdVbusv (machine [(0x5A, 0xB7), (0x5B, 0x0D)])
    [.rd 0x5A 2 [0xB7, 0x0D]] 0x02 1 (resIs 4999700) = true := by decide

/-- mid-range value of R170 -/
theorem test_rdVbusi : ends .rdVbusi (machine [(0x5C, 0x3E), (0x5D, 0x08)])
    [.rd 0x5C 2 [0x3E, 0x08]] 0x02 1 (resIs 375000) = true := by decide

/-- mid-range value of R171 -/
theorem test_rdApsv : ends .rdApsv (machine [(0x7E, 0xBB), (0x7F, 0x08)])
    [.rd 0x7E 2 [0xBB, 0x08]] 0x02 1 (resIs 4200000) = true := by decide

/-- 25.3 °C, R172 -/
theorem test_rdTemp : ends .rdTemp (machine [(0x5E, 0x6A), (0x5F, 0x04)])
    [.rd 0x5E 2 [0x6A, 0x04]] 0x02 1 (resIs 253) = true := by decide

/-- V47, all 0x00 -/
theorem test_rdTemp_negative : ends .rdTemp (machine [(0x5E, 0x00), (0x5F, 0x00)])
    [.rd 0x5E 2 [0x00, 0x00]] 0x02 1 (resIs (-1447)) = true := by decide

/-- mid-range value of R173 -/
theorem test_rdCcin : ends .rdCcin (machine [(0xB0, 0x00), (0xB1, 0x00), (0xB2, 0x01), (0xB3, 0x00)])
    [.rd 0xB0 4 [0x00, 0x00, 0x01, 0x00]] 0x02 1 (resIs 932067555555555584) = true := by decide

/-- V48a -/
theorem test_rdCcin_max : ends .rdCcin (machine [(0xB0, 0xFF), (0xB1, 0xFF), (0xB2, 0xFF), (0xB3, 0xFF)])
    [.rd 0xB0 4 [0xFF, 0xFF, 0xFF, 0xFF]] 0x02 1 (resIs 15637498702506667143885255) = true := by decide

/-- mid-range value of R174 -/
theorem test_rdCcout : ends .rdCcout (machine [(0xB4, 0x00), (0xB5, 0x00), (0xB6, 0x03), (0xB7, 0xE8)])
    [.rd 0xB4 4 [0x00, 0x00, 0x03, 0xE8]] 0x02 1 (resIs 3640888888888889000) = true := by decide

/-- V61 -/
theorem test_rdBatpct : ends .rdBatpct (machine [(0x78, 0xB8), (0x79, 0x09)])
    [.rd 0x78 2 [0xB8, 0x09]] 0x02 1 (resIs 127588) = true := by decide

/-- V64 -/
theorem test_rdBatpct_clamped : ends .rdBatpct (machine [(0x78, 0xEA), (0x79, 0x03)])
    [.rd 0x78 2 [0xEA, 0x03]] 0x02 1 (resIs 1000000) = true := by decide

/-- V43d -/
theorem test_rdBati_negative : ends .rdBati (machine [(0x7A, 0x00), (0x7B, 0x14), (0x7C, 0x03), (0x7D, 0x04)])
    [.rd 0x7A 2 [0x00, 0x14], .rd 0x7C 2 [0x03, 0x04]] 0x02 2 (resIs (-40000)) = true := by decide

/-- V43e -/
theorem test_rdBati_second_fails : ends .rdBati (machine [(0x7A, 0x03), (0x7B, 0x04)] 0 ⟨0, 0, 0, 0⟩ (failAt 1))
    [.rd 0x7A 2 [0x03, 0x04], .rdFail 0x7C 2] 0x06 1 = true := by decide

/-- V53 -/
theorem test_cvtPct_threshold : ends .cvtPct (machine [] 3248088)
    [] 0x02 0 (resIs 127376) = true := by decide

/-- V52 -/
theorem test_cvtPct_below : ends .cvtPct (machine [] 3248087)
    [] 0x02 0 (resIs 0) = true := by decide

/-- V81 -/
theorem test_wrDcdc_siblings : ends (.wrDcdc 1) (machine [(0x23, 0xC0)] 2299)
    [.rd 0x23 1 [0xC0], .wr 0x23 [0xFF]] 0x12 1 = true := by decide

/-- V79 -/
theorem test_wrDcdc_wraps : ends (.wrDcdc 0) (machine [(0x26, 0x00)] 4294967295)
    [.rd 0x26 1 [0x00], .wr 0x26 [0x07]] 0x12 1 = true := by decide

/-- V103 -/
theorem test_wrLdo_high : ends (.wrLdo 0) (machine [(0x28, 0x0F)] 1900)
    [.rd 0x28 1 [0x0F], .wr 0x28 [0x1F]] 0x12 1 = true := by decide

/-- V107 -/
theorem test_wrLdo_clamped : ends (.wrLdo 1) (machine [(0x28, 0x50)] 5000)
    [.rd 0x28 1 [0x50], .wr 0x28 [0x5F]] 0x12 1 = true := by decide

/-- V111 -/
theorem test_wrChgi : ends .wrChgi (machine [(0x33, 0xC8)] 1160)
    [.rd 0x33 1 [0xC8], .wr 0x33 [0xCD]] 0x12 1 = true := by decide

/-- V112, S8 -/
theorem test_wrChgi_rejected : ends .wrChgi (machine [(0x33, 0xC8)] 500)
    [] 0x0A 0 = true := by decide

/-- V113 -/
theorem test_wrBright_clamped : ends .wrBright (machine [(0x28, 0xA7)] 4294967295)
    [.rd 0x28 1 [0xA7], .wr 0x28 [0xC7]] 0x12 1 = true := by decide

/-- V113, S5 -/
theorem test_wrBright_zero : ends .wrBright (machine [(0x28, 0xA7)] 0)
    [] 0x0A 0 = true := by decide

/-- The start target `T0` of section 2.6 of the vectors. -/
def t0 : Memory :=
  [(0x00, 0x08), (0x12, 0x41), (0x23, 0x16), (0x26, 0x80), (0x27, 0x00), (0x28, 0xCF), (0x30, 0x64),
    (0x32, 0x46), (0x33, 0xC8), (0x35, 0x5C), (0x82, 0x83), (0x92, 0x07), (0x93, 0x07), (0x94, 0x02),
    (0x96, 0x00), (0xE0, 0x5A), (0xE1, 0x05), (0xE2, 0x04), (0xE3, 0xA5)]

/-- V90: all 41 events of `INIT` on the externally powered path. -/
theorem test_init : ends .init (machine t0)
    [.rd 0x30 1 [0x64], .wr 0x30 [0x06], .rd 0x92 1 [0x07], .wr 0x92 [0x00],
     .rd 0x93 1 [0x07], .wr 0x93 [0x00], .rd 0x35 1 [0x5C], .wr 0x35 [0xBE],
     .rd 0x26 1 [0x80], .wr 0x26 [0xEA], .rd 0x27 1 [0x00], .wr 0x27 [0x54],
     .rd 0x28 1 [0xCF], .wr 0x28 [0xFF], .rd 0x28 1 [0xFF], .wr 0x28 [0xF2],
     .rd 0x12 1 [0x41], .wr 0x12 [0x45], .rd 0x12 1 [0x45], .wr 0x12 [0x47],
     .rd 0x94 1 [0x02], .wr 0x94 [0x00], .rd 0x33 1 [0xC8], .wr 0x33 [0xC0],
     .wr 0x82 [0xFF], .rd 0x96 1 [0x00], .wr 0x96 [0x00],
     .slp 100, .rd 0x96 1 [0x00], .wr 0x96 [0x02],
     .rd 0x00 1 [0x08], .rd 0x30 1 [0x06], .wr 0x30 [0x86],
     .rd 0xE2 1 [0x04], .wr 0xE2 [0x00], .rd 0xE1 1 [0x05], .wr 0xE1 [0x07],
     .rd 0xE0 1 [0x5A], .wr 0xE0 [0x5A], .rd 0xE3 1 [0xA5], .wr 0xE3 [0xA5]]
    0x32 26 = true := by decide

/-- V92, n = 28: the failure after the hold, in entry 15. -/
theorem test_init_fails_after_hold :
    (match exec .init (machine t0 0 ⟨0, 0, 0, 0⟩ (failAt 27)) with
      | .next t => t.trace.length == 29 && t.trace.getLast? == some (.rdFail 0x96 1) && t.status.toByte == 0x16 && t.seqPc == 15
      | .fault _ => false
      | .refused _ => false) = true := by decide

/-- V93 -/
theorem test_sleepPrep : ends .sleepPrep (machine [(0x12, 0x47), (0x82, 0xFF), (0x94, 0x00)])
    [.wr 0x82 [0x00], .rd 0x94 1 [0x00], .wr 0x94 [0x02],
     .rd 0x12 1 [0x47], .wr 0x12 [0x45]] 0x12 3 = true := by decide

/-- V95 -/
theorem test_sleepRestore : ends .sleepRestore (machine [(0x12, 0x45), (0x82, 0x00), (0x94, 0x02)])
    [.rd 0x12 1 [0x45], .wr 0x12 [0x47], .rd 0x94 1 [0x02],
     .wr 0x94 [0x00], .wr 0x82 [0xFF]] 0x12 3 = true := by decide

/-- V96 -/
theorem test_buspwr_source : ends (.buspwr .source) (machine [(0xE0, 0xFA), (0xE1, 0x02), (0xE2, 0x04), (0xE3, 0xA5)])
    [.rd 0xE2 1 [0x04], .wr 0xE2 [0x00], .rd 0xE1 1 [0x02], .wr 0xE1 [0x07],
     .rd 0xE0 1 [0xFA], .wr 0xE0 [0xFA], .rd 0xE3 1 [0xA5], .wr 0xE3 [0xA5]] 0x12 4 = true := by decide

/-- V98 -/
theorem test_buspwr_sink_fails : ends (.buspwr .sink) (machine t0 0 ⟨0, 0, 0, 0⟩ (failAt 3))
    [.rd 0xE0 1 [0x5A], .wr 0xE0 [0xFA], .rd 0xE1 1 [0x05], .wrFail 0xE1 [0x02]] 0x56 1 = true := by decide

/-- V99 -/
theorem test_pwroff : ends .pwroff (machine [(0x32, 0x46)])
    [.rd 0x32 1 [0x46], .wr 0x32 [0xC6]] 0x12 1 = true := by decide

/-- V120, V130 and V132 through the step: the word the host writes; the illegal word is found before the bad operand (R94). -/
theorem test_step_exceptions :
    [(0x00000000, 0x0E#8), (0x01780000, 0x0A#8), (0x01FF0800, 0x0E#8)].all (fun x =>
      match step (State.reset.withFetchWord 32 x.1) with
      | .next t => t.status.toByte == x.2 && t.seqPc == 0 && t.trace.isEmpty
      | .fault _ => false
      | .refused _ => false) = true := by decide

/-- The first step from reset runs the word that `withFetchWord` places. -/
theorem test_step_runs_word :
    (match step ({ machine [(0x12, 0x05)] with inputs := [] }.withFetchWord 32 0x11120301) with
      | .next t => decide (t.target = [(0x12, 0x0D)]) && t.cmd == 0x11120301
      | .fault _ => false
      | .refused _ => false) = true := by decide

/-- R281: a register nothing has written reads as the free value, whatever it is. -/
theorem test_unwritten_register : Memory.byte State.reset.target 0x40 = Config.powerOnByte 0x40 := rfl

/-- R62, R78: the canonical form takes writes in any order. -/
theorem test_memory_sorted : Memory.put (Memory.put [] 5 1) 3 2 = [(3, 2), (5, 1)] := by decide

/-! ## Witnesses: every statement with hypotheses has a state and operands that meet them -/

/-- The bus side fails the first transaction, and the second. -/
abbrev failing : State := machine [] 0 ⟨0, 0, 0, 0⟩ (failAt 0)
abbrev failingSecond : State := machine t0 0 ⟨0, 0, 0, 0⟩ (failAt 1)

/-- `RD_BATV` blocked by a bus that never answers. -/
abbrev hungOnBus : State :=
  { State.reset with
    cmd := 0x30000000
    status := State.reset.status.started
    run := some ⟨[{ entry := .rd 0x78 2 }], .quantity .batV, [], false⟩
    replies := [{ result := .never }] }

/-- A blind write blocked by a bus that never answers, the host's reset next. -/
abbrev hungOnWrite : State :=
  { State.reset with
    status := State.reset.status.started
    run := some ⟨[{ entry := .wr 0xFE [1, 2] }], .keep, [], false⟩
    replies := [{ result := .never }]
    inputs := [.reset [true, false]] }

/-- `INIT` blocked in its hold by a timer that never returns. -/
abbrev hungOnTimer : State :=
  { State.reset with
    status := State.reset.status.started
    seqPc := 14
    run := some ⟨initProgram Config.reference 0, .inited, [], false⟩
    timer := [{ returns := false }] }

/-- An idle engine whose host has this access next. -/
abbrev offering (x : Input) : State := { State.reset with inputs := [x] }

/-- The command has a next state that passes the check. -/
abbrev nextPasses (i : Instr) (s : State) (p : State → Bool) : Prop := ∃ t, exec i s = .next t ∧ p t = true

/-- Equality of states, as a check. -/
def sameState (x y : State) : Bool := decide (x = y)

/-- The same state after a successful `INIT`, as far as `STATUS` tells (R240). -/
abbrev afterInit (s : State) : State := { s with status := { s.status with inited := true } }

/-- The command passes through a state in which it has ended and that passes the check. -/
abbrev endsLate (i : Instr) (s : State) (p : State → Bool) : Prop := ∃ t, Along i s t ∧ t.run = none ∧ p t = true

/-- The step has a next state. -/
abbrev steps (s : State) : Prop := ∃ t, step s = .next t

theorem wit_EncodeOfDecode : decode 0x11120301#32 = .ok (.setbit 0x12 3 true) := by decide
theorem wit_StepRunsDecodedCommand :
    (offering (.cmd 0x30000000)).run = none ∧ (offering (.cmd 0x30000000)).inputs = .cmd 0x30000000 :: []
      ∧ decode 0x30000000#32 = .ok .rdBatv := by decide
theorem wit_IllegalWordRaisesIllegalCommand :
    (offering (.cmd 0x50000001)).run = none ∧ decode 0x50000001#32 = .error .reservedBitSet
      ∧ decode 0x00000000#32 = .error .unassignedOpcode := by decide

/-- The longest and the shortest span, at the last addresses; answered and failed. -/
theorem wit_RdregReadsSpan_WrregWritesSpan :
    (1 ≤ (1#3).toNat ∧ (1#3).toNat ≤ 4 ∧ (0xFF#8).toNat + (1#3).toNat ≤ 256)
      ∧ (1 ≤ (4#3).toNat ∧ (4#3).toNat ≤ 4 ∧ (0xFC#8).toNat + (4#3).toNat ≤ 256)
      ∧ State.reset.acks 1 ∧ (failing.replyAt 0).nacks [] := by decide
theorem wit_SpanOutOfDomainRejected_empty : (0#3).toNat < 1 := by decide
theorem wit_SpanOutOfDomainRejected_long : 4 < (5#3).toNat := by decide
theorem wit_SpanOutOfDomainRejected_past : 256 < (0xFF#8).toNat + (2#3).toNat := by decide

/-- The three cases of a read-modify-write, the two of a read, and the three of `RD_BATI`. -/
theorem wit_RunsRmw_ReadsIntoRes :
    State.reset.acks 2 ∧ (failing.replyAt 0).nacks [] ∧ failingSecond.acks 1 ∧ (failingSecond.replyAt 1).nacks [] := by decide

/-- Each of the seven commands, with the write of its read-modify-write in the trace. -/
theorem wit_SiblingBitsSurvive :
    writesLdo (.wrLdo 1) = true ∧ Config.reference.ldoFits = true
      ∧ [Instr.setbit 0x12 3 true, .wrfld 0x28 0xF0 4, .wrDcdc 2, .wrLdo 1, .wrChgi, .wrBright, .pwroff].all (fun i =>
        (targetedBits i (machine t0 100)).isSome
          && (match exec i (machine t0 100) with
            | .next t => t.trace.any Event.isWrite
            | .fault _ => false
            | .refused _ => false)) = true := by decide
theorem wit_TwelveBitConverters_WideConverters_RdBatiGivesNetCurrent :
    Config.reference.resultsFit = true ∧ Config.reference.aBatV.toNat + 2 ≤ 256 ∧ (0xFE#8).toNat + 2 ≤ 256
      ∧ Config.reference.aBatP.toNat + 3 ≤ 256 ∧ Config.reference.aCcIn.toNat + 4 ≤ 256 ∧ Config.reference.aCcOut.toNat + 4 ≤ 256
      ∧ Config.reference.aBatIIn.toNat + 2 ≤ 256 ∧ Config.reference.aBatIOut.toNat + 2 ≤ 256 := by decide
theorem wit_QuantityResultsInRange :
    readConverter .rdTemp = true ∧ Config.reference.resultsFit = true ∧ Config.reference.kCoulombNum = 3640888888888889
      ∧ ({ Config.reference with kCoulombNum := 1 } : Config).resultsFit = true ∧ nextPasses .rdTemp (machine [(0x5E, 0), (0x5F, 0)]) (resIs (-1447)) :=
  ⟨by decide, by decide, by decide, by decide, _, rfl, by decide⟩
theorem wit_WrDcdcWritesCode : Config.reference.dcdcScale = true ∧ (0#8).toNat = (0 : Fin 3).val ∧ (2#8).toNat = (2 : Fin 3).val := by
  decide
theorem wit_WrLdoWritesNibble : Config.reference.ldoFits = true ∧ (0#8).toNat = (0 : Fin 2).val ∧ (1#8).toNat = (1 : Fin 2).val := by
  decide
theorem wit_WrChgiWritesIndex :
    Config.reference.chgTable.Nodup ∧ Config.reference.chgTable[0]? = some (machine [] 100).arg.toNat
      ∧ Config.reference.chgTable[15]? = some (machine [] 1320).arg.toNat := by decide
theorem wit_WrBrightWritesNibble : Config.reference.brightScale = true ∧ (machine [] 1).arg.toNat ≠ 0 := by decide
theorem wit_RejectedRequestsWriteNothing :
    2 < (3#8).toNat ∧ 1 < (2#8).toNat ∧ (machine [] 500).arg.toNat ∉ Config.reference.chgTable ∧ State.reset.arg.toNat = 0 := by
  decide
theorem wit_ConfigOutsideContractRejected :
    quantityOf .rdBatv = some .batV
      ∧ (∃ x ∈ Quantity.spans { Config.reference with aBatV := 0xFF } .batV, 256 < x.1.toNat + x.2)
      ∧ ({ Config.reference with maChgDefault := 500 } : Config).maChgDefault ∉ Config.reference.chgTable := by decide

/-- One command that is outside its domain, and one that is inside. -/
theorem wit_InvalidArgumentExactlyOutOfDomain :
    (∀ q, quantityOf .rdTemp = some q → q.spansFit State.reset.cfg = true) ∧ State.reset.cfg.maChgDefault ∈ State.reset.cfg.chgTable
      ∧ OutOfDomain (.wrDcdc 3) State.reset ∧ ¬OutOfDomain (.wrDcdc 2) State.reset
      ∧ nextPasses (.wrDcdc 3) State.reset (fun t => t.status.err == .invalidArgument)
      ∧ nextPasses (.wrDcdc 2) (machine t0) (fun t => t.status.err == .ok) :=
  ⟨by simp only [quantityOf, Option.some.injEq, forall_eq']; decide, by decide, by simp [OutOfDomain], by simp [OutOfDomain],
    ⟨_, rfl, by decide⟩, _, rfl, by decide⟩
theorem wit_CodesInRangeAndWrap : Config.reference.dcdcScale = true ∧ Config.reference.ldoFits = true ∧ 700 ≤ 3899 ∧ 3899 < 700 + 25 * 2 ^ 7 := by decide

/-- The reference target, with no answer listed and with the reference answer listed: the premise of the
sleep commands' (after an `INIT`) and the power source's statements on the reference target. -/
theorem wit_onReference :
    (afterInit State.reset).status.inited = true ∧ (afterInit State.reset).onReference
      ∧ (afterInit { machine t0 with replies := [{}], timer := [{}] }).onReference := by decide
theorem wit_InitOnReference :
    Config.reference.meetsR7 = true ∧ (machine t0).onReference ∧ Config.reference.chgTable[0]? = some 100 := by decide

/-- An `INIT` that ends well, one that fails and one that waits: for the statements on the order of `INIT`,
its display reset, its event counts and `INITED`. -/
theorem wit_init_ends_well :
    nextPasses .init (machine t0) (fun t => t.run.isNone && t.status.err == .ok && t.status.inited && t.seqPc == 26) :=
  ⟨_, rfl, by decide⟩
theorem wit_init_fails : nextPasses .init (machine t0 0 ⟨0, 0, 0, 0⟩ (failAt 8)) (fun t =>
    t.run.isNone && t.status.err == .busError && !t.status.inited && t.seqPc == 4) := ⟨_, rfl, by decide⟩
theorem wit_init_waits : nextPasses .init { machine t0 with timer := [{ delay := 3 }] } (fun t =>
    t.run.isSome && !t.status.inited && t.seqPc == 14) := ⟨_, rfl, by decide⟩
theorem wit_InitEstablishesOnReferenceConfig :
    (machine t0).cfg = Config.reference ∧ (machine t0).onReference
      ∧ nextPasses .init (machine t0) (fun t => Memory.byte t.target 0xE2 == 0x00 && Memory.byte t.target 0x96 == 0x02) :=
  ⟨rfl, by decide, _, rfl, by decide⟩
theorem wit_SequencesIdempotentOnReference : (afterInit (machine t0)).status.inited = true ∧ (afterInit (machine t0)).onReference
    ∧ nextPasses .sleepPrep (afterInit (machine t0)) (fun t => match exec .sleepPrep t with
      | .next u => decide (u.target = t.target) && t.run.isNone && t.status.err == .ok
      | .fault _ => false
      | .refused _ => false) := ⟨by decide, by decide, _, rfl, by decide⟩
theorem wit_SleepAndRestore :
    (afterInit (machine t0)).status.inited = true ∧ (afterInit (machine t0)).onReference ∧ Config.reference.aAdcen ≠ Config.reference.aLed
      ∧ Config.reference.aAdcen ≠ Config.reference.aOuten ∧ Config.reference.aLed ≠ Config.reference.aOuten
      ∧ nextPasses .sleepPrep (afterInit (machine t0)) (fun t => match exec .sleepRestore t with
        | .next u => Memory.byte u.target 0x82 == 0xFF
        | .fault _ => false
        | .refused _ => false) := ⟨by decide, by decide, by decide, by decide, by decide, _, rfl, by decide⟩

/-- Commands that wait and go on: the write of a read-modify-write one step late, the second read of `RD_BATI`, the hold of `INIT`, and
the failure of `BUSPWR` in its second entry: for the statements about every state a command passes through. -/
theorem wit_late_write : endsLate (.setbit 0x12 3 true) (machine t0 0 ⟨0, 0, 0, 0⟩ [{}, { delay := 1 }]) (fun t =>
    t.status.err == .ok && t.trace.length == 2 && t.seqPc == 1) :=
  ⟨_, .later (.later (.first rfl) rfl rfl rfl) rfl rfl rfl, rfl, by decide⟩
theorem wit_late_second_read :
    endsLate .rdBati (machine [(0x7A, 1), (0x7B, 0), (0x7C, 0), (0x7D, 0)] 0 ⟨0, 0, 0, 0⟩ [{}, { delay := 1 }]) (fun t =>
      t.status.err == .ok && t.res == 16000 && t.seqPc == 2) :=
  ⟨_, .later (.later (.first rfl) rfl rfl rfl) rfl rfl rfl, rfl, by decide⟩
theorem wit_late_hold : endsLate .init { machine t0 with timer := [{ delay := 1 }] } (fun t =>
    t.status.err == .ok && t.status.inited && t.seqPc == 26) :=
  ⟨_, .later (.later (.first rfl) rfl rfl rfl) rfl rfl rfl, rfl, by decide⟩
theorem wit_late_failure :
    endsLate (.buspwr .sink) (machine t0 0 ⟨0, 0, 0, 0⟩ [{}, {}, {}, { delay := 1, result := .nack [] }]) (fun t =>
      t.status.err == .busError && t.status.failw && t.status.wrote && t.seqPc == 1) :=
  ⟨_, .later (.later (.first rfl) rfl rfl rfl) rfl rfl rfl, rfl, by decide⟩

/-- A command that fails on its write after a successful one, and one that fails on a read: for the
statements on precise exceptions, the last event, `WROTE` and the host's registers. -/
theorem wit_exceptions :
    nextPasses (.buspwr .sink) (machine t0 0 ⟨0, 0, 0, 0⟩ (failAt 3)) (fun t =>
      t.status.err == .busError && t.status.failw && t.status.wrote && t.run.isNone)
      ∧ nextPasses .rdTemp failing (fun t => t.status.err == .busError && !t.status.failw && !t.status.wrote) :=
  ⟨⟨_, rfl, by decide⟩, _, rfl, by decide⟩
theorem wit_WhichCommandRaisesWhat : trafficFree .dec8 = true ∧ nextPasses .dec8 State.reset (fun t => t.status.err == .ok) :=
  ⟨by decide, _, rfl, by decide⟩
theorem wit_WhoWritesResultRegisters : (∀ a len, Instr.dec8 ≠ .rdreg a len) ∧ givesResult .sleepPrep = false ∧ Instr.dec8 ≠ .init
    ∧ nextPasses .dec8 State.reset (fun _ => true) := ⟨by simp, by decide, by decide, _, rfl, rfl⟩
theorem wit_SeqPcEndsAtEndIndex : nextPasses .rdBati (machine [(0x7A, 0), (0x7B, 0), (0x7C, 0), (0x7D, 0)]) (fun t =>
    t.run.isNone && t.status.err == .ok && t.seqPc == endIndex .rdBati) := ⟨_, rfl, by decide⟩
theorem wit_AnsweredCommandsComplete : failing.allAnswer ∧ failing.noReset ∧ failing.noDelay
    ∧ ({ failing with replies := [{ delay := 7 }] } : State).allAnswer := ⟨by decide, by simp [State.noReset, machine, State.reset], by decide, by decide⟩
theorem wit_HungCommandNeverEnds_bus :
    hungOnBus.run.any (fun r => !r.sleeping hungOnBus) = true ∧ hungOnBus.inputs = [] ∧ hungOnBus.nextReply.delay = 0
      ∧ hungOnBus.nextReply.result = .never := by decide
theorem wit_HungCommandNeverEnds_timer :
    hungOnTimer.run.any (fun r => r.sleeping hungOnTimer) = true ∧ hungOnTimer.inputs = [] ∧ hungOnTimer.nextTimer.delay = 0
      ∧ hungOnTimer.nextTimer.returns = false := by decide

/-- `SETBIT` whose read is answered three steps late waits, and ends as if it were answered at once. -/
theorem wit_DelayChangesNothing_first :
    trafficFree (.setbit 0x12 3 true) = false ∧ (machine t0).inputs = []
      ∧ nextPasses (.setbit 0x12 3 true) { machine t0 with replies := [{ delay := 3 }] } (fun t => t.run.isSome
        && (match Sys2Proof.core.run 4 t, exec (.setbit 0x12 3 true) { machine t0 with replies := [{}] } with
          | .next x, .next u => sameState x u
          | _, _ => false)) := ⟨by decide, rfl, _, rfl, by decide⟩

/-- A waiting command with a late transaction, and one with a late timer; with no delay left and with some. -/
theorem wit_DelayChangesNothing_resume :
    (hungOnBus.run.any (fun r => !r.sleeping hungOnBus) = true ∧ hungOnBus.inputs = []
        ∧ ({ hungOnBus with replies := [{ delay := 0 }] } : State).replies = { ({} : Reply) with delay := 0 } :: []
        ∧ ({ hungOnBus with replies := [{ delay := 5 }] } : State).replies = { ({} : Reply) with delay := 5 } :: [])
      ∧ hungOnTimer.run.any (fun r => r.sleeping hungOnTimer) = true ∧ hungOnTimer.inputs = []
        ∧ ({ hungOnTimer with timer := [{ delay := 5 }] } : State).timer = { ({} : TimerReply) with delay := 5 } :: [] := by decide

/-- The invariant holds of a state with a command in progress; its two host reads are a clause each. -/
theorem wit_hungOnBus_inv : hungOnBus.Inv where
  registers := by decide
  busy := by decide
  clean := by decide
  failw := by decide
  errDone := by decide
  seqPc := by decide
  running := by
    rintro r ⟨⟩
    exact ⟨by decide, by decide, by decide⟩
  record := .inr ⟨.rdBatv, 0, ⟨0, 0, 0, 0⟩, ([{ entry := .rd 0x78 2 }], .quantity .batV), by decide, by decide, by
    rintro r ⟨⟩
    exact ⟨rfl, rfl⟩, [], [], rfl, .start, rfl, _, rfl, rfl, rfl⟩
theorem wit_WaitingCommandShowsBusy :
    hungOnBus.status.busy = true ∧ hungOnBus.status.done = false ∧ hungOnBus.run.any (fun r => !r.ready hungOnBus) = true
      ∧ ({ hungOnBus with inputs := [.read .status] } : State).inputs = .read .status :: []
      ∧ ({ hungOnBus with inputs := [.read .seqPc] } : State).inputs = .read .seqPc :: [] := by decide
theorem wit_IdleHostAccesses :
    State.reset.run = none ∧ State.reset.inputs = [] ∧ (offering (.arg 7)).inputs = .arg 7 :: []
      ∧ (offering (.dbuf 3 9)).inputs = .dbuf 3 9 :: [] ∧ (offering (.read .res)).inputs = .read .res :: [] := by decide
theorem wit_ResetLeavesIdleEngine : (offering (.reset [])).run = none ∧ (offering (.reset [])).inputs = .reset [] :: [] := by decide

/-- Reset in a write at the end of the address space: one byte as sent, one old. -/
theorem wit_ResetAbandonsCommand :
    hungOnWrite.run.any (fun r => !r.ready hungOnWrite && !r.sleeping hungOnWrite
      && r.pendingWrite hungOnWrite == some (0xFE, [1, 2])) = true
      ∧ (match step hungOnWrite with
        | .next t => decide (t.target = [(0xFE, 1)]) && t.run.isNone
        | .fault _ => false
        | .refused _ => false) = true := by decide
theorem wit_EventsAreOnlyAppended : steps State.reset := ⟨_, rfl⟩
theorem wit_StepKeepsInvariant : hungOnBus.Inv ∧ steps hungOnBus := ⟨wit_hungOnBus_inv, _, rfl⟩

end Sys2Proof.Tests
end

/-! The family of 00_scope.md: what no command writes (R6, R23, R30), and that the delay of an answer is time and nothing
else (R16, R61, R299). -/

namespace Sys2Proof.Machine

/-! ### What no command writes -/

/-- R6, R23, R30, of the state in which `exec` answers, whether the command runs or is rejected. -/
theorem exec_keeps_host_registers {i : Instr} {s t : State} (h : exec i s = .next t) :
    t.cfg = s.cfg ∧ t.cmd = s.cmd ∧ t.arg = s.arg ∧ t.inputs = s.inputs ∧ t.seen = s.seen := by
  rw [exec_eq_follow] at h
  cases h
  cases planOf i s.cfg s.arg s.dbuf with
  | none => exact ⟨rfl, rfl, rfl, rfl, rfl⟩
  | some p =>
    obtain ⟨hcfg, hcmd, harg, hinputs, hseen, -⟩ := (runCommand_moves p.1 p.2 s).keeps
    exact ⟨hcfg, hcmd, harg, hinputs, hseen⟩

/-- Of the host's side a command in progress only sees accesses used up and reads recorded (R32). -/
theorem Along.keeps_host_registers {i : Instr} {s t : State} (h : Along i s t) :
    t.cfg = s.cfg ∧ t.cmd = s.cmd ∧ t.arg = s.arg ∧ t.inputs <:+ s.inputs ∧ s.seen <+: t.seen := by
  refine Along.induct (P := fun t => t.cfg = s.cfg ∧ t.cmd = s.cmd ∧ t.arg = s.arg ∧ t.inputs <:+ s.inputs
    ∧ s.seen <+: t.seen) ?first ?goesOn ?waits h
  case first =>
    intro t ht
    obtain ⟨hcfg, hcmd, harg, hinputs, hseen⟩ := exec_keeps_host_registers ht
    exact ⟨hcfg, hcmd, harg, hinputs ▸ List.suffix_rfl, hseen ▸ List.prefix_rfl⟩
  case goesOn =>
    intro t r ht _ _
    obtain ⟨hcfg, hcmd, harg, hinputs, hseen, -⟩ := (drive_moves (r.prog.length + 1) r t).keeps
    rwa [hcfg, hcmd, harg, hinputs, hseen]
  case waits =>
    intro t r ins sn ⟨hcfg, hcmd, harg, hinputs, hseen⟩ _ _ hins hsn
    exact ⟨by simpa using hcfg, by simpa using hcmd, by simpa using harg, hins.trans hinputs, hseen.trans hsn⟩

/-- Settles O48: `CFG`, `CMD` and `ARG` are kept by every move of the engine and by every step of a wait. -/
theorem commandsNeverWriteHostRegisters : Obligations.CommandsNeverWriteHostRegisters := by
  intro s t i
  refine ⟨Along.keeps_host_registers, fun h => ?_⟩
  obtain ⟨-, -, -, hinputs, hseen⟩ := exec_keeps_host_registers h
  exact ⟨hinputs, hseen⟩

/-! ### Runs of the machine -/

theorem core_run_succ {M : Host.Core} {s t : M.State} (h : M.step s = .next t) (k : Nat) : M.run (k + 1) s = M.run k t := by
  simp only [Host.Core.run, h]

theorem core_run_one (M : Host.Core) (s : M.State) : M.run 1 s = M.step s := by
  cases h : M.step s <;> simp [Host.Core.run, h]

/-- A machine whose steps only count `d` down to 0 goes on, after these `d` steps, as it does from 0. -/
theorem core_run_countdown {M : Host.Core} {late : Nat → M.State} (h : ∀ d, M.step (late (d + 1)) = .next (late d)) (d : Nat) :
    M.run (d + 1) (late d) = M.step (late 0) := by
  induction d with
  | zero => exact core_run_one M _
  | succ d ih => rw [core_run_succ (h d), ih]

/-! ### A command in progress, with nothing from the host -/

theorem step_of_not_ready {s : State} {r : Running} (hr : s.run = some r) (hi : s.inputs = []) (hn : r.ready s = false) :
    step s = .next (s.tick r) := by
  simp [step, hr, State.waitStep, hn, State.busyInput, hi]

theorem step_of_ready {s : State} {r : Running} (hr : s.run = some r) (hy : r.ready s = true) :
    step s = .next (drive (r.prog.length + 1) r s) := by
  simp [step, hr, State.waitStep, hy]

/-- The machine whose next transaction is answered as `x` says, but `d` steps late. -/
def State.replyLate (s : State) (x : Reply) (rest : List Reply) (d : Nat) : State :=
  { s with replies := { x with delay := d } :: rest }

/-- The machine whose next sleep ends as `x` says, but `d` steps late. -/
def State.timerLate (s : State) (x : TimerReply) (rest : List TimerReply) (d : Nat) : State :=
  { s with timer := { x with delay := d } :: rest }

theorem State.replyLate_zero {x : Reply} (hx : x.delay = 0) (s : State) (rest : List Reply) :
    s.replyLate x rest 0 = { s with replies := x :: rest } := by
  rw [State.replyLate, ← hx]

theorem State.timerLate_zero {x : TimerReply} (hx : x.delay = 0) (s : State) (rest : List TimerReply) :
    s.timerLate x rest 0 = { s with timer := x :: rest } := by
  rw [State.timerLate, ← hx]

theorem State.replyLate_busReady (s : State) (x : Reply) (rest : List Reply) (d : Nat) :
    (s.replyLate x rest (d + 1)).busReady = false := by
  simp [State.replyLate, State.busReady, State.nextReply]

theorem State.timerLate_timerReady (s : State) (x : TimerReply) (rest : List TimerReply) (d : Nat) :
    (s.timerLate x rest (d + 1)).timerReady = false := by
  simp [State.timerLate, State.timerReady, State.nextTimer]

/-- One step of the wait for a late transaction (R61). -/
theorem step_replyLate {s : State} {r : Running} (hr : s.run = some r) (hi : s.inputs = []) (hb : r.sleeping s = false)
    (x : Reply) (rest : List Reply) (d : Nat) : step (s.replyLate x rest (d + 1)) = .next (s.replyLate x rest d) := by
  have hb' : r.sleeping (s.replyLate x rest (d + 1)) = false := hb
  have hn : r.ready (s.replyLate x rest (d + 1)) = false := by
    simp only [Running.ready, hb', Bool.false_eq_true, if_false, State.replyLate_busReady]
  rw [step_of_not_ready (s := s.replyLate x rest (d + 1)) hr hi hn]
  simp only [State.tick, hb', Bool.false_eq_true, if_false]
  rfl

/-- One step of a sleep whose timer is late (R16). -/
theorem step_timerLate {s : State} {r : Running} (hr : s.run = some r) (hi : s.inputs = []) (hb : r.sleeping s = true)
    (x : TimerReply) (rest : List TimerReply) (d : Nat) :
    step (s.timerLate x rest (d + 1)) = .next (s.timerLate x rest d) := by
  have hb' : r.sleeping (s.timerLate x rest (d + 1)) = true := hb
  have hn : r.ready (s.timerLate x rest (d + 1)) = false := by
    simp only [Running.ready, hb', if_true, State.timerLate_timerReady]
  rw [step_of_not_ready (s := s.timerLate x rest (d + 1)) hr hi hn]
  simp only [State.tick, hb', if_true]
  rfl

/-- A command that waits for a transaction answered `d` steps late (R61). -/
theorem run_replyLate {s : State} {r : Running} (hr : s.run = some r) (hi : s.inputs = []) (hb : r.sleeping s = false)
    {x : Reply} (hx : x.delay = 0) (rest : List Reply) (d : Nat) :
    Sys2Proof.core.run (d + 1) (s.replyLate x rest d) = step { s with replies := x :: rest } := by
  rw [← State.replyLate_zero hx]
  exact core_run_countdown (M := Sys2Proof.core) (step_replyLate hr hi hb x rest) d

/-- A command in a sleep whose timer is `d` steps late (R16). -/
theorem run_timerLate {s : State} {r : Running} (hr : s.run = some r) (hi : s.inputs = []) (hb : r.sleeping s = true)
    {x : TimerReply} (hx : x.delay = 0) (rest : List TimerReply) (d : Nat) :
    Sys2Proof.core.run (d + 1) (s.timerLate x rest d) = step { s with timer := x :: rest } := by
  rw [← State.timerLate_zero hx]
  exact core_run_countdown (M := Sys2Proof.core) (step_timerLate hr hi hb x rest) d

/-! ### A command whose first transaction is late -/

/-- A read-modify-write that meets no answer of the bus side waits in the half it is in (R17, R264). -/
theorem rmwEntry_waiting {a keep orBits : Byte} {j : Option Nat} {r : Running} {s : State} (h : s.busReady = false) :
    rmwEntry a keep orBits j r s = .waiting r s := by
  cases hh : r.half <;> simp [rmwEntry, hh, rmwWrite_waiting _ _ _ _ _ _ h, State.memRead_waiting _ _ h]

/-- The entry in progress, when it is not a sleep and the bus side does not answer, waits as it is (R264). -/
theorem runEntry_waiting {r : Running} {s : State} {l : Line} (hl : r.prog[s.seqPc.toNat]? = some l)
    (hb : r.sleeping s = false) (h : s.busReady = false) : runEntry l r s = .waiting r s := by
  cases he : l.entry with
  | rd a n => simp [runEntry, he, State.memRead_waiting _ _ h]
  | wr a bytes => simp [runEntry, he, State.memWrite_waiting _ _ h]
  | rmw a keep orBits => simp [runEntry, he, rmwEntry_waiting h]
  | sb a bit v => simp [runEntry, he, rmwEntry_waiting h]
  | slp ms => simp [Running.sleeping, hl, he] at hb
  | br a bit t1 t0 => simp [runEntry, he, State.memRead_waiting _ _ h]

/-- A command at its first entry. -/
def Running.start (p : List Line × Finish) : Running := ⟨p.1, p.2, [], false⟩

theorem follow_eq_drive (p : List Line × Finish) (s : State) :
    s.follow (some p) = drive (p.1.length + 1) (Running.start p) s.startCommand := rfl

/-- No command begins with a sleep: the one sleep of the block is entry 14 of `INIT` (R211, R226). -/
theorem planOf_starts_on_bus {i : Instr} {c : Config} {arg : Word} {d : DataBuf} {p : List Line × Finish}
    (h : planOf i c arg d = some p) (s : State) : (Running.start p).sleeping s.startCommand = false := by
  have hq : ∀ q : Quantity, readPlan q c = some p → (Running.start p).sleeping s.startCommand = false := by
    intro q hp
    unfold readPlan at hp
    split at hp <;> cases hp
    cases q <;> rfl
  cases i with
  | rdreg a len => simp only [planOf] at h; split at h <;> cases h; rfl
  | wrreg a len => simp only [planOf] at h; split at h <;> cases h; rfl
  | wrDcdc index => obtain ⟨r, -, rfl⟩ := Option.map_eq_some_iff.mp h; rfl
  | wrLdo index =>
    obtain ⟨k, -, rfl⟩ := Option.map_eq_some_iff.mp h
    change Running.sleeping (.start ([{ entry := ldoEntry c k arg.toNat }], .keep)) s.startCommand = false
    unfold ldoEntry
    split <;> rfl
  | wrChgi => obtain ⟨k, -, rfl⟩ := Option.map_eq_some_iff.mp h; rfl
  | wrBright => obtain ⟨k, -, rfl⟩ := Option.map_eq_some_iff.mp h; rfl
  | init => obtain ⟨k, -, rfl⟩ := Option.map_eq_some_iff.mp h; rfl
  | rdBatv => exact hq _ h
  | rdBati => exact hq _ h
  | rdBatichg => exact hq _ h
  | rdBatp => exact hq _ h
  | rdVinv => exact hq _ h
  | rdVini => exact hq _ h
  | rdVbusv => exact hq _ h
  | rdVbusi => exact hq _ h
  | rdApsv => exact hq _ h
  | rdTemp => exact hq _ h
  | rdCcin => exact hq _ h
  | rdCcout => exact hq _ h
  | rdBatpct => exact hq _ h
  | buspwr m => cases h; cases m <;> rfl
  | _ => cases h; rfl

/-- A command that the bus side does not answer and that has not ended is blocked in its first entry (R41, R264). -/
theorem exec_first_late {i : Instr} {s t : State} (h : exec i s = .next t) (hb : s.busReady = false) (ht : t.run ≠ none) :
    ∃ p, planOf i s.cfg s.arg s.dbuf = some p ∧ t = { s.startCommand with run := some (.start p) } := by
  rw [exec_eq_follow] at h
  cases h
  cases hp : planOf i s.cfg s.arg s.dbuf with
  | none => simp [hp, State.follow] at ht
  | some p =>
    refine ⟨p, rfl, ?_⟩
    rw [hp, follow_eq_drive] at ht
    rw [follow_eq_drive]
    cases hl : (Running.start p).prog[s.startCommand.seqPc.toNat]? with
    | none => simp [drive_end hl] at ht
    | some l => exact drive_waiting hl (runEntry_waiting hl (planOf_starts_on_bus hp s) hb)

/-- A command blocked in its first entry goes on, when the bus side answers, as it does when it is answered at once. -/
theorem step_blocked {i : Instr} {s : State} {p : List Line × Finish} (hp : planOf i s.cfg s.arg s.dbuf = some p)
    (hy : s.busReady = true) : step { s.startCommand with run := some (.start p) } = exec i s := by
  have hb : (Running.start p).sleeping { s.startCommand with run := some (.start p) } = false := planOf_starts_on_bus hp s
  have hready : (Running.start p).ready { s.startCommand with run := some (.start p) } = true := by
    simp only [Running.ready, hb, Bool.false_eq_true, if_false]
    exact hy
  rw [step_of_ready rfl hready, drive_withRun, exec_eq_follow, hp]
  rfl

/-- A command whose first transaction is `d + 1` steps late is, after them and the step in which the answer comes, where it is with
that answer at once. -/
theorem run_first_late {i : Instr} {s t : State} {x : Reply} {rest : List Reply} {d : Nat} (hi : s.inputs = [])
    (hx : x.delay = 0) (hr : x.result ≠ .never) (ht : exec i (s.replyLate x rest (d + 1)) = .next t) (hrun : t.run ≠ none) :
    Sys2Proof.core.run (d + 2) t = exec i { s with replies := x :: rest } := by
  obtain ⟨p, hp, rfl⟩ := exec_first_late ht (s.replyLate_busReady x rest d) hrun
  have hwait := run_replyLate (s := { s.startCommand with run := some (.start p) }) rfl hi (planOf_starts_on_bus hp s) hx
    rest (d + 1)
  have hready : State.busReady { s with replies := x :: rest } = true := by
    simp [State.busReady, State.nextReply, hx, hr]
  exact hwait.trans (step_blocked (s := { s with replies := x :: rest }) hp hready)

/-- Settles O53: a wait only counts the delay down; a whole command settles where it answers at once (`Along.settled`). -/
theorem delayChangesNothing : Obligations.DelayChangesNothing := by
  refine ⟨fun s r d hr hi => ⟨?bus, ?timer⟩, ?whole, ?first⟩
  case bus =>
    intro x rest hb hx _ hs
    rw [← run_replyLate hr hi hb hx rest d, State.replyLate, ← hs]
  case timer =>
    intro x rest hb hx _ hs
    rw [← run_timerLate hr hi hb hx rest d, State.timerLate, ← hs]
  case whole =>
    intro s t i hi h ht
    have hset := (h.settled hi).1
    rwa [State.settled, ht] at hset
  case first =>
    intro s t u i x rest d _ hi hx hr ht hrun hu
    exact (run_first_late hi hx hr ht hrun).trans hu

end Sys2Proof.Machine

/-! The family of 10_state.md: the step and the host's accesses (R30, R32, R35), reset (R45), what a command writes (R24, R25,
R29), where `SEQ_PC` is (R27), and the invariant of the machine. -/

namespace Sys2Proof.Machine

/-! ### What a step is -/

/-- The host's next access writes a legal word to `CMD` (R30, R35). -/
theorem step_legal {s : State} {w : Word} {rest : List Input} {i : Instr} (hr : s.run = none) (hi : s.inputs = .cmd w :: rest)
    (hw : decode w = .ok i) : step s = exec i { s with inputs := rest, cmd := w } := by
  simp [step, hr, State.fetch, hi, hw]

/-- The host's next access writes any other word to `CMD` (R252). -/
theorem step_illegal {s : State} {w : Word} {rest : List Input} {e : DecodeError} (hr : s.run = none)
    (hi : s.inputs = .cmd w :: rest) (hw : decode w = .error e) :
    step s = .next { s with inputs := rest, cmd := w }.illegalCommand := by
  simp [step, hr, State.fetch, hi, hw]

/-- The idle engine when the host's next access is no write of `CMD` (R32, R35). -/
theorem step_idle {s : State} (hr : s.run = none) (hf : s.fetch = none) : step s = .next s.idleStep := by
  simp [step, hr, hf]

/-- A command in progress whose collaborator does not answer in this step (R264). -/
theorem step_waiting {s : State} {r : Running} (hr : s.run = some r) (hn : r.ready s = false) :
    step s = .next (s.tick r).busyInput := by
  simp [step, hr, State.waitStep, hn]

theorem State.fetch_eq_some {s s1 : State} {w : Word} (h : s.fetch = some (w, s1)) :
    ∃ rest, s.inputs = .cmd w :: rest ∧ s1 = { s with inputs := rest, cmd := w } := by
  unfold State.fetch at h
  split at h <;> cases h
  exact ⟨_, ‹_›, rfl⟩

/-- What a step does: the command in progress goes on or waits, the idle engine serves the host, or the host's write of `CMD`
starts a command or is rejected. -/
theorem step_cases {s t : State} (h : step s = .next t) :
    (∃ r, s.run = some r ∧ r.ready s = true ∧ t = drive (r.prog.length + 1) r s)
      ∨ (∃ r, s.run = some r ∧ r.ready s = false ∧ t = (s.tick r).busyInput)
      ∨ (s.run = none ∧ t = s.idleStep)
      ∨ (∃ w rest i, decode w = .ok i ∧ exec i { s with inputs := rest, cmd := w } = .next t)
      ∨ ∃ w rest, t = State.illegalCommand { s with inputs := rest, cmd := w } := by
  cases hr : s.run with
  | some r =>
    cases hy : r.ready s with
    | true =>
      rw [step_of_ready hr hy] at h
      cases h
      exact .inl ⟨r, rfl, hy, rfl⟩
    | false =>
      rw [step_waiting hr hy] at h
      cases h
      exact .inr (.inl ⟨r, rfl, hy, rfl⟩)
  | none =>
    cases hf : s.fetch with
    | none =>
      rw [step_idle hr hf] at h
      cases h
      exact .inr (.inr (.inl ⟨rfl, rfl⟩))
    | some x =>
      obtain ⟨rest, hi, -⟩ := State.fetch_eq_some (w := x.1) (s1 := x.2) hf
      cases hw : decode x.1 with
      | ok i =>
        rw [step_legal hr hi hw] at h
        exact .inr (.inr (.inr (.inl ⟨_, _, _, hw, h⟩)))
      | error e =>
        rw [step_illegal hr hi hw] at h
        cases h
        exact .inr (.inr (.inr (.inr ⟨_, _, rfl⟩)))

/-! ### The registers the host reads and writes -/

theorem DataBuf.get_put_same (d : DataBuf) (k : Fin 4) (b : Byte) : (d.put k b).get k = b := by
  match k with
  | 0 | 1 | 2 | 3 => rfl

theorem DataBuf.get_put_ne (d : DataBuf) {k j : Fin 4} (b : Byte) (h : j ≠ k) : (d.put k b).get j = d.get j := by
  match k, j with
  | 0, 0 | 1, 1 | 2, 2 | 3, 3 => exact absurd rfl h
  | 0, 1 | 0, 2 | 0, 3 | 1, 0 | 1, 2 | 1, 3 | 2, 0 | 2, 1 | 2, 3 | 3, 0 | 3, 1 | 3, 2 => rfl

/-- The byte of `STATUS` is the number R29 gives its fields. -/
theorem Status.toByte_toNat (t : Status) : t.toByte.toNat = t.value := by
  obtain ⟨busy, done, err, wrote, inited, failw⟩ := t
  cases err <;> revert busy done wrote inited failw <;> decide

/-- Bit 0 of `STATUS` is `BUSY` (R29). -/
theorem Status.toByte_bit0 (t : Status) : t.toByte.getLsbD 0 = t.busy := by
  rw [Status.toByte, BitVec.getLsbD_append]
  simp

/-- Bit 1 of `STATUS` is `DONE` (R29). -/
theorem Status.toByte_bit1 (t : Status) : t.toByte.getLsbD 1 = t.done := by
  rw [Status.toByte, BitVec.getLsbD_append, BitVec.getLsbD_append]
  simp

theorem State.hostRead_status_toNat (s : State) : (s.hostRead .status).toNat = s.status.value := by
  rw [← Status.toByte_toNat]
  exact BitVec.toNat_setWidth_of_le (by decide)

theorem State.hostRead_dbuf_toNat (s : State) (k : Fin 4) : (s.hostRead (.dbuf k)).toNat = (s.dbuf.get k).toNat :=
  BitVec.toNat_setWidth_of_le (by decide)

/-! ### Reset in a wait -/

/-- A failed write changes a register only to the byte sent to it (R262); no byte lands beyond 0xFF. -/
theorem Memory.byte_landSpan_ne {bytes : List Byte} {m : Memory} {a x : Nat} {l : List Bool}
    (h : Memory.byte (Memory.landSpan m a bytes l) x ≠ Memory.byte m x) :
    ∃ k, x = a + k ∧ bytes[k]? = some (Memory.byte (Memory.landSpan m a bytes l) x) := by
  induction bytes generalizing m a l with
  | nil => exact absurd rfl h
  | cons b rest ih =>
    rw [Memory.landSpan] at h ⊢
    generalize hm : (if l.headD false then Memory.put m a b else m) = m' at h ⊢
    by_cases hx : a = x
    · subst hx
      rw [Memory.byte_landSpan_outside _ _ _ _ _ (.inl (Nat.lt_succ_self a))] at h ⊢
      refine ⟨0, rfl, ?_⟩
      rw [← hm] at h ⊢
      split at h
      · rename_i hl
        by_cases ha : a < 256
        · rw [if_pos hl, Memory.byte_put m a b a ha, if_pos rfl]
          rfl
        · simp [Memory.put, ha] at h
      · exact absurd rfl h
    · have hsame : Memory.byte m' x = Memory.byte m x := by
        rw [← hm]
        split
        · exact Memory.byte_put_ne m a b x hx
        · rfl
      obtain ⟨k, hk, hb⟩ := ih (hsame ▸ h)
      exact ⟨k + 1, by omega, by simpa using hb⟩

section
variable (s : State) (r : Running) (landed : List Bool)

/-- A step of a wait does not change what the target is when the request is served. -/
@[simp] theorem State.tick_targetNow : (s.tick r).targetNow = s.targetNow := by
  unfold State.tick
  split
  · rfl
  · cases h : s.replies <;> simp [State.targetNow, State.nextReply, h, Reply.tick]

theorem Running.sleeping_tick : r.sleeping (s.tick r) = r.sleeping s := by
  simp only [Running.sleeping, State.tick_seqPc]

theorem Running.pendingWrite_tick : r.pendingWrite (s.tick r) = r.pendingWrite s := by
  simp only [Running.pendingWrite, State.tick_seqPc, State.tick_tmp]

/-- A command that sleeps waits for no write. -/
theorem Running.pendingWrite_of_sleeping {s : State} {r : Running} (h : r.sleeping s = true) : r.pendingWrite s = none := by
  unfold Running.sleeping at h
  unfold Running.pendingWrite
  split at h
  · split at h <;> simp_all
  · cases h

@[simp] theorem State.abandon_cfg : (s.abandon r landed).cfg = s.cfg := by
  unfold State.abandon State.dropRequest
  split <;> split <;> rfl
@[simp] theorem State.abandon_history : (s.abandon r landed).history = s.history := by
  unfold State.abandon State.dropRequest
  split <;> split <;> rfl
@[simp] theorem State.abandon_trace : (s.abandon r landed).trace = s.trace := by
  unfold State.abandon State.dropRequest
  split <;> split <;> rfl

end

theorem State.abandon_target_sleeping {s : State} {r : Running} (landed : List Bool) (h : r.sleeping s = true) :
    (s.abandon r landed).target = s.target := by
  simp [State.abandon, Running.pendingWrite_of_sleeping h, State.dropRequest, h]

/-- The registers after a transaction is cut off: what they are by then, but for the bytes of a write that landed (R45, R262). -/
theorem State.abandon_target_cases {s : State} {r : Running} (landed : List Bool) (h : r.sleeping s = false) :
    (r.pendingWrite s = none ∧ (s.abandon r landed).target = s.targetNow)
      ∨ ∃ a bytes, r.pendingWrite s = some (a, bytes)
        ∧ (s.abandon r landed).target = Memory.landSpan s.targetNow a.toNat bytes landed := by
  cases hw : r.pendingWrite s with
  | none => exact .inl ⟨rfl, by simp [State.abandon, State.dropRequest, h, hw]⟩
  | some x => exact .inr ⟨x.1, x.2, rfl, by simp [State.abandon, State.dropRequest, h, hw]⟩

/-- A reset that comes in a wait (R45): the engine of the command cut off is reset. -/
theorem step_reset_waiting {s : State} {r : Running} {landed : List Bool} {rest : List Input} (hr : s.run = some r)
    (hn : r.ready s = false) (hi : s.inputs = .reset landed :: rest) :
    step s = .next (State.abandon { s.tick r with inputs := rest } r landed).resetEngine := by
  rw [step_waiting hr hn]
  simp [State.busyInput, hi, State.resetNow, hr]

/-! ### The flags -/

/-- The flags of a command in progress: nothing is final (R35). -/
structure Status.Working (t : Status) : Prop where
  busy : t.busy = true
  done : t.done = false
  err : t.err = .ok
  failw : t.failw = false

/-- The flags of an idle engine that can stand together (R29, R256). -/
structure Status.Final (t : Status) : Prop where
  busy : t.busy = false
  failw : t.failw = true → t.err = .busError
  errDone : t.err ≠ .ok → t.done = true

/-- The flags are those of a command in progress if there is one, else those of an idle engine. -/
def Status.Fits (t : Status) : Option Running → Prop
  | some _ => t.Working
  | none => t.Final

theorem Status.working_started (t : Status) : t.started.Working := ⟨rfl, rfl, rfl, rfl⟩

theorem Status.Working.afterWrite {t : Status} (h : t.Working) : t.afterWrite.Working := ⟨h.busy, h.done, h.err, h.failw⟩

/-- An exception without `FAILW`, or a `BusError`, leaves flags that can stand together. -/
theorem Status.final_failed (t : Status) {e : ErrCode} {w : Bool} (h : w = true → e = .busError) : (t.failed e w).Final :=
  ⟨rfl, h, fun _ => rfl⟩

theorem State.complete_status_final (s : State) (fin : Finish) (got : List Byte) : (s.complete fin got).status.Final := by
  by_cases h : fin = .inited
  · subst h
    exact ⟨rfl, nofun, fun _ => rfl⟩
  · rw [State.complete_status_of_ne _ _ _ h]
    exact ⟨rfl, nofun, fun _ => rfl⟩

/-- What a round of the engine makes of `STATUS`: a write that succeeds sets `WROTE`, a failure ends the command (R29, R256). -/
def EntryResult.Flags (t : Status) : EntryResult → Prop
  | .done _ s' => s'.status = t ∨ s'.status = t.afterWrite
  | .raised s' => s'.run = none ∧ ∃ w, s'.status = t.failed .busError w
  | .waiting _ s' => s'.status = t

theorem rmwWrite_flags (a keep orBits : Byte) (j : Option Nat) (r : Running) (s : State) :
    (rmwWrite a keep orBits j r s).Flags s.status := by
  rcases s.bus_cases with h | ⟨hd, hr⟩ | ⟨l, hd, hr⟩
  · rw [rmwWrite_waiting _ _ _ _ _ _ h]
    rfl
  · rw [rmwWrite_ack _ _ _ _ _ _ hd hr]
    exact .inr (by simp)
  · rw [rmwWrite_nack _ _ _ _ _ _ hd hr]
    exact ⟨rfl, true, rfl⟩

theorem rmwEntry_flags (a keep orBits : Byte) (j : Option Nat) (r : Running) (s : State) :
    (rmwEntry a keep orBits j r s).Flags s.status := by
  cases hh : r.half with
  | true =>
    simp only [rmwEntry, hh, if_true]
    exact rmwWrite_flags a keep orBits j r s
  | false =>
    rcases s.bus_cases with h | ⟨hd, hr⟩ | ⟨l, hd, hr⟩
    · rw [rmwEntry_waiting h]
      rfl
    · rw [rmwEntry_read _ _ _ _ _ _ hh hd hr]
      exact rmwWrite_flags a keep orBits j _ (s.latchRead a)
    · simp only [rmwEntry, hh, State.memRead_nack _ _ hd hr]
      exact ⟨rfl, false, rfl⟩

theorem runEntry_flags (l : Line) (r : Running) (s : State) : (runEntry l r s).Flags s.status := by
  unfold runEntry
  cases l.entry with
  | rd a n =>
    rcases s.bus_cases with h | ⟨hd, hr⟩ | ⟨l', hd, hr⟩
    · simp only [State.memRead_waiting _ _ h]
      rfl
    · simp only [State.memRead_ack _ _ hd hr]
      exact .inl (by simp)
    · simp only [State.memRead_nack _ _ hd hr]
      exact ⟨rfl, false, rfl⟩
  | wr a bytes =>
    rcases s.bus_cases with h | ⟨hd, hr⟩ | ⟨l', hd, hr⟩
    · simp only [State.memWrite_waiting _ _ h]
      rfl
    · simp only [State.memWrite_ack _ _ hd hr]
      exact .inr (by simp)
    · simp only [State.memWrite_nack _ _ hd hr]
      exact ⟨rfl, true, rfl⟩
  | rmw a keep orBits => exact rmwEntry_flags a keep orBits _ r s
  | sb a bit v => exact rmwEntry_flags a _ _ _ r s
  | slp ms =>
    cases h : s.timerReady with
    | false =>
      simp only [State.sleep_waiting _ h]
      rfl
    | true =>
      simp only [State.sleep_ready _ h]
      exact .inl (by simp)
  | br a bit t1 t0 =>
    rcases s.bus_cases with h | ⟨hd, hr⟩ | ⟨l', hd, hr⟩
    · simp only [State.memRead_waiting _ _ h]
      rfl
    · simp only [State.memRead_ack _ _ hd hr]
      exact .inl rfl
    · simp only [State.memRead_nack _ _ hd hr]
      exact ⟨rfl, false, rfl⟩

/-- Wherever the engine stops, the flags say whether it waits or has ended. -/
theorem drive_flags (n : Nat) (r : Running) {s : State} (h : s.status.Working) :
    (drive n r s).status.Fits (drive n r s).run := by
  refine drive_induction (P := fun _ s => s.status.Working) (Q := fun t => t.status.Fits t.run) ?fuel ?ends ?done ?raised ?waits
    n r s h
  case fuel => exact fun r s h => h
  case ends =>
    intro r s _ _
    rw [State.complete_run]
    exact State.complete_status_final s r.fin r.got
  case done =>
    intro r s l r' s' h _ he
    have hf := runEntry_flags l r s
    rw [he] at hf
    rcases hf with hf | hf
    · exact hf ▸ h
    · exact hf ▸ h.afterWrite
  case raised =>
    intro r s l s' _ _ he
    have hf := runEntry_flags l r s
    rw [he] at hf
    obtain ⟨hrun, w, hst⟩ := hf
    rw [hrun, hst]
    exact Status.final_failed _ fun _ => rfl
  case waits =>
    intro r s l r' s' h _ he
    have hf := runEntry_flags l r s
    rw [he] at hf
    exact (show s'.status = s.status from hf) ▸ h

/-! ### The invariant -/

/-- `SEQ_PC` never leaves the table of its command (R27). -/
theorem State.Tracks.seqPc_le {s : State} {prog : List Line} (h : s.Tracks prog) : s.seqPc.toNat ≤ prog.length := by
  obtain ⟨done, part, -, -, hm⟩ := h
  have inside : ∀ l, prog[s.seqPc.toNat]? = some l → s.seqPc.toNat ≤ prog.length :=
    fun l hl => (List.getElem?_eq_some_iff.mp hl).1.le
  cases hr : s.run with
  | some r =>
    rw [hr] at hm
    obtain ⟨-, l, hl, -⟩ := hm
    exact inside l hl
  | none =>
    rw [hr] at hm
    rcases hm with ⟨-, hend, -⟩ | ⟨-, l, hl, -⟩
    · exact hend.le
    · exact inside l hl

/-- The record of a command in progress: the command in `CMD`, its micro-program, and how far it has come. -/
theorem State.Recorded.inProgress {s : State} {r : Running} (h : s.Recorded) (hr : s.run = some r) :
    ∃ i arg d p, decode s.cmd = .ok i ∧ planOf i s.cfg arg d = some p ∧ r.prog = p.1 ∧ r.fin = p.2 ∧ s.Tracks p.1 := by
  rcases h with ⟨hn, -⟩ | ⟨i, arg, d, p, hi, hp, hrun, ht⟩
  · rw [hr] at hn
    cases hn
  · obtain ⟨hprog, hfin⟩ := hrun r hr
    exact ⟨i, arg, d, p, hi, hp, hprog, hfin, ht⟩

/-- No micro-program is longer than that of `INIT`, so `SEQ_PC` is at most 26 (R27). -/
theorem State.Recorded.seqPc_le {s : State} (h : s.Recorded) : s.seqPc.toNat ≤ 26 := by
  rcases h with ⟨-, -, hpc, -⟩ | ⟨i, arg, d, p, -, hp, -, ht⟩
  · simp [hpc]
  · exact ht.seqPc_le.trans (planOf_legal hp).1.1

theorem State.Recorded.legal {s : State} {r : Running} (h : s.Recorded) (hr : s.run = some r) : r.legal s.seqPc := by
  obtain ⟨i, arg, d, p, -, hp, hprog, -, ht⟩ := h.inProgress hr
  obtain ⟨hlen, hjumps⟩ := (planOf_legal hp).1
  have hpc := ht.seqPc_le
  rw [← hprog] at hlen hjumps hpc
  exact ⟨hlen, hpc, hjumps⟩

/-- The invariant is three facts: of the target's registers, of the flags, and the record of the last command. -/
theorem State.inv_iff (s : State) : s.Inv ↔ Memory.wf s.target = true ∧ s.status.Fits s.run ∧ s.Recorded := by
  constructor
  · intro h
    refine ⟨h.registers, ?_, h.record⟩
    have hbusy := h.busy
    cases hr : s.run with
    | none =>
      rw [hr] at hbusy
      exact ⟨hbusy, h.failw, h.errDone⟩
    | some r =>
      rw [hr] at hbusy
      obtain ⟨hdone, herr, hfailw⟩ := h.clean hbusy
      exact ⟨hbusy, hdone, herr, hfailw⟩
  · rintro ⟨hw, hf, hrec⟩
    cases hr : s.run with
    | none =>
      rw [hr] at hf
      exact ⟨hw, by simp [hr, hf.busy], by simp [hf.busy], hf.failw, hf.errDone, hrec.seqPc_le, fun _ => hrec.legal, hrec⟩
    | some r =>
      rw [hr] at hf
      exact ⟨hw, by simp [hr, hf.busy], fun _ => ⟨hf.done, hf.err, hf.failw⟩, by simp [hf.failw], by simp [hf.err],
        hrec.seqPc_le, fun _ => hrec.legal, hrec⟩

/-- The invariant is not about the host's accesses and reads, the operand registers, or the answers to come. -/
theorem State.Inv.of_outside {s : State} (h : s.Inv) (arg : Word) (dbuf : DataBuf) (seen : List (HostReg × BitVec 96))
    (replies : List Reply) (timer : List TimerReply) (inputs : List Input) :
    State.Inv { s with arg := arg, dbuf := dbuf, seen := seen, replies := replies, timer := timer, inputs := inputs } :=
  ⟨h.registers, h.busy, h.clean, h.failw, h.errDone, h.seqPc, h.running, h.record⟩

theorem State.Inv.tick {s : State} (h : s.Inv) (r : Running) : (s.tick r).Inv := by
  unfold State.tick
  split
  · exact h.of_outside _ _ _ _ _ _
  · exact h.of_outside _ _ _ _ _ _

theorem State.wf_dropRequest {s : State} (r : Running) (h : Memory.wf s.target = true) :
    Memory.wf (s.dropRequest r).target = true := by
  unfold State.dropRequest
  split
  · exact h
  · exact Memory.wf_selfChange _ h

theorem State.wf_abandon {s : State} (r : Running) (landed : List Bool) (h : Memory.wf s.target = true) :
    Memory.wf (s.abandon r landed).target = true := by
  unfold State.abandon
  split
  · exact Memory.wf_landSpan _ (State.wf_dropRequest r h)
  · exact State.wf_dropRequest r h

/-- After a reset there is no last command (R45). -/
theorem State.inv_resetEngine {s : State} (h : Memory.wf s.target = true) : s.resetEngine.Inv :=
  s.resetEngine.inv_iff.mpr ⟨h, ⟨rfl, nofun, fun he => absurd rfl he⟩, .inl ⟨rfl, rfl, rfl, by simp, by simp⟩⟩

theorem State.inv_resetNow {s : State} (h : Memory.wf s.target = true) (landed : List Bool) : (s.resetNow landed).Inv := by
  unfold State.resetNow
  split
  · exact State.inv_resetEngine h
  · exact State.inv_resetEngine (State.wf_abandon _ landed h)

/-- Of a rejected command nothing has happened (R94, R251, R252). -/
theorem State.inv_reject {s : State} (h : Memory.wf s.target = true) {e : ErrCode} (he : e ≠ .ok) (hb : e ≠ .busError) :
    (s.reject e).Inv :=
  (s.reject e).inv_iff.mpr ⟨h, Status.final_failed _ nofun, .inl ⟨rfl, rfl, rfl, hb, fun _ => he⟩⟩

/-- A command that starts meets the invariant where it first waits or ends, from whatever state. -/
theorem exec_inv {i : Instr} {s t : State} (hw : Memory.wf s.target = true) (hi : decode s.cmd = .ok i)
    (h : exec i s = .next t) : t.Inv := by
  rw [exec_eq_follow] at h
  cases h
  cases hp : planOf i s.cfg s.arg s.dbuf with
  | none => exact State.inv_reject hw nofun nofun
  | some p =>
    have hm := runCommand_moves p.1 p.2 s
    obtain ⟨hcfg, hcmd, -⟩ := hm.keeps
    obtain ⟨ht, hrun⟩ := runCommand_tracks (planOf_legal hp).1 p.2 s
    refine (State.inv_iff _).mpr ⟨hm.wf hw, drive_flags _ _ s.status.working_started, .inr ?_⟩
    exact ⟨i, s.arg, s.dbuf, p, (congrArg decode hcmd).trans hi, hcfg ▸ hp, hrun, ht⟩

/-- A command that goes on after a wait meets the invariant where it next waits or ends. -/
theorem State.Inv.resume {s : State} (h : s.Inv) {r : Running} (hr : s.run = some r) :
    (drive (r.prog.length + 1) r s).Inv := by
  obtain ⟨hw, hf, hrec⟩ := s.inv_iff.mp h
  obtain ⟨i, arg, d, p, hi, hp, hprog, hfin, ht⟩ := hrec.inProgress hr
  have hm := drive_moves (r.prog.length + 1) r s
  obtain ⟨hcfg, hcmd, -⟩ := hm.keeps
  obtain ⟨ht', hrun⟩ := ht.resume (planOf_legal hp).1 hr hprog
  rw [hr] at hf
  refine (State.inv_iff _).mpr ⟨hm.wf hw, drive_flags _ r hf, .inr ?_⟩
  exact ⟨i, arg, d, p, (congrArg decode hcmd).trans hi, hcfg ▸ hp, hfin ▸ hrun, ht'⟩

/-- What the host may do in a wait keeps the invariant (R32, R45). -/
theorem State.Inv.busyInput {s : State} (h : s.Inv) : s.busyInput.Inv := by
  unfold State.busyInput
  split
  -- a read of `STATUS` or `SEQ_PC`, a reset, and any other access, which has to wait
  case h_1 | h_2 => exact h.of_outside _ _ _ _ _ _
  case h_3 => exact State.inv_resetNow (by exact h.registers) _
  all_goals exact h

/-- What the host may do with an idle engine, but for a write of `CMD`, keeps the invariant (R32, R45). -/
theorem State.Inv.idleStep {s : State} (h : s.Inv) : s.idleStep.Inv := by
  unfold State.idleStep
  split
  -- nothing to do; a write of `ARG` or `DBUF[k]`, or a read; a reset
  case h_1 | h_2 => exact h
  case h_3 | h_4 | h_5 => exact h.of_outside _ _ _ _ _ _
  case h_6 => exact State.inv_resetNow (by exact h.registers) _

/-- Settles O59: the flags and the record are carried through every round of the engine (`drive_flags`, `State.Tracks.resume`), and
what the host or a reset does keeps or clears them. -/
theorem stepKeepsInvariant : Obligations.StepKeepsInvariant := by
  intro s t h hs
  rcases step_cases hs with ⟨r, hr, -, rfl⟩ | ⟨r, -, -, rfl⟩ | ⟨-, rfl⟩ | ⟨w, rest, i, hw, he⟩ | ⟨w, rest, rfl⟩
  · exact h.resume hr
  · exact (h.tick r).busyInput
  · exact h.idleStep
  · exact exec_inv (s := { s with inputs := rest, cmd := w }) h.registers hw he
  · exact State.inv_reject (s := { s with inputs := rest, cmd := w }) h.registers nofun nofun

/-- Settles O60: the state after reset is what a reset of the engine makes of it. -/
theorem resetMeetsInvariant : Obligations.ResetMeetsInvariant :=
  State.inv_resetEngine (s := State.reset) Memory.wf_nil

/-! ### What a command writes -/

/-- What holds when the command has started, and is kept by every move of its engine and by a step of a wait, holds of every state
the command passes through. -/
theorem Along.induct_moves {i : Instr} {s t : State} {p : List Line × Finish} {P : State → Prop} (h : Along i s t)
    (hp : planOf i s.cfg s.arg s.dbuf = some p) (hstart : P s.startCommand) (hmove : ∀ t u, EngineMove p.2 t u → P t → P u)
    (hwait : ∀ t r ins sn, P t → P { State.tick t r with inputs := ins, seen := sn }) : P t := by
  have hmoves : ∀ {t u}, EngineMoves p.2 t u → P t → P u := by
    intro t u hm ht
    induction hm with
    | refl => exact ht
    | tail _ hm ih => exact hmove _ _ hm ih
  induction h with
  | first h =>
    rw [exec_eq_follow, hp] at h
    cases h
    exact hmoves (runCommand_moves p.1 p.2 s) hstart
  | @later t u r h hr hc hs ih =>
    rcases Along.step_cases hr hc hs with ⟨-, rfl⟩ | ⟨-, ins, sn, rfl, -⟩
    · obtain ⟨-, hfin⟩ := (h.tracks hp).2 r hr
      exact hmoves (hfin ▸ drive_moves (r.prog.length + 1) r t) ih
    · exact hwait t r ins sn ih

/-- `WROTE` says whether one of the events is a write that succeeded (R29). -/
def State.WroteSaysSo (s : State) : Prop := s.status.wrote = true ↔ ∃ e ∈ s.trace, e.isWrite = true ∧ e.failed = false

@[simp] theorem State.complete_wrote (s : State) (fin : Finish) (got : List Byte) :
    (s.complete fin got).status.wrote = s.status.wrote := by
  cases fin <;> rfl

theorem State.complete_inited_of_ne (s : State) {fin : Finish} (got : List Byte) (h : fin ≠ .inited) :
    (s.complete fin got).status.inited = s.status.inited := by
  rw [State.complete_status_of_ne _ _ _ h, Status.completed_inited]

/-- One event more keeps `WROTE` right if the flag is set when the event is a write that succeeded, and else stays. -/
theorem State.WroteSaysSo.snoc {s t : State} {e : Event} (h : s.WroteSaysSo) (ht : t.trace = s.trace ++ [e])
    (hw : t.status.wrote = (s.status.wrote || (e.isWrite && !e.failed))) : t.WroteSaysSo := by
  unfold State.WroteSaysSo at h ⊢
  simp [ht, hw, h, or_and_right, exists_or]

theorem EngineMove.wroteSaysSo {fin : Finish} {s t : State} (hm : EngineMove fin s t) (h : s.WroteSaysSo) : t.WroteSaysSo := by
  cases hm with
  | read => exact h.snoc rfl (by simp [Event.isWrite])
  | readFailed => exact h.snoc rfl (by simp [Event.isWrite])
  | wrote => exact h.snoc rfl (by simp [Event.isWrite, Event.failed])
  | writeFailed => exact h.snoc rfl (by simp [Event.failed])
  | slept => exact h.snoc rfl (by simp [Event.isWrite])
  | latched => exact h
  | moved => exact h
  | completed got => simpa [State.WroteSaysSo] using h
  | blocked => exact h

/-- Settles O45: every move of the engine keeps `WROTE` and the trace together. -/
theorem wroteMeansAWriteSucceeded : Obligations.WroteMeansAWriteSucceeded := by
  intro s t i h
  change t.WroteSaysSo
  cases hp : planOf i s.cfg s.arg s.dbuf with
  | none =>
    rw [h.rejected hp]
    simp [State.WroteSaysSo]
  | some p =>
    refine h.induct_moves hp ?start (fun _ _ => EngineMove.wroteSaysSo) ?waits
    case start => simp [State.WroteSaysSo]
    case waits =>
      intro t r ins sn ht
      simpa [State.WroteSaysSo] using ht

/-- What the command `i` may write when it completes: `DBUF` only if it is `RDREG`, `RES` only if it has a result, `INITED` only
if it is `INIT` (R24, R25, R29). -/
structure Finish.Suits (fin : Finish) (i : Instr) : Prop where
  dbuf : fin = .toDbuf → ∃ a len, i = .rdreg a len
  res : givesResult i = false → fin = .keep ∨ fin = .inited ∨ fin = .toDbuf
  inited : fin = .inited → i = .init

theorem Finish.keep_suits (i : Instr) : Finish.keep.Suits i := ⟨nofun, fun _ => .inl rfl, nofun⟩

/-- A command that finishes with a result is one of R25. -/
theorem Finish.suits_of_result {fin : Finish} {i : Instr} (hr : givesResult i = true) (hd : fin ≠ .toDbuf)
    (hi : fin ≠ .inited) : fin.Suits i :=
  ⟨fun h => absurd h hd, fun h => by simp [h] at hr, fun h => absurd h hi⟩

theorem planOf_suits {i : Instr} {c : Config} {arg : Word} {d : DataBuf} {p : List Line × Finish}
    (h : planOf i c arg d = some p) : p.2.Suits i := by
  have hq : ∀ q : Quantity, givesResult i = true → readPlan q c = some p → p.2.Suits i := by
    intro q hr hp
    unfold readPlan at hp
    split at hp <;> cases hp
    exact Finish.suits_of_result hr nofun nofun
  cases i with
  | rdreg a len =>
    simp only [planOf] at h
    split at h <;> cases h
    exact ⟨fun _ => ⟨a, len, rfl⟩, fun _ => .inr (.inr rfl), nofun⟩
  | wrreg a len =>
    simp only [planOf] at h
    split at h <;> cases h
    exact Finish.keep_suits _
  | wrDcdc | wrLdo | wrChgi | wrBright =>
    obtain ⟨x, -, rfl⟩ := Option.map_eq_some_iff.mp h
    exact Finish.keep_suits _
  | init =>
    obtain ⟨k, -, rfl⟩ := Option.map_eq_some_iff.mp h
    exact ⟨nofun, fun _ => .inr (.inl rfl), fun _ => rfl⟩
  | setbit | wrfld | sleepPrep | sleepRestore | buspwr | pwroff =>
    cases h
    exact Finish.keep_suits _
  | rdbit | rdfld | dec8 | dec12 | dec13 | dec16 | dec24 | dec32 | cvtPct =>
    cases h
    exact Finish.suits_of_result rfl nofun nofun
  | rdBatv | rdBati | rdBatichg | rdBatp | rdVinv | rdVini | rdVbusv | rdVbusi | rdApsv | rdTemp | rdCcin | rdCcout | rdBatpct =>
    exact hq _ rfl h

/-- Only a command that finishes with `INITED` writes it (R29). -/
theorem EngineMove.inited {fin : Finish} {s t : State} (h : EngineMove fin s t) (hf : fin ≠ .inited) :
    t.status.inited = s.status.inited := by
  cases h with
  | completed got => exact s.complete_inited_of_ne got hf
  | read | readFailed | wrote | writeFailed | slept | latched | moved | blocked => rfl

/-- Settles O49: what a command may write when it completes is fixed by its plan (`planOf_suits`), and nothing else writes these. -/
theorem whoWritesResultRegisters : Obligations.WhoWritesResultRegisters := by
  intro s t i h
  cases hp : planOf i s.cfg s.arg s.dbuf with
  | none =>
    rw [h.rejected hp]
    exact ⟨fun _ => rfl, fun _ => rfl, fun _ => rfl⟩
  | some p =>
    obtain ⟨hdbuf, hres, hinited⟩ := planOf_suits hp
    refine ⟨fun hi => ?dbuf, fun hi => ?res, fun hi => ?inited⟩
    case dbuf =>
      have hf : p.2 ≠ .toDbuf := fun hf => (hdbuf hf).elim fun a ⟨len, ha⟩ => hi a len ha
      exact h.induct_moves (P := fun t => t.dbuf = s.dbuf) hp rfl
        (fun t u hm ht => (EngineMoves.dbuf (.single hm) hf).trans ht) (fun t r _ _ ht => (t.tick_dbuf r).trans ht)
    case res =>
      exact h.induct_moves (P := fun t => t.res = s.res) hp rfl
        (fun t u hm ht => (EngineMoves.res (.single hm) (hres hi)).trans ht) (fun t r _ _ ht => (t.tick_res r).trans ht)
    case inited =>
      have hf : p.2 ≠ .inited := fun hf => hi (hinited hf)
      exact h.induct_moves (P := fun t => t.status.inited = s.status.inited) hp rfl
        (fun t u hm ht => (hm.inited hf).trans ht) (fun t r _ _ ht => (congrArg Status.inited (t.tick_status r)).trans ht)

/-! ### Where `SEQ_PC` is -/

/-- A command that has ended without exception has come to its end index (R27). -/
theorem State.Tracks.ended {t : State} {prog : List Line} (h : t.Tracks prog) (hr : t.run = none) (he : t.status.err = .ok) :
    t.seqPc.toNat = prog.length := by
  obtain ⟨done, part, -, -, hm⟩ := h
  rw [hr] at hm
  rcases hm with ⟨-, hend, -⟩ | ⟨hb, -⟩
  · exact hend
  · rw [he] at hb
    cases hb

/-- Settles O50: every state of a command is tracked by its program (`Along.tracks`), whose length is the end index of R27. -/
theorem seqPcFollowsTheProgram : Obligations.SeqPcFollowsTheProgram := by
  intro s t i h
  refine ⟨fun p hp => (h.tracks hp).1, fun hr he => ?_⟩
  cases hp : planOf i s.cfg s.arg s.dbuf with
  | none =>
    rw [h.rejected hp] at he
    cases he
  | some p =>
    apply BitVec.eq_of_toNat_eq
    rw [(h.tracks hp).1.ended hr he, (planOf_legal hp).2]

/-! ### The host and a command that waits -/

/-- Settles O54: the host reads the flags and `SEQ_PC` as they stand, and a step of the wait changes neither. -/
theorem waitingCommandShowsBusy : Obligations.WaitingCommandShowsBusy := by
  intro s r rest hbusy hdone hr hn
  refine ⟨fun hi => ?status, fun hi => ?seqPc⟩
  case status =>
    have hs : step s = .next (State.observe { s.tick r with inputs := rest } .status) := by
      rw [step_waiting hr hn]
      simp [State.busyInput, hi]
    have hv : State.hostRead { s.tick r with inputs := rest } .status = s.hostRead .status := by
      simp [State.hostRead]
    refine ⟨_, s.hostRead .status, hs, by rw [State.observe_seen, hv]; simp, s.hostRead_status_toNat, ?_, ?_, by simpa using hr, rfl,
      by simp [State.allEvents]⟩
    · rw [State.hostRead, BitVec.getLsbD_setWidth, Status.toByte_bit0, hbusy]
      rfl
    · rw [State.hostRead, BitVec.getLsbD_setWidth, Status.toByte_bit1, hdone]
      rfl
  case seqPc =>
    have hs : step s = .next (State.observe { s.tick r with inputs := rest } .seqPc) := by
      rw [step_waiting hr hn]
      simp [State.busyInput, hi]
    exact ⟨_, hs, by simp [State.hostRead], by simpa using hr, rfl, by simp [State.allEvents]⟩

/-- Settles O57: the engine is reset, and of the target only what a cut-off write sent can differ (`Memory.byte_landSpan_ne`). -/
theorem resetAbandonsCommand : Obligations.ResetAbandonsCommand := by
  intro s r landed rest hr hn hi
  have hsleep : r.sleeping { s.tick r with inputs := rest } = r.sleeping s := r.sleeping_tick s
  have hwrite : r.pendingWrite { s.tick r with inputs := rest } = r.pendingWrite s := r.pendingWrite_tick s
  have hnow : State.targetNow { s.tick r with inputs := rest } = s.targetNow := s.tick_targetNow r
  refine ⟨_, step_reset_waiting hr hn hi, ?status, rfl, rfl, by simp [State.allEvents], by simp, ?sleeping, ?written⟩
  case status =>
    rw [State.resetEngine_status]
    rfl
  case sleeping =>
    intro h
    rw [State.resetEngine_target, State.abandon_target_sleeping landed (hsleep.trans h)]
    exact s.tick_target r
  case written =>
    intro x hold hserved
    rw [State.resetEngine_target] at hold hserved ⊢
    cases h : r.sleeping s with
    | true =>
      rw [State.abandon_target_sleeping landed (hsleep.trans h)] at hold
      simp at hold
    | false =>
      rcases State.abandon_target_cases landed (hsleep.trans h) with ⟨-, ht⟩ | ⟨a, bytes, hw, ht⟩
      · rw [ht, hnow] at hserved
        exact absurd rfl hserved
      · rw [ht, hnow] at hserved ⊢
        obtain ⟨k, hx, hb⟩ := Memory.byte_landSpan_ne hserved
        exact ⟨a, bytes, k, hwrite ▸ hw, hx, hb⟩

/-! ### The idle engine -/

/-- Settles O6: a legal word that the host writes next is what the idle engine fetches (`step_legal`). -/
theorem stepRunsDecodedCommand : Obligations.StepRunsDecodedCommand :=
  fun _ _ _ _ => step_legal

/-- Settles O55: each access of the host is its own case of the idle engine's step. -/
theorem idleHostAccesses : Obligations.IdleHostAccesses := by
  intro s rest hr
  refine ⟨fun hi => ?nothing, fun v hi => ?arg, fun k b hi => ?dbuf, fun r hi => ?read⟩
  case nothing =>
    rw [step_idle hr (by simp [State.fetch, hi])]
    simp [State.idleStep, hi]
  case arg =>
    rw [step_idle hr (by simp [State.fetch, hi])]
    simp [State.idleStep, hi]
  case dbuf =>
    refine ⟨{ s with inputs := rest, dbuf := s.dbuf.put k b }, ?_, s.dbuf.get_put_same k b,
      fun j hj => s.dbuf.get_put_ne b hj, rfl⟩
    rw [step_idle hr (by simp [State.fetch, hi])]
    simp [State.idleStep, hi]
  case read =>
    refine ⟨s.hostRead r, ?_, ?_⟩
    · rw [step_idle hr (by simp [State.fetch, hi])]
      simp only [State.idleStep, hi]
      cases r <;> rfl
    · have hd : ∀ k, r = .dbuf k → (s.hostRead r).toNat = (s.dbuf.get k).toNat := by
        rintro k rfl
        exact s.hostRead_dbuf_toNat k
      refine ⟨?cmd, ?arg, hd 0, hd 1, hd 2, hd 3, ?res, ?status, ?seqPc⟩
      case cmd | arg | seqPc =>
        rintro rfl
        exact BitVec.toNat_setWidth_of_le (by decide)
      case res =>
        rintro rfl
        rfl
      case status =>
        rintro rfl
        exact s.hostRead_status_toNat

end Sys2Proof.Machine

/-! The family of 20_memory.md: the record of events only grows (R36, R73 (d)). -/

namespace Sys2Proof.Machine

/-! ### What leaves the record of events as it is -/

section
variable (s : State)

@[simp] theorem State.startCommand_allEvents : s.startCommand.allEvents = s.allEvents := by simp [State.allEvents]
@[simp] theorem State.reject_allEvents (e : ErrCode) : (s.reject e).allEvents = s.allEvents := by simp [State.allEvents]
@[simp] theorem State.observe_allEvents (r : HostReg) : (s.observe r).allEvents = s.allEvents := rfl
@[simp] theorem State.tick_allEvents (r : Running) : (s.tick r).allEvents = s.allEvents := by simp [State.allEvents]
@[simp] theorem State.abandon_allEvents (r : Running) (landed : List Bool) : (s.abandon r landed).allEvents = s.allEvents := by
  simp [State.allEvents]
@[simp] theorem State.resetEngine_allEvents : s.resetEngine.allEvents = s.allEvents := by simp [State.allEvents]

/-- A reset cuts a command off, not its events: its trace joins the traces before it (R45). -/
@[simp] theorem State.resetNow_allEvents (landed : List Bool) : (s.resetNow landed).allEvents = s.allEvents := by
  unfold State.resetNow
  split
  · exact s.resetEngine_allEvents
  · exact (State.resetEngine_allEvents _).trans (s.abandon_allEvents _ landed)

/-- Whatever the host does in a wait is no event (R32, R36, R45). -/
@[simp] theorem State.busyInput_allEvents : s.busyInput.allEvents = s.allEvents := by
  unfold State.busyInput
  split
  -- a read of `STATUS` or `SEQ_PC`, a reset, and any other access, which has to wait
  case h_1 | h_2 => exact State.observe_allEvents _ _
  case h_3 => exact State.resetNow_allEvents _ _
  all_goals rfl

/-- Whatever the host does with an idle engine, but for a write of `CMD`, is no event (R32, R36, R45). -/
@[simp] theorem State.idleStep_allEvents : s.idleStep.allEvents = s.allEvents := by
  unfold State.idleStep
  split
  -- nothing to do, or a write of `ARG` or `DBUF[k]`; a read; a reset
  case h_1 | h_2 | h_3 | h_4 => rfl
  case h_5 => exact State.observe_allEvents _ _
  case h_6 => exact State.resetNow_allEvents _ _

end

/-! ### What adds to the record of events -/

/-- Running a micro-program only adds to the events: it extends the trace and keeps the traces before it (R36). -/
theorem EngineMoves.allEvents_prefix {fin : Finish} {s t : State} (h : EngineMoves fin s t) : s.allEvents <+: t.allEvents := by
  obtain ⟨-, -, -, -, -, hhistory⟩ := h.keeps
  rw [State.allEvents, State.allEvents, hhistory]
  exact (List.prefix_append_right_inj _).mpr h.trace_prefix

/-- A command, run or rejected, starts its own trace after the events before it (R36). -/
theorem exec_allEvents_prefix {i : Instr} {s t : State} (h : exec i s = .next t) : s.allEvents <+: t.allEvents := by
  rw [exec_eq_follow] at h
  cases h
  cases planOf i s.cfg s.arg s.dbuf with
  | none => exact (s.reject_allEvents .invalidArgument).symm ▸ List.prefix_rfl
  | some p => exact s.startCommand_allEvents ▸ (runCommand_moves p.1 p.2 s).allEvents_prefix

/-- Settles O58: a step that runs a command adds its events at the end, and no other step touches the record. -/
theorem eventsAreOnlyAppended : Obligations.EventsAreOnlyAppended := by
  intro s t h
  rcases step_cases h with ⟨r, -, -, rfl⟩ | ⟨r, -, -, rfl⟩ | ⟨-, rfl⟩ | ⟨w, rest, i, -, he⟩ | ⟨w, rest, rfl⟩
  · exact (drive_moves (r.prog.length + 1) r s).allEvents_prefix
  · rw [State.busyInput_allEvents, State.tick_allEvents]
  · rw [State.idleStep_allEvents]
  · exact exec_allEvents_prefix (s := { s with inputs := rest, cmd := w }) he
  · exact (State.reject_allEvents { s with inputs := rest, cmd := w } .illegalCommand).symm ▸ List.prefix_rfl

end Sys2Proof.Machine

/-! The family of 30_encoding.md: every command is read back from its word, every legal word is the word of one command, and the
decoder is the opcode map (R91 to R95, R99). -/

namespace Sys2Proof

/-! ### The fields of a word, format by format (R91) -/

section

variable (w : Word)

theorem ofBool_fieldBit0 : BitVec.ofBool (fieldBit0 w) = w.extractLsb' 0 1 := by
  ext i hi
  obtain rfl : i = 0 := by omega
  simp [fieldBit0]

theorem bitOfMode_modeOfBit (b : Bool) : bitOfMode (modeOfBit b) = b := by cases b <;> rfl

theorem append_fieldsN : fieldOp w ++ w.extractLsb' 0 24 = w := by
  simp only [fieldOp, BitVec.extractLsb'_append_extractLsb'_eq_extractLsb', BitVec.extractLsb'_eq_self]

theorem append_fieldsS : fieldOp w ++ fieldA w ++ w.extractLsb' 11 5 ++ fieldLen w ++ w.extractLsb' 0 8 = w := by
  simp only [fieldOp, fieldA, fieldLen, BitVec.extractLsb'_append_extractLsb'_eq_extractLsb', BitVec.extractLsb'_eq_self]

theorem append_fieldsB :
    fieldOp w ++ fieldA w ++ w.extractLsb' 11 5 ++ fieldLen w ++ w.extractLsb' 1 7 ++ BitVec.ofBool (fieldBit0 w) = w := by
  simp only [ofBool_fieldBit0, fieldOp, fieldA, fieldLen, BitVec.extractLsb'_append_extractLsb'_eq_extractLsb',
    BitVec.extractLsb'_eq_self]

theorem append_fieldsF : fieldOp w ++ fieldA w ++ fieldM w ++ w.extractLsb' 3 5 ++ fieldShift w = w := by
  simp only [fieldOp, fieldA, fieldM, fieldShift, BitVec.extractLsb'_append_extractLsb'_eq_extractLsb',
    BitVec.extractLsb'_eq_self]

theorem append_fieldsX : fieldOp w ++ fieldA w ++ w.extractLsb' 0 16 = w := by
  simp only [fieldOp, fieldA, BitVec.extractLsb'_append_extractLsb'_eq_extractLsb', BitVec.extractLsb'_eq_self]

theorem append_fieldsP : fieldOp w ++ w.extractLsb' 1 23 ++ BitVec.ofBool (fieldBit0 w) = w := by
  simp only [ofBool_fieldBit0, fieldOp, BitVec.extractLsb'_append_extractLsb'_eq_extractLsb', BitVec.extractLsb'_eq_self]

variable {w}

/-! ### A word is the word of its operands when its must-be-zero bits are zero (R93) -/

theorem fieldOp_wordP (op : Byte) (mode : BusMode) : fieldOp (wordP op mode) = op := by
  apply BitVec.eq_of_getLsbD_eq
  intro i hi
  simp only [fieldOp, wordP, BitVec.getLsbD_extractLsb', BitVec.getLsbD_append]
  interval_cases i <;> simp

theorem zeroP_wordP (op : Byte) (mode : BusMode) : zeroP (wordP op mode) = true := by
  rw [zeroP, beq_iff_eq]
  apply BitVec.eq_of_getLsbD_eq
  intro i hi
  simp only [wordP, BitVec.getLsbD_extractLsb', BitVec.getLsbD_append]
  interval_cases i <;> simp

theorem modeOfBit_fieldBit0_wordP (op : Byte) (mode : BusMode) : modeOfBit (fieldBit0 (wordP op mode)) = mode := by
  rw [fieldBit0, wordP, BitVec.getLsbD_append]
  cases mode <;> rfl

variable {op addr mask index : Byte} {len shift : BitVec 3} {v : Bool} {mode : BusMode}

theorem eq_wordN_iff : w = wordN op ↔ fieldOp w = op ∧ zeroN w = true := by
  constructor
  · rintro rfl
    exact ⟨fieldOp_wordN op, zeroN_wordN op⟩
  · rintro ⟨rfl, h⟩
    rw [zeroN, beq_iff_eq] at h
    rw [wordN, ← h, append_fieldsN]

theorem eq_wordS_iff :
    w = wordS op addr len ↔ fieldOp w = op ∧ fieldA w = addr ∧ fieldLen w = len ∧ zeroS w = true := by
  constructor
  · rintro rfl
    exact ⟨fieldOp_wordS .., fieldA_wordS .., fieldLen_wordS .., zeroS_wordS ..⟩
  · rintro ⟨rfl, rfl, rfl, h⟩
    rw [zeroS, Bool.and_eq_true, beq_iff_eq, beq_iff_eq] at h
    obtain ⟨hhigh, hlow⟩ := h
    rw [wordS, ← hhigh, ← hlow, append_fieldsS]

theorem eq_wordB_iff : w = wordB op addr len v ↔
    fieldOp w = op ∧ fieldA w = addr ∧ fieldLen w = len ∧ fieldBit0 w = v ∧ zeroB w = true := by
  constructor
  · rintro rfl
    exact ⟨fieldOp_wordB .., fieldA_wordB .., fieldLen_wordB .., fieldBit0_wordB .., zeroB_wordB ..⟩
  · rintro ⟨rfl, rfl, rfl, rfl, h⟩
    rw [zeroB, Bool.and_eq_true, beq_iff_eq, beq_iff_eq] at h
    obtain ⟨hhigh, hlow⟩ := h
    rw [wordB, ← hhigh, ← hlow, append_fieldsB]

theorem eq_wordF_iff : w = wordF op addr mask shift ↔
    fieldOp w = op ∧ fieldA w = addr ∧ fieldM w = mask ∧ fieldShift w = shift ∧ zeroF w = true := by
  constructor
  · rintro rfl
    exact ⟨fieldOp_wordF .., fieldA_wordF .., fieldM_wordF .., fieldShift_wordF .., zeroF_wordF ..⟩
  · rintro ⟨rfl, rfl, rfl, rfl, h⟩
    rw [zeroF, beq_iff_eq] at h
    rw [wordF, ← h, append_fieldsF]

theorem eq_wordX_iff : w = wordX op index ↔ fieldOp w = op ∧ fieldA w = index ∧ zeroX w = true := by
  constructor
  · rintro rfl
    exact ⟨fieldOp_wordX .., fieldA_wordX .., zeroX_wordX ..⟩
  · rintro ⟨rfl, rfl, h⟩
    rw [zeroX, beq_iff_eq] at h
    rw [wordX, ← h, append_fieldsX]

theorem eq_wordP_iff : w = wordP op mode ↔ fieldOp w = op ∧ modeOfBit (fieldBit0 w) = mode ∧ zeroP w = true := by
  constructor
  · rintro rfl
    exact ⟨fieldOp_wordP .., modeOfBit_fieldBit0_wordP .., zeroP_wordP ..⟩
  · rintro ⟨rfl, rfl, h⟩
    rw [zeroP, beq_iff_eq] at h
    rw [wordP, bitOfMode_modeOfBit, ← h, append_fieldsP]

/-! ### What the mask of a format checks: the opcode and the must-be-zero bits (R95) -/

/-- A mask that is all ones on a field leaves the field as it is. -/
theorem extractLsb'_and_of_allOnes {m : Word} {start n : Nat} (h : m.extractLsb' start n = BitVec.allOnes n) :
    (w &&& m).extractLsb' start n = w.extractLsb' start n := by
  rw [BitVec.extractLsb'_and, h, BitVec.and_allOnes]

/-- A mask that is zero on a field clears the field. -/
theorem extractLsb'_and_of_zero {m : Word} {start n : Nat} (h : m.extractLsb' start n = 0#n) :
    (w &&& m).extractLsb' start n = 0#n := by
  rw [BitVec.extractLsb'_and, h, BitVec.and_zero]

theorem and_maskN_eq_iff : w &&& 0xFFFFFFFF#32 = wordN op ↔ fieldOp w = op ∧ zeroN w = true := by
  rw [show w &&& 0xFFFFFFFF#32 = w from BitVec.and_allOnes, eq_wordN_iff]

theorem and_maskS_eq_iff : w &&& 0xFF00F8FF#32 = wordS op 0 0 ↔ fieldOp w = op ∧ zeroS w = true := by
  rw [eq_wordS_iff]
  simp [fieldOp, fieldA, fieldLen, zeroS, extractLsb'_and_of_allOnes, extractLsb'_and_of_zero]

theorem and_maskB_eq_iff : w &&& 0xFF00F8FE#32 = wordB op 0 0 false ↔ fieldOp w = op ∧ zeroB w = true := by
  rw [eq_wordB_iff]
  simp [fieldOp, fieldA, fieldLen, fieldBit0, zeroB, extractLsb'_and_of_allOnes, extractLsb'_and_of_zero]

theorem and_maskF_eq_iff : w &&& 0xFF0000F8#32 = wordF op 0 0 0 ↔ fieldOp w = op ∧ zeroF w = true := by
  rw [eq_wordF_iff]
  simp [fieldOp, fieldA, fieldM, fieldShift, zeroF, extractLsb'_and_of_allOnes, extractLsb'_and_of_zero]

theorem and_maskX_eq_iff : w &&& 0xFF00FFFF#32 = wordX op 0 ↔ fieldOp w = op ∧ zeroX w = true := by
  rw [eq_wordX_iff]
  simp [fieldOp, fieldA, zeroX, extractLsb'_and_of_allOnes, extractLsb'_and_of_zero]

theorem and_maskP_eq_iff : w &&& 0xFFFFFFFE#32 = wordP op .sink ↔ fieldOp w = op ∧ zeroP w = true := by
  rw [eq_wordP_iff]
  simp [fieldOp, fieldBit0, modeOfBit, zeroP, extractLsb'_and_of_allOnes]

end

/-! ### The decoder, row by row of the opcode map (R95) -/

theorem ifZero_eq_ok_iff {mbz : Bool} {i j : Instr} : ifZero mbz i = .ok j ↔ mbz = true ∧ i = j := by
  cases mbz <;> simp [ifZero]

theorem ifZero_ne_unassignedOpcode (mbz : Bool) (i : Instr) : ifZero mbz i ≠ .error .unassignedOpcode := by
  cases mbz <;> simp [ifZero]

/-- The opcode of a row: the top byte of its match. -/
def OpcodeRow.opcode (row : OpcodeRow) : Byte := fieldOp row.matchBits

/-- The decoder reads a row: of a word with the row's opcode it checks the bits `zero` names and answers the command `instr` takes
from the fields. -/
structure OpcodeRow.Reads (row : OpcodeRow) (zero : Word → Bool) (instr : Word → Instr) : Prop where
  matches_iff : ∀ w, w &&& row.mask = row.matchBits ↔ fieldOp w = row.opcode ∧ zero w = true
  decode_eq : ∀ w, fieldOp w = row.opcode → decode w = ifZero (zero w) (instr w)
  encode_eq : ∀ w, fieldOp w = row.opcode → zero w = true → encode (instr w) = w
  mnemonic_eq : ∀ w, (instr w).mnemonic = row.mnemonic

/-- A format of R91: the word of an opcode and operands, how the operands are read back, which bits must be zero, and the mask R95
gives its rows; a row's match is the word of `least`, the operands that are all zero. -/
structure Format (α : Type) where
  word : Byte → α → Word
  operands : Word → α
  zero : Word → Bool
  mask : Word
  least : α
  eq_word_of_zero : ∀ {w}, zero w = true → w = word (fieldOp w) (operands w)
  and_mask_eq_iff : ∀ {w op}, w &&& mask = word op least ↔ fieldOp w = op ∧ zero w = true

/-- No operands. -/
def Format.n : Format Unit where
  word op _ := wordN op
  operands _ := ()
  zero := zeroN
  mask := 0xFFFFFFFF#32
  least := ()
  eq_word_of_zero h := eq_wordN_iff.mpr ⟨rfl, h⟩
  and_mask_eq_iff := and_maskN_eq_iff

/-- A register address and a length or a bit: format S, and `RDBIT`'s B. -/
def Format.s : Format (Byte × BitVec 3) where
  word op x := wordS op x.1 x.2
  operands w := (fieldA w, fieldLen w)
  zero := zeroS
  mask := 0xFF00F8FF#32
  least := (0, 0)
  eq_word_of_zero h := eq_wordS_iff.mpr ⟨rfl, rfl, rfl, h⟩
  and_mask_eq_iff := and_maskS_eq_iff

/-- A register address, a bit and its value: `SETBIT`'s B. -/
def Format.b : Format (Byte × BitVec 3 × Bool) where
  word op x := wordB op x.1 x.2.1 x.2.2
  operands w := (fieldA w, fieldLen w, fieldBit0 w)
  zero := zeroB
  mask := 0xFF00F8FE#32
  least := (0, 0, false)
  eq_word_of_zero h := eq_wordB_iff.mpr ⟨rfl, rfl, rfl, rfl, h⟩
  and_mask_eq_iff := and_maskB_eq_iff

/-- A register address, a mask and a shift. -/
def Format.f : Format (Byte × Byte × BitVec 3) where
  word op x := wordF op x.1 x.2.1 x.2.2
  operands w := (fieldA w, fieldM w, fieldShift w)
  zero := zeroF
  mask := 0xFF0000F8#32
  least := (0, 0, 0)
  eq_word_of_zero h := eq_wordF_iff.mpr ⟨rfl, rfl, rfl, rfl, h⟩
  and_mask_eq_iff := and_maskF_eq_iff

/-- An index. -/
def Format.x : Format Byte where
  word := wordX
  operands := fieldA
  zero := zeroX
  mask := 0xFF00FFFF#32
  least := 0
  eq_word_of_zero h := eq_wordX_iff.mpr ⟨rfl, rfl, h⟩
  and_mask_eq_iff := and_maskX_eq_iff

/-- A bus-power mode. -/
def Format.p : Format BusMode where
  word := wordP
  operands w := modeOfBit (fieldBit0 w)
  zero := zeroP
  mask := 0xFFFFFFFE#32
  least := .sink
  eq_word_of_zero h := eq_wordP_iff.mpr ⟨rfl, rfl, h⟩
  and_mask_eq_iff := and_maskP_eq_iff

/-- A row is read in a format once `decode` and `encode` have its arm and its command has its mnemonic. -/
theorem Format.reads {α : Type} {name : String} {m : Word} (F : Format α) (instr : α → Instr)
    (hm : m = F.word (fieldOp m) F.least := by rfl)
    (hdec : ∀ w, fieldOp w = fieldOp m → decode w = ifZero (F.zero w) (instr (F.operands w)) := by
      intro w h; unfold decode; rw [h]; rfl)
    (henc : ∀ x, encode (instr x) = F.word (fieldOp m) x := by intro; rfl)
    (hname : ∀ x, (instr x).mnemonic = name := by intro; rfl) :
    ∃ zero instr, OpcodeRow.Reads ⟨name, m, F.mask⟩ zero instr :=
  ⟨F.zero, fun w => instr (F.operands w),
    { matches_iff := fun _ => (Eq.congr_right hm).trans F.and_mask_eq_iff
      decode_eq := hdec
      encode_eq := fun _ hop hzero => (henc _).trans (hop ▸ F.eq_word_of_zero hzero).symm
      mnemonic_eq := fun _ => hname _ }⟩

section

open Format

/-- Every row of the opcode map is read, in the format R95 gives it. -/
theorem opcodeMap_reads : ∀ row ∈ opcodeMap, ∃ zero instr, row.Reads zero instr := by
  simp only [opcodeMap, List.forall_mem_cons]
  exact ⟨s.reads fun x => .rdreg x.1 x.2, s.reads fun x => .wrreg x.1 x.2, s.reads fun x => .rdbit x.1 x.2,
    b.reads fun x => .setbit x.1 x.2.1 x.2.2, f.reads fun x => .rdfld x.1 x.2.1 x.2.2, f.reads fun x => .wrfld x.1 x.2.1 x.2.2,
    n.reads fun _ => .dec8, n.reads fun _ => .dec12, n.reads fun _ => .dec13, n.reads fun _ => .dec16, n.reads fun _ => .dec24,
    n.reads fun _ => .dec32, n.reads fun _ => .rdBatv, n.reads fun _ => .rdBati, n.reads fun _ => .rdBatichg,
    n.reads fun _ => .rdBatp, n.reads fun _ => .rdVinv, n.reads fun _ => .rdVini, n.reads fun _ => .rdVbusv,
    n.reads fun _ => .rdVbusi, n.reads fun _ => .rdApsv, n.reads fun _ => .rdTemp, n.reads fun _ => .rdCcin,
    n.reads fun _ => .rdCcout, n.reads fun _ => .rdBatpct, n.reads fun _ => .cvtPct, x.reads .wrDcdc, x.reads .wrLdo,
    n.reads fun _ => .wrChgi, n.reads fun _ => .wrBright, n.reads fun _ => .init, n.reads fun _ => .sleepPrep,
    n.reads fun _ => .sleepRestore, p.reads .buspwr, n.reads fun _ => .pwroff, List.forall_mem_nil _⟩

end

/-- A word whose opcode is of no row is unassigned: each arm of the decoder is the arm of a row. -/
theorem decode_eq_unassignedOpcode {w : Word} (h : fieldOp w ∉ opcodeMap.map OpcodeRow.opcode) :
    decode w = .error .unassignedOpcode := by
  rw [← BitVec.setWidth_eq (fieldOp w), ← BitVec.ofNat_toNat] at h
  unfold decode
  generalize (fieldOp w).toNat = n at h
  split
  case h_36 => rfl
  all_goals exact absurd (by decide) h

/-- A word that matches a row decodes to a command of the row, and it is that command's word. -/
theorem decode_of_matches {w : Word} {row : OpcodeRow} (hrow : row ∈ opcodeMap) (h : w &&& row.mask = row.matchBits) :
    ∃ i, decode w = .ok i ∧ i.mnemonic = row.mnemonic ∧ encode i = w := by
  obtain ⟨zero, instr, hreads⟩ := opcodeMap_reads row hrow
  obtain ⟨hop, hzero⟩ := (hreads.matches_iff w).mp h
  exact ⟨instr w, (hreads.decode_eq w hop).trans (ifZero_eq_ok_iff.mpr ⟨hzero, rfl⟩), hreads.mnemonic_eq w,
    hreads.encode_eq w hop hzero⟩

/-- A word is refused for its opcode exactly when its opcode is of no row; a must-be-zero bit that is set is the other reason. -/
theorem decode_eq_unassignedOpcode_iff {w : Word} :
    decode w = .error .unassignedOpcode ↔ ∀ row ∈ opcodeMap, fieldOp w ≠ row.opcode := by
  constructor
  · intro h row hrow hop
    obtain ⟨zero, instr, hreads⟩ := opcodeMap_reads row hrow
    exact ifZero_ne_unassignedOpcode _ _ ((hreads.decode_eq w hop).symm.trans h)
  · intro h
    apply decode_eq_unassignedOpcode
    intro hmem
    obtain ⟨row, hrow, hop⟩ := List.mem_map.mp hmem
    exact h row hrow hop.symm

/-- A word that decodes matches the row of its command, and it is the command's word. -/
theorem exists_row_of_decode {w : Word} {i : Instr} (h : decode w = .ok i) :
    ∃ row ∈ opcodeMap, w &&& row.mask = row.matchBits ∧ i.mnemonic = row.mnemonic ∧ encode i = w := by
  by_cases hop : ∃ row ∈ opcodeMap, fieldOp w = row.opcode
  · obtain ⟨row, hrow, hop⟩ := hop
    obtain ⟨zero, instr, hreads⟩ := opcodeMap_reads row hrow
    obtain ⟨hzero, rfl⟩ := ifZero_eq_ok_iff.mp ((hreads.decode_eq w hop).symm.trans h)
    exact ⟨row, hrow, (hreads.matches_iff w).mpr ⟨hop, hzero⟩, hreads.mnemonic_eq w, hreads.encode_eq w hop hzero⟩
  · have herr := decode_eq_unassignedOpcode_iff.mpr fun row hrow h => hop ⟨row, hrow, h⟩
    exact nomatch h.symm.trans herr

/-- No two rows have the same mnemonic. -/
theorem opcodeMap_mnemonic_inj {r r' : OpcodeRow} (hr : r ∈ opcodeMap) (hr' : r' ∈ opcodeMap)
    (h : r.mnemonic = r'.mnemonic) : r = r' :=
  List.inj_on_of_nodup_map (f := OpcodeRow.mnemonic) (by decide) hr hr' h

/-! ### The statements -/

/-- Settles O1: one lemma per command. -/
theorem decodeOfEncode : Obligations.DecodeOfEncode := by
  open Laws.RoundTrip in
  exact fun i => i.casesOn (motive := Statement) rdreg wrreg rdbit setbit rdfld wrfld dec8 dec12 dec13 dec16 dec24 dec32 rdBatv
    rdBati rdBatichg rdBatp rdVinv rdVini rdVbusv rdVbusi rdApsv rdTemp rdCcin rdCcout rdBatpct cvtPct wrDcdc wrLdo wrChgi
    wrBright init sleepPrep sleepRestore buspwr pwroff

/-- Settles O2: the word matches the row of its command, so its fields and the zeros between them are all of it. -/
theorem encodeOfDecode : Obligations.EncodeOfDecode := by
  intro w i h
  obtain ⟨row, -, -, -, hword⟩ := exists_row_of_decode h
  exact hword

/-- Settles O3: a matching word decodes to a command of the row; a word that decodes matches a row with the mnemonic of its
command, and there is only one. -/
theorem decodeFollowsOpcodeMap : Obligations.DecodeFollowsOpcodeMap := by
  intro w row hrow
  constructor
  · intro hmatch
    obtain ⟨i, hdec, hname, -⟩ := decode_of_matches hrow hmatch
    exact ⟨i, hdec, hname⟩
  · rintro ⟨i, hdec, hname⟩
    obtain ⟨row', hrow', hmatch, hname', -⟩ := exists_row_of_decode hdec
    obtain rfl : row' = row := opcodeMap_mnemonic_inj hrow' hrow (hname'.symm.trans hname)
    exact hmatch

/-- Settles O4: a word that decodes matches a row and a word that matches a row decodes; the opcode is the reason exactly when no
row has it. -/
theorem illegalWordsMatchNoRow : Obligations.IllegalWordsMatchNoRow := by
  intro w
  refine ⟨⟨?_, ?_⟩, decode_eq_unassignedOpcode_iff⟩
  · rintro ⟨e, he⟩ row hrow hmatch
    obtain ⟨i, hi, -, -⟩ := decode_of_matches hrow hmatch
    exact nomatch hi.symm.trans he
  · intro hnone
    cases hdec : decode w with
    | error e => exact ⟨e, rfl⟩
    | ok i =>
      obtain ⟨row, hrow, hmatch, -, -⟩ := exists_row_of_decode hdec
      exact absurd hmatch (hnone row hrow)

/-- Settles O5: a legal word is the word of the command the rule names; the illegal ones are evaluated. -/
theorem workedEncodings : Obligations.WorkedEncodings :=
  ⟨decodeOfEncode (.rdreg 0x78 2), decodeOfEncode (.wrreg 0x82 1), decodeOfEncode (.rdbit 0x00 3),
    decodeOfEncode (.setbit 0x12 2 true), decodeOfEncode (.setbit 0x12 1 false), decodeOfEncode (.rdfld 0x28 0xF0 4),
    decodeOfEncode (.wrfld 0x33 0x0F 0), decodeOfEncode .dec12, decodeOfEncode .rdTemp, decodeOfEncode (.wrDcdc 2),
    decodeOfEncode (.wrLdo 1), decodeOfEncode .init, decodeOfEncode (.buspwr .source), rfl, rfl, rfl, rfl,
    decodeOfEncode (.rdreg 0x78 0), decodeOfEncode (.rdreg 0x78 5), decodeOfEncode (.wrDcdc 3)⟩

end Sys2Proof

/-! The family of 40_register_access.md: `RDREG` and `WRREG`, one transaction of one to four bytes, and the domain both check before
it (R120, R121, R122). -/

namespace Sys2Proof.Machine

/-! ### A command that has a plan, and one that has none -/

theorem exec_of_plan {i : Instr} {s : State} {p : List Line × Finish} (h : planOf i s.cfg s.arg s.dbuf = some p) :
    exec i s = .next (runCommand p.1 p.2 s) := by
  rw [exec_eq_follow, h]
  rfl

theorem exec_rejects_of_no_plan {i : Instr} {s : State} (h : planOf i s.cfg s.arg s.dbuf = none) :
    ∃ t, exec i s = .next t ∧ Rejected s t .invalidArgument := by
  rw [exec_eq_follow, h]
  exact ⟨_, rfl, Rejected.of_reject s _⟩

/-! ### The domain of a span (R122) -/

theorem spanLegal_iff {a : Byte} {n : Nat} : spanLegal a n = true ↔ 1 ≤ n ∧ n ≤ 4 ∧ a.toNat + n ≤ 256 := by
  simp [spanLegal, spanFits, and_assoc]

theorem not_spanLegal_iff {a : Byte} {n : Nat} : ¬ spanLegal a n = true ↔ n < 1 ∨ 4 < n ∨ 256 < a.toNat + n := by
  rw [spanLegal_iff]
  omega

section
variable {s : State} {a : Byte} {len : BitVec 3}

theorem exec_rdreg (h : spanLegal a len.toNat = true) :
    exec (.rdreg a len) s = .next (runCommand [{ entry := .rd a len.toNat }] .toDbuf s) :=
  exec_of_plan (i := .rdreg a len) (if_pos h)

theorem exec_wrreg (h : spanLegal a len.toNat = true) :
    exec (.wrreg a len) s = .next (runCommand [{ entry := .wr a (s.dbuf.toList.take len.toNat) }] .keep s) :=
  exec_of_plan (i := .wrreg a len) (if_pos h)

theorem exec_rdreg_rejects (h : len.toNat < 1 ∨ 4 < len.toNat ∨ 256 < a.toNat + len.toNat) :
    ∃ t, exec (.rdreg a len) s = .next t ∧ Rejected s t .invalidArgument :=
  exec_rejects_of_no_plan (if_neg (not_spanLegal_iff.mpr h))

theorem exec_wrreg_rejects (h : len.toNat < 1 ∨ 4 < len.toNat ∨ 256 < a.toNat + len.toNat) :
    ∃ t, exec (.wrreg a len) s = .next t ∧ Rejected s t .invalidArgument :=
  exec_rejects_of_no_plan (if_neg (not_spanLegal_iff.mpr h))

end

/-! ### The bytes of `DBUF` (R24) -/

@[simp] theorem DataBuf.length_toList (d : DataBuf) : d.toList.length = 4 := rfl

/-- The bytes loaded come first; the rest of the buffer is as it was (R120). -/
theorem DataBuf.toList_load (d : DataBuf) {bytes : List Byte} (h : bytes.length ≤ 4) :
    (d.load bytes).toList = bytes ++ d.toList.drop bytes.length := by
  match bytes, h with
  | [], _ | [_], _ | [_, _], _ | [_, _, _], _ | [_, _, _, _], _ => rfl
  | _ :: _ :: _ :: _ :: _ :: _, h => exact absurd h (by simp)

@[simp] theorem Memory.length_span (m : Memory) (a n : Nat) : (Memory.span m a n).length = n := by simp [Memory.span]

/-! ### A command of one transaction -/

theorem State.acks.nextReply {s : State} (h : s.acks 1) : s.nextReply.acks := by
  rw [s.nextReply_eq_replyAt]
  exact h 0 Nat.one_pos

/-- A read that succeeds puts its bytes into `DBUF` when the command says so (R120). -/
theorem runCommand_rd_dbuf {s : State} {a : Byte} {n : Nat} (h : s.acks 1) :
    (runCommand [{ entry := .rd a n }] .toDbuf s).dbuf = s.dbuf.load (Memory.span (s.targetAt 0) a.toNat n) := by
  obtain ⟨hdelay, hresult⟩ := h.nextReply
  rw [runCommand_rd_ack _ _ _ _ hdelay hresult]
  simp [State.targetNow_eq_targetAt]

/-- Every micro-program leaves alone what no command writes; what is left to say of its end is `STATUS` and `SEQ_PC`. -/
theorem Ended.of_runCommand {prog : List Line} {fin : Finish} {s : State} {st : Status} {pc : BitVec 8}
    (hstatus : (runCommand prog fin s).status = st) (hpc : (runCommand prog fin s).seqPc = pc)
    (hrun : (runCommand prog fin s).run = none) : Ended s (runCommand prog fin s) st pc := by
  obtain ⟨hcfg, hcmd, harg, hinputs, hseen, hhistory⟩ := (runCommand_moves prog fin s).keeps
  exact ⟨hstatus, hpc, hrun, hcfg, hcmd, harg, hinputs, hseen, hhistory⟩

section
variable {s : State} {a : Byte} {bytes : List Byte}

/-- A command whose micro-program is one write that succeeds (R121). -/
theorem WriteEnds.of_runCommand (hfits : a.toNat + bytes.length ≤ 256) (h : s.acks 1) :
    WriteEnds s (runCommand [{ entry := .wr a bytes }] .keep s) a bytes := by
  obtain ⟨hdelay, hresult⟩ := h.nextReply
  have heq := runCommand_wr_ack a bytes .keep s hdelay hresult
  have htarget : (runCommand [{ entry := .wr a bytes }] .keep s).target = Memory.putSpan (s.targetAt 0) a.toNat bytes := by
    simp [heq, State.targetNow_eq_targetAt]
  constructor
  case ended =>
    exact .of_runCommand (by simp [heq, Status.completed, Status.afterWrite, Status.started, State.okStatus]) (by simp [heq])
      (by simp [heq])
  case stored =>
    intro k hk
    rw [htarget, Memory.byte_putSpan_inside _ _ _ _ hk hfits]
  case memory =>
    intro x hx
    rw [htarget, Memory.byte_putSpan_outside _ _ _ _ hx]
  all_goals simp [heq]

/-- A command whose micro-program is one write that fails (R250, R256, R262). -/
theorem WriteFails.of_runCommand {fin : Finish} {l : List Bool} (hfits : a.toNat + bytes.length ≤ 256)
    (h : (s.replyAt 0).nacks l) : WriteFails s (runCommand [{ entry := .wr a bytes }] fin s) a bytes := by
  rw [← s.nextReply_eq_replyAt] at h
  obtain ⟨hdelay, hresult⟩ := h
  have heq := runCommand_wr_nack a bytes fin s hdelay hresult
  have htarget : (runCommand [{ entry := .wr a bytes }] fin s).target = Memory.landSpan (s.targetAt 0) a.toNat bytes l := by
    simp [heq, State.targetNow_eq_targetAt]
  constructor
  case ended =>
    exact .of_runCommand (by simp [heq, Status.failed, Status.started, State.errStatus]) (by simp [heq]) (by simp [heq])
  case drawn =>
    intro k hk
    rw [htarget, Memory.byte_landSpan_inside _ _ _ _ _ hk hfits]
    exact ite_eq_or_eq _ _ _
  case memory =>
    intro x hx
    rw [htarget, Memory.byte_landSpan_outside _ _ _ _ _ hx]
  all_goals simp [heq]

end

/-! ### The statements -/

/-- Settles O8: the domain decides whether the command has a plan; the plan is one read into `DBUF`. -/
theorem rdregReadsSpan : Obligations.RdregReadsSpan := by
  intro s a len
  refine ⟨decodeOfEncode (.rdreg a len), fun hpos hmax hfits => ?_, exec_rdreg_rejects⟩
  have hexec := exec_rdreg (s := s) (spanLegal_iff.mpr ⟨hpos, hmax, hfits⟩)
  refine ⟨fun h => ⟨_, hexec, .of_runCommand nofun h, ?res, ?dbuf⟩, fun l h => ⟨_, hexec, .of_runCommand h⟩⟩
  case res => exact (runCommand_moves _ _ s).res (.inr (.inr rfl))
  case dbuf => rw [runCommand_rd_dbuf h, DataBuf.toList_load _ (by simpa using hmax), Memory.length_span]

/-- Settles O9: the domain decides whether the command has a plan; the plan is one write of the first bytes of `DBUF`, whose span ends
inside the 256 addresses. -/
theorem wrregWritesSpan : Obligations.WrregWritesSpan := by
  intro s a len
  refine ⟨decodeOfEncode (.wrreg a len), fun hpos hmax hfits => ?_, exec_wrreg_rejects⟩
  have hexec := exec_wrreg (s := s) (spanLegal_iff.mpr ⟨hpos, hmax, hfits⟩)
  have hspan : a.toNat + (s.dbuf.toList.take len.toNat).length ≤ 256 := by
    rwa [List.length_take_of_le hmax]
  exact ⟨fun h => ⟨_, hexec, .of_runCommand hspan h⟩, fun l h => ⟨_, hexec, .of_runCommand hspan h⟩⟩

/-- Settles O10: outside the domain neither command has a plan. -/
theorem spanOutOfDomainRejected : Obligations.SpanOutOfDomainRejected :=
  fun _ _ _ h => ⟨exec_rdreg_rejects h, exec_wrreg_rejects h⟩

end Sys2Proof.Machine

/-! The family of 41_bitfield.md: `RDBIT`, `SETBIT`, `RDFLD`, `WRFLD` (R130 to R133), and the sibling bits that every
read-modify-write of every command leaves as they were (R134). -/

namespace Sys2Proof.Machine

/-! ### The bits outside a mask -/

section
variable {m : Byte}

/-- What has no bit outside the mask `m` is lost when the bits outside it are taken. -/
theorem and_mask_and_not_mask (x : Byte) : (x &&& m) &&& ~~~m = 0#8 := by
  simp [BitVec.and_assoc]

/-- A read-modify-write that keeps every bit outside `m` and sets none there leaves those bits as they were (R134). -/
theorem rmw_keeps_outside {keep orBits : Byte} (hkeep : keep &&& ~~~m = ~~~m) (hor : orBits &&& ~~~m = 0#8) (b : Byte) :
    ((b &&& keep) ||| orBits) &&& ~~~m = b &&& ~~~m := by
  rw [BitVec.and_or_distrib_right, hor, BitVec.or_zero, BitVec.and_assoc, hkeep]

/-- A code of `w` bits has no bit outside the low `w` (R190, R192). -/
theorem ofNat_and_not_lowMask {w n : Nat} (h : n < 2 ^ w) : BitVec.ofNat 8 n &&& ~~~BitVec.ofNat 8 (2 ^ w - 1) = 0#8 := by
  rw [← Nat.mod_eq_of_lt h, ← Nat.and_two_pow_sub_one_eq_mod, BitVec.ofNat_and, and_mask_and_not_mask]

/-- A code moved to the high nibble has no bit in the low one (R192). -/
theorem highNibble_and_not_mask (x : Byte) : (x <<< 4) &&& ~~~0xF0#8 = 0#8 := by
  ext i hi
  interval_cases i <;> simp

theorem withBit_keeps_outside (b : Byte) (bit : Nat) (v : Bool) :
    withBit b bit v &&& ~~~BitVec.twoPow 8 bit = b &&& ~~~BitVec.twoPow 8 bit := by
  cases v <;> simp [withBit, BitVec.and_or_distrib_right, BitVec.and_assoc]

end

/-! ### The commands of one read or one read-modify-write -/

/-- `ARG[7:0]` shifted without a width and then cut to the byte is the byte shifted (R133). -/
theorem ofNat_argByte_shift (s : State) (n : Nat) : BitVec.ofNat 8 (s.arg.toNat % 256 * 2 ^ n) = s.argByte <<< n := by
  apply BitVec.eq_of_toNat_eq
  simp [State.argByte, Nat.shiftLeft_eq]

/-- The byte `WRFLD` writes is the one of its keep and or masks (R133). -/
theorem rmwByte_field (s : State) (mask b : Byte) (n : Nat) :
    (b &&& ~~~mask) ||| (BitVec.ofNat 8 (s.arg.toNat % 256 * 2 ^ n) &&& mask)
      = rmwByte (~~~mask) (fieldBits mask n s.argByte) b := by
  rw [ofNat_argByte_shift]
  rfl

@[simp] theorem State.complete_bitOf_res (s : State) (bit : Nat) (got : List Byte) :
    (s.complete (.bitOf bit) got).res = BitVec.ofInt 96 (if bitSet (byteAt got 0) bit then 1 else 0) := rfl

@[simp] theorem State.complete_fieldOf_res (s : State) (mask : Byte) (shift : Nat) (got : List Byte) :
    (s.complete (.fieldOf mask shift) got).res = BitVec.ofInt 96 ((byteAt got 0 &&& mask) >>> shift).toNat := rfl

/-- A number below 256 goes through `RES` as it is (R12, R25). -/
theorem toInt_ofInt_of_byte {n : Nat} (h : n < 256) : (BitVec.ofInt 96 n).toInt = n :=
  BitVec.toInt_ofInt_eq_self (by omega) (by omega) (by omega)

/-- The bit tested, as 0 or 1, is the digit of its weight (R130). -/
theorem bitSet_toNat (b : Byte) (bit : Nat) : (if bitSet b bit then 1 else 0 : Int) = (b.toNat / 2 ^ bit % 2 : Nat) := by
  rw [bitSet_eq_getLsbD, BitVec.getLsbD, Nat.testBit_eq_decide_div_mod_eq]
  rcases Nat.mod_two_eq_zero_or_one (b.toNat / 2 ^ bit) with h | h <;> simp [h]

@[simp] theorem State.byteAt_span_oldByte (s : State) (a : Byte) :
    byteAt (Memory.span (s.targetAt 0) a.toNat 1) 0 = s.oldByte a := by
  simp [Memory.span, byteAt, State.oldByte]

/-- Settles O11: the plan is one read, and the bit of its byte fits `RES`. -/
theorem rdbitGivesTheBit : Obligations.RdbitGivesTheBit := by
  intro s a bit
  refine ⟨decodeOfEncode (.rdbit a bit), .of_runCommand rfl nofun nofun fun _ => ?_⟩
  have hlt : (s.oldByte a).toNat / 2 ^ bit.toNat % 2 < 256 := by omega
  rw [State.complete_bitOf_res, State.byteAt_span_oldByte, bitSet_toNat, toInt_ofInt_of_byte hlt]

/-- Settles O12: the plan is one read-modify-write with the masks of `SB`, whose byte is the one of the rule (`rmwByte_sb`). -/
theorem setbitWritesOneBit : Obligations.SetbitWritesOneBit := by
  intro s a bit v
  exact ⟨decodeOfEncode (.setbit a bit v), .of_runCommand rfl fun b => (rmwByte_sb b bit.toNat v).symm⟩

/-- Settles O13: the plan is one read, and the field of its byte fits `RES`. -/
theorem rdfldGivesTheField : Obligations.RdfldGivesTheField := by
  intro s a mask shift
  refine ⟨decodeOfEncode (.rdfld a mask shift), .of_runCommand rfl nofun nofun fun _ => ?_⟩
  have hlt : (s.oldByte a &&& mask).toNat / 2 ^ shift.toNat < 256 :=
    (Nat.div_le_self _ _).trans_lt (s.oldByte a &&& mask).isLt
  rw [State.complete_fieldOf_res, State.byteAt_span_oldByte, BitVec.toNat_ushiftRight, Nat.shiftRight_eq_div_pow,
    toInt_ofInt_of_byte hlt]

/-- Settles O14: the plan is one read-modify-write with the masks of the field (`rmwByte_field`). -/
theorem wrfldWritesTheField : Obligations.WrfldWritesTheField := by
  intro s a mask shift
  exact ⟨decodeOfEncode (.wrfld a mask shift), .of_runCommand rfl fun b => rmwByte_field s mask b shift.toNat⟩

/-! ### Entries that spare the sibling bits (R134) -/

/-- A write of the entry is one of the blind writes, or a read-modify-write that keeps the bits outside one of the fields (R134). -/
def Entry.Spares (blind : List (Byte × List Byte)) (fields : List (Byte × Byte)) : Entry → Prop
  | .wr a bytes => (a, bytes) ∈ blind
  | .rmw a keep orBits => ∃ m, (a, m) ∈ fields ∧ ∀ b, ((b &&& keep) ||| orBits) &&& ~~~m = b &&& ~~~m
  | .sb a bit _ => (a, BitVec.twoPow 8 bit) ∈ fields
  | .rd _ _ => True
  | .slp _ => True
  | .br _ _ _ _ => True

/-- The events that an entry which spares the sibling bits may leave, whether it completes, fails or waits. -/
inductive SparingEvents (blind : List (Byte × List Byte)) (fields : List (Byte × Byte)) : List Event → Prop where
  | noWrite {es : List Event} (h : ∀ e ∈ es, e.isWrite = false) : SparingEvents blind fields es
  | blindWrite {a : Byte} {bytes : List Byte} {e : Event} (hx : (a, bytes) ∈ blind)
      (he : e = .wr a bytes ∨ e = .wrFail a bytes) : SparingEvents blind fields [e]
  | fieldWrite {a m b b' : Byte} {e : Event} (hx : (a, m) ∈ fields) (he : e = .wr a [b'] ∨ e = .wrFail a [b'])
      (hb : b' &&& ~~~m = b &&& ~~~m) : SparingEvents blind fields [.rd a 1 [b], e]

/-- What the rule asks of an event `e` that comes after the events `pre` (R134). -/
def SparedAfter (blind : List (Byte × List Byte)) (fields : List (Byte × Byte)) (pre : List Event) (e : Event) : Prop :=
  (∃ x ∈ blind, e = .wr x.1 x.2 ∨ e = .wrFail x.1 x.2)
    ∨ ∃ pre' b b', ∃ x ∈ fields, pre = pre' ++ [.rd x.1 1 [b]] ∧ (e = .wr x.1 [b'] ∨ e = .wrFail x.1 [b'])
        ∧ b' &&& ~~~x.2 = b &&& ~~~x.2

/-- Every write among the events is as the rule asks (R134). -/
def AllSpared (blind : List (Byte × List Byte)) (fields : List (Byte × Byte)) (es : List Event) : Prop :=
  ∀ pre e post, es = pre ++ e :: post → e.isWrite = true → SparedAfter blind fields pre e

section
variable {blind : List (Byte × List Byte)} {fields : List (Byte × Byte)}

theorem SparedAfter.after {pre : List Event} {e : Event} (h : SparedAfter blind fields pre e) (xs : List Event) :
    SparedAfter blind fields (xs ++ pre) e := by
  rcases h with hblind | ⟨pre', b, b', x, hx, rfl, hfield⟩
  · exact .inl hblind
  · exact .inr ⟨xs ++ pre', b, b', x, hx, (List.append_assoc ..).symm, hfield⟩

theorem AllSpared.append {xs ys : List Event} (hx : AllSpared blind fields xs) (hy : AllSpared blind fields ys) :
    AllSpared blind fields (xs ++ ys) := by
  intro pre e post h hw
  rcases List.append_eq_append_iff.mp h with ⟨zs, rfl, rfl⟩ | ⟨zs, rfl, hzs⟩
  · exact (hy zs e post rfl hw).after xs
  · cases zs with
    | nil => exact List.append_nil pre ▸ (hy [] e post hzs.symm hw).after pre
    | cons z zs =>
      obtain ⟨rfl, -⟩ := List.cons.inj hzs
      exact hx pre _ zs rfl hw

theorem SparingEvents.allSpared {es : List Event} (h : SparingEvents blind fields es) : AllSpared blind fields es := by
  intro pre e post hes hw
  cases h with
  | noWrite h => simp [h e (by simp [hes])] at hw
  | blindWrite hx he =>
    rcases pre with _ | ⟨p, pre⟩
    · obtain ⟨rfl, -⟩ := List.cons.inj hes
      exact .inl ⟨_, hx, he⟩
    · simp at hes
  | @fieldWrite a m b b' _ hx he hb =>
    rcases pre with _ | ⟨p, _ | ⟨q, pre⟩⟩
    · obtain ⟨rfl, -⟩ := List.cons.inj hes
      cases hw
    · simp only [List.cons_append, List.nil_append, List.cons.injEq] at hes
      obtain ⟨rfl, rfl, -⟩ := hes
      exact .inr ⟨[], b, b', _, hx, rfl, he, hb⟩
    · simp at hes

/-- The one write of an entry that spares the siblings of the one field `x` comes right after the read of its register (R134). -/
theorem SparingEvents.of_field {x : Byte × Byte} {es : List Event} {e : Event} (h : SparingEvents [] [x] es) (he : e ∈ es)
    (hw : e.isWrite = true) :
    ∃ b b', es = [.rd x.1 1 [b], e] ∧ (e = .wr x.1 [b'] ∨ e = .wrFail x.1 [b']) ∧ b' &&& ~~~x.2 = b &&& ~~~x.2 := by
  cases h with
  | noWrite h => simp [h e he] at hw
  | blindWrite hx => cases hx
  | @fieldWrite a m b b' f hx hf hb =>
    obtain rfl := List.mem_singleton.mp hx
    rcases List.mem_pair.mp he with rfl | rfl
    · cases hw
    · exact ⟨b, b', rfl, hf, hb⟩

/-! ### The events of an entry that completed, failed or waits -/

variable {e : Entry}

/-- An entry that has completed wrote as the rule asks. -/
theorem Entry.Spares.ran (h : e.Spares blind fields) {next k : Nat} {es : List Event} (hr : e.Ran next es k) :
    SparingEvents blind fields es := by
  cases e with
  | rd a n =>
    obtain ⟨-, bytes, -, rfl⟩ := hr
    exact .noWrite (by simp [Event.isWrite])
  | wr a bytes =>
    obtain ⟨-, rfl⟩ := hr
    exact .blindWrite h (.inl rfl)
  | rmw a keep orBits =>
    obtain ⟨-, b, rfl⟩ := hr
    obtain ⟨m, hx, hkeep⟩ := h
    exact .fieldWrite hx (.inl rfl) (hkeep b)
  | sb a bit v =>
    obtain ⟨-, b, rfl⟩ := hr
    exact .fieldWrite h (.inl rfl) (withBit_keeps_outside b bit v)
  | slp ms =>
    obtain ⟨-, rfl⟩ := hr
    exact .noWrite (by simp [Event.isWrite])
  | br a bit t1 t0 =>
    obtain ⟨b, rfl, -⟩ := hr
    exact .noWrite (by simp [Event.isWrite])

/-- So did one that has failed, whose last event is the transaction tried. -/
theorem Entry.Spares.failed (h : e.Spares blind fields) {failw : Bool} {es : List Event} (hf : e.Failed failw es) :
    SparingEvents blind fields es := by
  have hrd : ∀ a n, SparingEvents blind fields [.rdFail a n] := fun a n => .noWrite (by simp [Event.isWrite])
  cases e with
  | rd a n =>
    obtain ⟨-, rfl⟩ := hf
    exact hrd a n
  | wr a bytes =>
    obtain ⟨-, rfl⟩ := hf
    exact .blindWrite h (.inr rfl)
  | rmw a keep orBits =>
    rcases hf with ⟨-, rfl⟩ | ⟨-, b, rfl⟩
    · exact hrd a 1
    · obtain ⟨m, hx, hkeep⟩ := h
      exact .fieldWrite hx (.inr rfl) (hkeep b)
  | sb a bit v =>
    rcases hf with ⟨-, rfl⟩ | ⟨-, b, rfl⟩
    · exact hrd a 1
    · exact .fieldWrite h (.inr rfl) (withBit_keeps_outside b bit v)
  | slp ms => exact hf.elim
  | br a bit t1 t0 =>
    obtain ⟨-, rfl⟩ := hf
    exact hrd a 1

end

/-- An entry that waits has written nothing. -/
theorem Entry.Begun.noWrite {e : Entry} {half : Bool} {tmp : Byte} {es : List Event} (h : e.Begun half tmp es) :
    ∀ x ∈ es, x.isWrite = false := by
  have hhalf : ∀ a, ∀ x ∈ (if half then [Event.rd a 1 [tmp]] else []), x.isWrite = false := by
    cases half <;> simp [Event.isWrite]
  cases e with
  | rmw a keep orBits => exact h ▸ hhalf a
  | sb a bit v => exact h ▸ hhalf a
  | rd | wr | slp | br => simp [h.2]

/-! ### The trace of a program whose entries spare the sibling bits -/

section
variable {blind : List (Byte × List Byte)} {fields : List (Byte × Byte)} {prog : List Line}
  (hprog : ∀ l ∈ prog, l.entry.Spares blind fields)
include hprog

theorem ProgramRan.allSpared {k : Nat} {es : List Event} (h : ProgramRan prog k es) : AllSpared blind fields es := by
  induction h with
  | start => exact (SparingEvents.noWrite (by simp)).allSpared
  | entry _ hl he ih => exact ih.append ((hprog _ (List.mem_of_getElem? hl)).ran he).allSpared

/-- The events after the last completed entry are those of one entry, or none. -/
theorem State.Tracks.sparing_part {t : State} (h : t.Tracks prog) :
    ∃ done part, t.trace = done ++ part ∧ ProgramRan prog t.seqPc.toNat done ∧ SparingEvents blind fields part
      ∧ (prog.length ≤ t.seqPc.toNat → part = []) := by
  obtain ⟨done, part, htrace, hdone, hpart⟩ := h
  refine ⟨done, part, htrace, hdone, ?_⟩
  have inside : ∀ {l}, prog[t.seqPc.toNat]? = some l → prog.length ≤ t.seqPc.toNat → part = [] := fun hl hle => by
    simp [List.getElem?_eq_none_iff.mpr hle] at hl
  cases hr : t.run with
  | some r =>
    rw [hr] at hpart
    obtain ⟨-, l, hl, hbegun⟩ := hpart
    exact ⟨.noWrite hbegun.noWrite, inside hl⟩
  | none =>
    rw [hr] at hpart
    rcases hpart with ⟨-, -, rfl⟩ | ⟨-, l, hl, hfailed⟩
    · exact ⟨.noWrite (by simp), fun _ => rfl⟩
    · exact ⟨(hprog l (List.mem_of_getElem? hl)).failed hfailed, inside hl⟩

theorem State.Tracks.allSpared {t : State} (h : t.Tracks prog) : AllSpared blind fields t.trace := by
  obtain ⟨done, part, htrace, hdone, hpart, -⟩ := h.sparing_part hprog
  exact htrace ▸ (hdone.allSpared hprog).append hpart.allSpared

/-- What a program of one entry has done is nothing, or that entry. -/
theorem ProgramRan.of_length_one (hlegal : ProgramLegal prog) (hlen : prog.length = 1) {k : Nat} {es : List Event}
    (h : ProgramRan prog k es) : (k = 0 ∧ es = []) ∨ (k = 1 ∧ SparingEvents blind fields es) := by
  induction h with
  | start => exact .inl ⟨rfl, rfl⟩
  | @entry k k' done es l _ hl he ih =>
    obtain ⟨hlt, hle⟩ := hlegal.forward hl he
    obtain ⟨rfl, rfl⟩ : k = 0 ∧ done = [] := ih.resolve_right fun ⟨hk, _⟩ => by omega
    exact .inr ⟨by omega, (hprog l (List.mem_of_getElem? hl)).ran he⟩

/-- The trace of a program of one entry is the events of that entry. -/
theorem State.Tracks.of_length_one (hlegal : ProgramLegal prog) (hlen : prog.length = 1) {t : State} (h : t.Tracks prog) :
    SparingEvents blind fields t.trace := by
  obtain ⟨done, part, htrace, hdone, hpart, hend⟩ := h.sparing_part hprog
  rw [htrace]
  rcases hdone.of_length_one hprog hlegal hlen with ⟨-, rfl⟩ | ⟨hk, hdone⟩
  · exact hpart
  · rw [hend (by omega), List.append_nil]
    exact hdone

end

/-! ### The entries of the commands -/

section
variable (c : Config)

/-- To spare the siblings of one field of a command is to spare those of its fields. -/
theorem Entry.Spares.of_field {e : Entry} {x : Byte × Byte} (h : e.Spares [] [x]) {blind : List (Byte × List Byte)}
    {fields : List (Byte × Byte)} (hx : x ∈ fields) : e.Spares blind fields := by
  cases e with
  | wr => cases h
  | rmw a keep orBits =>
    obtain ⟨m, hm, hkeep⟩ := h
    exact ⟨m, List.mem_singleton.mp hm ▸ hx, hkeep⟩
  | sb a bit v =>
    obtain rfl := List.mem_singleton.mp h
    exact hx
  | rd | slp | br => exact trivial

/-- A read-modify-write that keeps the bits outside its field and sets none there. -/
theorem Entry.spares_rmw {a m keep orBits : Byte} (hkeep : keep &&& ~~~m = ~~~m) (hor : orBits &&& ~~~m = 0#8) :
    (Entry.rmw a keep orBits).Spares [] [(a, m)] :=
  ⟨m, List.mem_singleton.mpr rfl, rmw_keeps_outside hkeep hor⟩

theorem Entry.spares_setField (a m x : Byte) : (Entry.rmw a (~~~m) (x &&& m)).Spares [] [(a, m)] :=
  Entry.spares_rmw BitVec.and_self (and_mask_and_not_mask x)

theorem Entry.spares_clearField (a keep : Byte) : (Entry.rmw a keep 0#8).Spares [] [(a, ~~~keep)] :=
  Entry.spares_rmw (by simp) (by simp)

/-- The least field of an `RMW(addr, keep, or)`: the bits it does not keep and those it sets. -/
theorem Entry.spares_patch (a keep orBits : Byte) : (Entry.rmw a keep orBits).Spares [] [(a, ~~~keep ||| orBits)] := by
  apply Entry.spares_rmw
  · simp [BitVec.not_or, ← BitVec.and_assoc]
  · simp [BitVec.not_or, BitVec.and_comm keep, ← BitVec.and_assoc]

theorem patchEntry_spares (p : RegPatch) : (patchEntry p).Spares [] [patchField p] := Entry.spares_patch _ _ _

theorem Entry.spares_sb (a : Byte) (bit : Nat) (v : Bool) : (Entry.sb a bit v).Spares [] [(a, BitVec.twoPow 8 bit)] :=
  List.mem_singleton.mpr rfl

/-- The read-modify-write of `SETBIT` (R131). -/
theorem Entry.spares_setBit (a : Byte) (bit : Nat) (v : Bool) :
    (Entry.rmw a (sbKeep bit v) (sbOr bit v)).Spares [] [(a, BitVec.twoPow 8 bit)] := by
  refine ⟨_, List.mem_singleton.mpr rfl, fun b => ?_⟩
  rw [← withBit_keeps_outside b bit v, ← rmwByte_sb]
  rfl

theorem dcdcEntry_spares (r : Fin 3) (mv : Nat) : (dcdcEntry c r mv).Spares [] [dcdcField c r] := by
  refine Entry.spares_rmw BitVec.and_self (ofNat_and_not_lowMask ?_)
  unfold encDcdc
  split
  · exact Nat.two_pow_pos _
  · exact Nat.mod_lt _ (Nat.two_pow_pos _)

/-- An LDO code is at most the code of the highest voltage, which fits a nibble (R7, R193). -/
theorem encLdo_lt {c : Config} (h : c.ldoFits = true) (mv : Nat) : encLdo c mv < 2 ^ 4 := by
  simp only [Config.ldoFits, Bool.and_eq_true, decide_eq_true_eq] at h
  obtain ⟨-, hmax⟩ := h
  have hle : encLdo c mv ≤ (c.ldoMaxMv - c.ldoMinMv) / c.ldoStepMv :=
    Nat.div_le_div_right (Nat.sub_le_sub_right (Nat.min_le_right _ _) _)
  omega

theorem ldoEntry_spares {c : Config} (h : c.ldoFits = true) (k : Fin 2) (mv : Nat) :
    (ldoEntry c k mv).Spares [] [ldoField c k] := by
  unfold ldoEntry ldoField
  split
  · exact Entry.spares_rmw (by decide) (highNibble_and_not_mask _)
  · exact Entry.spares_rmw (by decide) (ofNat_and_not_lowMask (w := 4) (encLdo_lt h mv))

theorem chgEntry_spares (k : Nat) : (chgEntry c k).Spares [] [(c.aChg, c.chgMask)] := Entry.spares_setField _ _ _

theorem brightEntry_spares (k : Nat) : (brightEntry c k).Spares [] [(c.aBright, c.brightMask)] := Entry.spares_setField _ _ _

end

/-- Every entry of `INIT` (R211): its one blind write is the ADC-enable entry (R224). -/
theorem initProgram_spares {s : State} (h : s.cfg.ldoFits = true) (k : Nat) :
    ∀ l ∈ initProgram s.cfg k, l.entry.Spares (blindWrites .init s) (targetedFields .init s) := by
  simp only [initProgram, initHead, initTaken, initNotTaken, List.cons_append, List.nil_append, List.forall_mem_cons]
  refine ⟨(Entry.spares_patch _ _ _).of_field ?_, (Entry.spares_clearField _ _).of_field ?_,
    (Entry.spares_clearField _ _).of_field ?_, (Entry.spares_patch _ _ _).of_field ?_, (dcdcEntry_spares _ _ _).of_field ?_,
    (dcdcEntry_spares _ _ _).of_field ?_, (ldoEntry_spares h _ _).of_field ?_, (ldoEntry_spares h _ _).of_field ?_,
    (Entry.spares_sb _ _ _).of_field ?_, (Entry.spares_sb _ _ _).of_field ?_, (Entry.spares_sb _ _ _).of_field ?_,
    (chgEntry_spares _ _).of_field ?_, List.mem_singleton.mpr rfl, (Entry.spares_sb _ _ _).of_field ?_, trivial,
    (Entry.spares_sb _ _ _).of_field ?_, trivial, (Entry.spares_sb _ _ _).of_field ?_, (patchEntry_spares _).of_field ?_,
    (patchEntry_spares _).of_field ?_, (patchEntry_spares _).of_field ?_, (patchEntry_spares _).of_field ?_,
    (patchEntry_spares _).of_field ?_, (patchEntry_spares _).of_field ?_, (patchEntry_spares _).of_field ?_,
    (patchEntry_spares _).of_field ?_, by simp⟩
  all_goals simp [targetedFields, bpmFields]

theorem buspwrProgram_spares (s : State) (m : BusMode) :
    ∀ l ∈ buspwrProgram s.cfg m, l.entry.Spares (blindWrites (.buspwr m) s) (targetedFields (.buspwr m) s) := by
  simp only [buspwrProgram, bpmEntries, List.map_cons, List.map_nil, List.forall_mem_cons]
  refine ⟨(patchEntry_spares _).of_field ?_, (patchEntry_spares _).of_field ?_, (patchEntry_spares _).of_field ?_,
    (patchEntry_spares _).of_field ?_, by simp⟩
  all_goals cases m <;> simp [targetedFields, bpmFields]

theorem sleepPrepProgram_spares (s : State) :
    ∀ l ∈ sleepPrepProgram s.cfg, l.entry.Spares (blindWrites .sleepPrep s) (targetedFields .sleepPrep s) := by
  simp only [sleepPrepProgram, List.forall_mem_cons]
  refine ⟨List.mem_singleton.mpr rfl, (Entry.spares_sb _ _ _).of_field ?_, (Entry.spares_sb _ _ _).of_field ?_, by simp⟩
  all_goals simp [targetedFields]

theorem sleepRestoreProgram_spares (s : State) :
    ∀ l ∈ sleepRestoreProgram s.cfg, l.entry.Spares (blindWrites .sleepRestore s) (targetedFields .sleepRestore s) := by
  simp only [sleepRestoreProgram, List.forall_mem_cons]
  refine ⟨(Entry.spares_sb _ _ _).of_field ?_, (Entry.spares_sb _ _ _).of_field ?_, List.mem_singleton.mpr rfl, by simp⟩
  all_goals simp [targetedFields]

/-- A command of one field has no blind write and a table of one entry (R27, R134). -/
theorem targetedBits_one_entry {i : Instr} {s : State} {x : Byte × Byte} (h : targetedBits i s = some x) :
    targetedFields i s = [x] ∧ blindWrites i s = [] ∧ endIndex i = 1 := by
  cases i with
  | setbit | wrfld | wrDcdc | wrLdo | wrChgi | wrBright | pwroff => exact ⟨congrArg Option.toList h, rfl, rfl⟩
  | _ => cases h

/-- Every entry of every command's table spares the bits beside the command's fields (R134). -/
theorem planOf_spares {i : Instr} {s : State} {p : List Line × Finish} (hldo : writesLdo i = true → s.cfg.ldoFits = true)
    (h : planOf i s.cfg s.arg s.dbuf = some p) : ∀ l ∈ p.1, l.entry.Spares (blindWrites i s) (targetedFields i s) := by
  have one : ∀ {e : Entry}, e.Spares (blindWrites i s) (targetedFields i s) →
      ∀ l ∈ [({ entry := e } : Line)], l.entry.Spares (blindWrites i s) (targetedFields i s) :=
    fun he l hl => List.mem_singleton.mp hl ▸ he
  have field : ∀ {e : Entry} {x : Byte × Byte}, e.Spares [] [x] → targetedBits i s = some x →
      ∀ l ∈ [({ entry := e } : Line)], l.entry.Spares (blindWrites i s) (targetedFields i s) :=
    fun he hx => one (he.of_field ((targetedBits_one_entry hx).1 ▸ List.mem_singleton.mpr rfl))
  have hq : ∀ q : Quantity, readPlan q s.cfg = some p → ∀ l ∈ p.1, l.entry.Spares (blindWrites i s) (targetedFields i s) := by
    intro q hp l hl
    unfold readPlan at hp
    split at hp <;> cases hp
    obtain ⟨x, -, rfl⟩ := List.mem_map.mp hl
    exact trivial
  cases i with
  | rdreg a len =>
    simp only [planOf] at h
    split at h <;> cases h
    exact one trivial
  | wrreg a len =>
    simp only [planOf] at h
    split at h <;> cases h
    exact one (List.mem_singleton.mpr rfl)
  | rdbit | rdfld =>
    cases h
    exact one trivial
  | setbit a bit v =>
    cases h
    exact field (Entry.spares_setBit a bit.toNat v) rfl
  | wrfld a mask shift =>
    cases h
    exact field (Entry.spares_setField a mask _) rfl
  | dec8 | dec12 | dec13 | dec16 | dec24 | dec32 | cvtPct =>
    cases h
    exact List.forall_mem_nil _
  | wrDcdc index =>
    obtain ⟨r, hr, rfl⟩ := Option.map_eq_some_iff.mp h
    exact field (dcdcEntry_spares _ r _) (Option.map_eq_some_iff.mpr ⟨r, hr, rfl⟩)
  | wrLdo index =>
    obtain ⟨k, hk, rfl⟩ := Option.map_eq_some_iff.mp h
    exact field (ldoEntry_spares (hldo rfl) k _) (Option.map_eq_some_iff.mpr ⟨k, hk, rfl⟩)
  | wrChgi =>
    obtain ⟨k, -, rfl⟩ := Option.map_eq_some_iff.mp h
    exact field (chgEntry_spares _ k) rfl
  | wrBright =>
    obtain ⟨k, -, rfl⟩ := Option.map_eq_some_iff.mp h
    exact field (brightEntry_spares _ k) rfl
  | init =>
    obtain ⟨k, -, rfl⟩ := Option.map_eq_some_iff.mp h
    exact initProgram_spares (hldo rfl) k
  | sleepPrep =>
    cases h
    exact sleepPrepProgram_spares s
  | sleepRestore =>
    cases h
    exact sleepRestoreProgram_spares s
  | buspwr m =>
    cases h
    exact buspwrProgram_spares s m
  | pwroff =>
    cases h
    exact field (Entry.spares_sb _ _ _) rfl
  | rdBatv | rdBati | rdBatichg | rdBatp | rdVinv | rdVini | rdVbusv | rdVbusi | rdApsv | rdTemp | rdCcin | rdCcout | rdBatpct =>
    exact hq _ h

/-- Settles O15: every entry of a command's table spares the bits beside the command's fields (`planOf_spares`), the trace is made of
the events of these entries (`State.Tracks.allSpared`), and a table of one entry leaves the events of that entry. -/
theorem siblingBitsSurvive : Obligations.SiblingBitsSurvive := by
  intro s t i hldo h
  cases hp : planOf i s.cfg s.arg s.dbuf with
  | none =>
    have htrace : t.trace = [] := by rw [h.rejected hp]; rfl
    exact ⟨fun pre e post hes => by simp [htrace] at hes, fun a m _ e he => by simp [htrace] at he⟩
  | some p =>
    obtain ⟨htracks, -⟩ := h.tracks hp
    have hspares := planOf_spares hldo hp
    refine ⟨htracks.allSpared hspares, fun a m hfield e he hw => ?_⟩
    obtain ⟨hlegal, hlen⟩ := planOf_legal hp
    obtain ⟨hfields, hblind, hone⟩ := targetedBits_one_entry hfield
    rw [hfields, hblind] at hspares
    exact (htracks.of_length_one hspares hlegal (by rw [hlen, hone]; rfl)).of_field he hw

end Sys2Proof.Machine

/-! The family of 42_decoders.md: the six commands that turn the bytes of `DBUF` into a number in `RES` without a transaction (R150 to
R156). -/

namespace Sys2Proof.Machine

/-! ### The decoders' numbers (R151 to R155) -/

theorem toNat_append_byte {w : Nat} (x : BitVec w) (b : Byte) : (x ++ b).toNat = x.toNat * 256 + b.toNat := by
  rw [BitVec.toNat_append, ← Nat.shiftLeft_add_eq_or_of_lt b.isLt, Nat.shiftLeft_eq]

theorem dec12_eq (hi lo : Byte) : (dec12 hi lo : Int) = 16 * hi.toNat + lo.toNat := by
  simp [dec12, Int.mul_comm]

theorem dec13_eq (hi lo : Byte) : (dec13 hi lo : Int) = 32 * hi.toNat + lo.toNat := by
  simp [dec13, Int.mul_comm]

theorem dec16_eq_append (hi lo : Byte) : dec16 hi lo = (hi ++ lo).toNat := by
  simp [dec16, toNat_append_byte]

theorem dec24_eq_append (b0 b1 b2 : Byte) : dec24 b0 b1 b2 = (b0 ++ b1 ++ b2).toNat := by
  simp only [dec24, toNat_append_byte]
  omega

theorem dec32_eq_append (b0 b1 b2 b3 : Byte) : dec32 b0 b1 b2 b3 = (b0 ++ b1 ++ b2 ++ b3).toNat := by
  simp only [dec32, toNat_append_byte]
  omega

/-! ### A command that gives a number without traffic -/

/-- A number below `2^95` goes through `RES` as it is (R12, R25). -/
theorem toInt_ofInt_of_nat {n : Nat} (h : n < 2 ^ 95) : (BitVec.ofInt 96 n).toInt = n :=
  BitVec.toInt_ofInt_eq_self (by omega) (by omega) (by omega)

/-- An empty micro-program ends at once, with its number in `RES`; nothing else of the machine moves (R27, R29). -/
theorem PureEnds.of_runCommand {s : State} {n : Nat} (h : n < 2 ^ 95) : PureEnds s (runCommand [] (.value n) s) n where
  ended := .of_runCommand rfl rfl rfl
  res := toInt_ofInt_of_nat h
  trace := rfl
  dbuf := rfl
  tmp := rfl
  replies := rfl
  timer := rfl
  memory _ := rfl

/-- A command whose plan is empty gives the number `n` of its plan, which a rule calls `v`, if that fits `RES`. -/
theorem exec_pure {i : Instr} {s : State} {n : Nat} {v : Int} (hplan : planOf i s.cfg s.arg s.dbuf = some ([], .value n))
    (hv : (n : Int) = v) (hfits : v < 2 ^ 95) : ∃ t, exec i s = .next t ∧ PureEnds s t v := by
  subst hv
  exact ⟨_, exec_of_plan hplan, .of_runCommand (by omega)⟩

/-- The number of at most four whole bytes fits `RES`. -/
theorem toNat_fits_res {w : Nat} (x : BitVec w) (h : w ≤ 32) : (x.toNat : Int) < 2 ^ 95 := by
  have hlt : x.toNat < 2 ^ 32 := x.isLt.trans_le (Nat.pow_le_pow_right Nat.two_pos h)
  omega

theorem map_decode_map_encode (l : List Instr) : (l.map encode).map decode = l.map .ok := by
  simp [decodeOfEncode _]

/-- Settles O16: each decoder's plan is empty, and the number of the plan is the one of the rule, at most four bytes wide. -/
theorem decodersConvertDbuf : Obligations.DecodersConvertDbuf := by
  intro s
  have h0 := s.dbuf.b0.isLt
  have h1 := s.dbuf.b1.isLt
  refine ⟨map_decode_map_encode [.dec8, .dec12, .dec13, .dec16, .dec24, .dec32], ?dec8, ?dec12, ?dec13, ?dec16, ?dec24, ?dec32⟩
  case dec8 => exact exec_pure rfl rfl (toNat_fits_res _ (by decide))
  case dec12 => exact exec_pure rfl (dec12_eq _ _) (by omega)
  case dec13 => exact exec_pure rfl (dec13_eq _ _) (by omega)
  case dec16 => exact exec_pure rfl (congrArg _ (dec16_eq_append _ _)) (toNat_fits_res _ (by decide))
  case dec24 => exact exec_pure rfl (congrArg _ (dec24_eq_append _ _ _)) (toNat_fits_res _ (by decide))
  case dec32 => exact exec_pure rfl (congrArg _ (dec32_eq_append _ _ _ _)) (toNat_fits_res _ (by decide))

end Sys2Proof.Machine

/-! The family of 43_quantity_read.md: the read converters, one or two reads whose bytes become a number in `RES` (R160 to R175),
`CVT_PCT` and the percentage function (R176, R177), and the range of all their results (R186). -/

namespace Sys2Proof.Machine

/-! ### The percentage function (R177) -/

theorem pct_of_lt {v : Nat} (h : v < 3248088) : pct v = 0 := if_pos h

theorem pct_of_ge {v : Nat} (h : 3248088 ≤ v) : pct v = min (v - 3120712) 1000000 := if_neg (Nat.not_lt.mpr h)

theorem pct_le (v : Nat) : pct v ≤ 1000000 := by
  unfold pct
  split
  · exact Nat.zero_le _
  · exact Nat.min_le_right _ _

theorem pct_mono {v w : Nat} (h : v ≤ w) : pct v ≤ pct w := by
  rcases Nat.lt_or_ge v 3248088 with hv | hv
  · rw [pct_of_lt hv]
    exact Nat.zero_le _
  · rw [pct_of_ge hv, pct_of_ge (hv.trans h)]
    exact min_le_min_right _ (Nat.sub_le_sub_right h _)

/-- Settles O21: below the threshold, between, and from the clamp on; `pct_mono`. -/
theorem percentageShape : Obligations.PercentageShape := by
  refine ⟨fun v => pct_of_lt, fun v hlow hhigh => ?_, fun v hclamp => ?_, fun v w => pct_mono⟩
  · rw [pct_of_ge hlow, Nat.min_eq_left (by omega)]
  · rw [pct_of_ge (by omega), Nat.min_eq_right (by omega)]

/-- Settles O20: the plan of `CVT_PCT` is empty, and a percentage fits `RES`. -/
theorem cvtPctConvertsArg : Obligations.CvtPctConvertsArg := by
  refine ⟨decodeOfEncode .cvtPct, fun s => exec_pure rfl rfl ?_⟩
  have := pct_le s.arg.toNat
  omega

/-! ### The raw values (R151, R152, R154, R155) -/

theorem raw12_le (got : List Byte) (k : Nat) : raw12 got k ≤ 4335 := by
  have hhi := (byteAt got k).isLt
  have hlo := (byteAt got (k + 1)).isLt
  simp only [raw12, dec12]
  omega

theorem raw13_le (got : List Byte) (k : Nat) : raw13 got k ≤ 8415 := by
  have hhi := (byteAt got k).isLt
  have hlo := (byteAt got (k + 1)).isLt
  simp only [raw13, dec13]
  omega

theorem raw24_le (got : List Byte) : raw24 got ≤ 2 ^ 24 - 1 := by
  rw [raw24, dec24_eq_append]
  exact Nat.le_sub_one_of_lt (BitVec.isLt _)

theorem raw32_le (got : List Byte) : raw32 got ≤ 2 ^ 32 - 1 := by
  rw [raw32, dec32_eq_append]
  exact Nat.le_sub_one_of_lt (BitVec.isLt _)

theorem byteAt_span {m : Memory} {a n k : Nat} (h : k < n) : byteAt (Memory.span m a n) k = Memory.byte m (a + k) := by
  simp [byteAt, Memory.span, h]

section
variable (s : State) (a : Byte)

theorem State.firstRead_le (k : Nat) : s.firstRead a k ≤ 255 := Nat.le_of_lt_succ (BitVec.isLt _)

theorem State.raw12_span : raw12 (Memory.span (s.targetAt 0) a.toNat 2) 0 = s.read12 a := by
  simp [raw12, dec12, byteAt_span, State.read12, State.firstRead, Nat.mul_comm]

theorem State.read12_le : s.read12 a ≤ 4335 := s.raw12_span a ▸ raw12_le _ _

theorem State.raw24_span : raw24 (Memory.span (s.targetAt 0) a.toNat 3)
    = 65536 * s.firstRead a 0 + 256 * s.firstRead a 1 + s.firstRead a 2 := by
  simp [raw24, dec24, byteAt_span, State.firstRead, Nat.mul_comm]

theorem State.raw32_span : raw32 (Memory.span (s.targetAt 0) a.toNat 4)
    = 16777216 * s.firstRead a 0 + 65536 * s.firstRead a 1 + 256 * s.firstRead a 2 + s.firstRead a 3 := by
  simp [raw32, dec32, byteAt_span, State.firstRead, Nat.mul_comm]

end

/-! ### The range of the results (R186) -/

/-- The highest result of a quantity: the highest coulomb count, or, of the others, the highest power. -/
def Quantity.maxResult (c : Config) : Quantity → Nat
  | .ccIn | .ccOut => c.kCoulombNum * (2 ^ 32 - 1)
  | _ => 9227468250

/-- Whatever bytes are read, the lowest result is the net current of nothing in and all out. -/
theorem Quantity.result_range (c : Config) (got : List Byte) (q : Quantity) :
    -4207500 ≤ q.result c got ∧ q.result c got ≤ q.maxResult c := by
  have h12 := raw12_le got 0
  have hcc : c.kCoulombNum * raw32 got ≤ c.kCoulombNum * (2 ^ 32 - 1) := Nat.mul_le_mul_left _ (raw32_le got)
  cases q with
  | batI =>
    have hin := raw13_le got 0
    have hout := raw13_le got 2
    simp only [Quantity.result, Quantity.maxResult]
    omega
  | batP =>
    have h24 := raw24_le got
    simp only [Quantity.result, Quantity.maxResult]
    omega
  | batPct =>
    have hpct := pct_le (1100 * raw12 got 0)
    simp only [Quantity.result, Quantity.maxResult]
    omega
  | ccIn | ccOut =>
    simp only [Quantity.result, Quantity.maxResult]
    exact ⟨(by decide : (-4207500 : Int) ≤ 0).trans (Int.natCast_nonneg _), Int.ofNat_le.mpr hcc⟩
  | batV | batIchg | vinV | vinI | vbusV | vbusI | apsV | temp =>
    simp only [Quantity.result, Quantity.maxResult]
    omega

/-- A number from the lowest result up goes through `RES` as it is, if the highest one does (R12, R25). -/
theorem toInt_ofInt_of_range {v : Int} {high : Nat} (hlow : -4207500 ≤ v) (hhigh : v ≤ high) (hfits : high < 2 ^ 95) :
    (BitVec.ofInt 96 v).toInt = v :=
  BitVec.toInt_ofInt_eq_self (by omega) (by omega) (by omega)

theorem Quantity.toInt_result {c : Config} {q : Quantity} (h : q.maxResult c < 2 ^ 95) (got : List Byte) :
    (BitVec.ofInt 96 (q.result c got)).toInt = q.result c got :=
  toInt_ofInt_of_range (q.result_range c got).1 (q.result_range c got).2 h

theorem resultsFit_iff {c : Config} : c.resultsFit = true ↔ c.kCoulombNum * (2 ^ 32 - 1) < 2 ^ 95 := decide_eq_true_iff

/-! ### The plan of a read converter (R161, R162) -/

theorem planOf_of_quantityOf {i : Instr} {q : Quantity} (h : quantityOf i = some q) (c : Config) (arg : Word) (d : DataBuf) :
    planOf i c arg d = readPlan q c := by
  cases i with
  | rdBatv | rdBati | rdBatichg | rdBatp | rdVinv | rdVini | rdVbusv | rdVbusi | rdApsv | rdTemp | rdCcin | rdCcout | rdBatpct =>
    cases h
    rfl
  | _ => cases h

theorem Quantity.spansFit_iff {c : Config} {q : Quantity} : q.spansFit c = true ↔ ∀ x ∈ q.spans c, x.1.toNat + x.2 ≤ 256 := by
  simp [Quantity.spansFit, spanFits]

/-- A read converter whose spans lie inside the 256 addresses reads them in order (R62, R162). -/
theorem exec_reads_spans {i : Instr} {q : Quantity} {s : State} {spans : List (Byte × Nat)} (hq : quantityOf i = some q)
    (hspans : q.spans s.cfg = spans) (hfits : ∀ x ∈ spans, x.1.toNat + x.2 ≤ 256) :
    exec i s = .next (runCommand (spans.map fun x => { entry := .rd x.1 x.2 }) (.quantity q) s) := by
  subst hspans
  refine exec_of_plan (p := (_, _)) ?_
  rw [planOf_of_quantityOf hq, readPlan, if_pos (Quantity.spansFit_iff.mpr hfits)]

/-- A read converter of one span (R162). -/
theorem ReadsIntoRes.of_quantity {i : Instr} {s : State} {q : Quantity} {a : Byte} {n : Nat} (hq : quantityOf i = some q)
    (hspans : q.spans s.cfg = [(a, n)]) (hfits : a.toNat + n ≤ 256) (hmax : q.maxResult s.cfg < 2 ^ 95) :
    ReadsIntoRes i s a n (q.result s.cfg (Memory.span (s.targetAt 0) a.toNat n)) :=
  .of_runCommand (exec_reads_spans hq hspans (by simpa using hfits)) nofun nofun fun _ => Quantity.toInt_result hmax _

/-- A read converter of one 12-bit pair, whose result is the number `f` of the unmasked pair (R151, R162). -/
theorem ReadsIntoRes.of_raw12 {i : Instr} {s : State} {q : Quantity} {a : Byte} (f : Nat → Int) (hq : quantityOf i = some q)
    (hspans : q.spans s.cfg = [(a, 2)]) (hmax : q.maxResult s.cfg = 9227468250)
    (hf : ∀ got, q.result s.cfg got = f (raw12 got 0)) (hfits : a.toNat + 2 ≤ 256) : ReadsIntoRes i s a 2 (f (s.read12 a)) := by
  rw [← s.raw12_span, ← hf]
  exact .of_quantity hq hspans hfits (by omega)

/-- Settles O17: each command's plan is one read of two bytes, and its result is a function of their 12-bit value. -/
theorem twelveBitConverters : Obligations.TwelveBitConverters := by
  intro s
  refine ⟨map_decode_map_encode [.rdBatv, .rdBatichg, .rdVinv, .rdVini, .rdVbusv, .rdVbusi, .rdApsv, .rdTemp, .rdBatpct],
    s.read12_le, ?batV, ?batIchg, ?vinV, ?vinI, ?vbusV, ?vbusI, ?apsV, ?temp, ?batPct⟩
  case batV => exact .of_raw12 (fun n => 1100 * n) rfl rfl rfl fun _ => rfl
  case batIchg => exact .of_raw12 (fun n => 500 * n) rfl rfl rfl fun _ => rfl
  case vinV => exact .of_raw12 (fun n => 1700 * n) rfl rfl rfl fun _ => rfl
  case vinI => exact .of_raw12 (fun n => 625 * n) rfl rfl rfl fun _ => rfl
  case vbusV => exact .of_raw12 (fun n => 1700 * n) rfl rfl rfl fun _ => rfl
  case vbusI => exact .of_raw12 (fun n => 375 * n) rfl rfl rfl fun _ => rfl
  case apsV => exact .of_raw12 (fun n => 1400 * n) rfl rfl rfl fun _ => rfl
  case temp => exact .of_raw12 (fun n => n - 1447) rfl rfl rfl fun _ => rfl
  case batPct => exact .of_raw12 (fun n => pct (1100 * n)) rfl rfl rfl fun _ => rfl

/-- Settles O18: each command's plan is one read, of three or of four bytes, and its result the rule's multiple of their number. -/
theorem wideConverters : Obligations.WideConverters := by
  intro s
  refine ⟨map_decode_map_encode [.rdBatp, .rdCcin, .rdCcout], s.firstRead_le, ?batP, ?ccIn, ?ccOut⟩
  case batP =>
    intro hfits
    rw [← s.raw24_span]
    exact .of_quantity (q := .batP) rfl rfl hfits (by simp [Quantity.maxResult])
  case ccIn =>
    intro hres hfits
    rw [← s.raw32_span]
    exact .of_quantity (q := .ccIn) rfl rfl hfits (resultsFit_iff.mp hres)
  case ccOut =>
    intro hres hfits
    rw [← s.raw32_span]
    exact .of_quantity (q := .ccOut) rfl rfl hfits (resultsFit_iff.mp hres)

/-! ### A command of two reads (R164) -/

/-- The state after a read of `n` bytes at `a` that succeeded, `SEQ_PC` at the next entry (R15, R27). -/
def State.readDone (s : State) (a : Byte) (n : Nat) : State :=
  (s.takeReply.log (.rd a n (Memory.span s.targetNow a.toNat n))).advance none

section
variable (s : State) (a : Byte) (n : Nat)

@[simp] theorem State.readDone_dbuf : (s.readDone a n).dbuf = s.dbuf := rfl
@[simp] theorem State.readDone_res : (s.readDone a n).res = s.res := rfl
@[simp] theorem State.readDone_status : (s.readDone a n).status = s.status := rfl
@[simp] theorem State.readDone_seqPc : (s.readDone a n).seqPc = s.seqPc + 1 := rfl
@[simp] theorem State.readDone_tmp : (s.readDone a n).tmp = s.tmp := rfl
@[simp] theorem State.readDone_trace :
    (s.readDone a n).trace = s.trace ++ [.rd a n (Memory.span (s.targetAt 0) a.toNat n)] := by
  simp [State.readDone, State.targetNow_eq_targetAt]
@[simp] theorem State.readDone_target : (s.readDone a n).target = s.targetAt 0 := s.targetNow_eq_targetAt
@[simp] theorem State.readDone_replies : (s.readDone a n).replies = s.replies.tail := rfl
@[simp] theorem State.readDone_timer : (s.readDone a n).timer = s.timer := rfl

@[simp] theorem State.readDone_replyAt (k : Nat) : (s.readDone a n).replyAt k = s.replyAt (k + 1) := s.takeReply_replyAt k

/-- The reads that follow see the target as it then is (R20, R61). -/
@[simp] theorem State.readDone_targetAt (k : Nat) : (s.readDone a n).targetAt k = s.targetAt (k + 1) := by
  induction k with
  | zero => simp [State.targetAt]
  | succ k ih => rw [State.targetAt, ih, State.readDone_replyAt, ← State.targetAt]

end

section
variable {s : State} {a b : Byte} {m n : Nat} {r : Running} {fin : Finish} {l : List Bool}

theorem runEntry_rd_ack (h : (s.replyAt 0).acks) : runEntry { entry := .rd a n } r s =
    .done { r with got := r.got ++ Memory.span (s.targetAt 0) a.toNat n } (s.readDone a n) := by
  rw [← s.nextReply_eq_replyAt] at h
  simp [runEntry, State.memRead_ack a n h.1 h.2, State.readDone, State.targetNow_eq_targetAt]

theorem runEntry_rd_nack (h : (s.replyAt 0).nacks l) :
    runEntry { entry := .rd a n } r s = .raised ((s.takeReply.log (.rdFail a n)).raise .busError false) := by
  rw [← s.nextReply_eq_replyAt] at h
  simp [runEntry, State.memRead_nack a n h.1 h.2]

/-- A command whose first read fails does nothing more: it ends as the command of that read alone does (R250, R256). -/
theorem runCommand_first_rd_nack (lines : List Line) (h : (s.replyAt 0).nacks l) :
    runCommand ({ entry := .rd a n } :: lines) fin s = runCommand [{ entry := .rd a n }] fin s := by
  have hr : (s.startCommand.replyAt 0).nacks l := h
  exact (drive_raised rfl (runEntry_rd_nack hr)).trans (drive_raised rfl (runEntry_rd_nack hr)).symm

/-- Two reads that succeed: the bytes of both, in order, go to the command's result. -/
theorem runCommand_two_rd_ack (h : s.acks 2) : runCommand [{ entry := .rd a n }, { entry := .rd b m }] fin s =
    ((s.startCommand.readDone a n).readDone b m).complete fin
      (Memory.span (s.targetAt 0) a.toNat n ++ Memory.span (s.targetAt 1) b.toNat m) := by
  have hfirst : (s.startCommand.replyAt 0).acks := h 0 (by decide)
  have hsecond : ((s.startCommand.readDone a n).replyAt 0).acks := by simpa using h 1 (by decide)
  calc runCommand [{ entry := .rd a n }, { entry := .rd b m }] fin s
    _ = _ := drive_done rfl (runEntry_rd_ack hfirst)
    _ = _ := drive_done rfl (runEntry_rd_ack hsecond)
    _ = _ := drive_end rfl
    _ = _ := by simp

/-- Of two reads the second fails: the command ends in its entry (R250, R256). -/
theorem runCommand_second_rd_nack (h : s.acks 1) (hnack : (s.replyAt 1).nacks l) :
    runCommand [{ entry := .rd a n }, { entry := .rd b m }] fin s =
      ((s.startCommand.readDone a n).takeReply.log (.rdFail b m)).raise .busError false := by
  have hfirst : (s.startCommand.replyAt 0).acks := h 0 (by decide)
  have hsecond : ((s.startCommand.readDone a n).replyAt 0).nacks l := by simpa using hnack
  exact (drive_done rfl (runEntry_rd_ack hfirst)).trans (drive_raised rfl (runEntry_rd_nack hsecond))

end

theorem exec_rdBati {s : State} (hin : s.cfg.aBatIIn.toNat + 2 ≤ 256) (hout : s.cfg.aBatIOut.toNat + 2 ≤ 256) :
    exec .rdBati s =
      .next (runCommand [{ entry := .rd s.cfg.aBatIIn 2 }, { entry := .rd s.cfg.aBatIOut 2 }] (.quantity .batI) s) := by
  refine exec_reads_spans (q := .batI) (spans := [(s.cfg.aBatIIn, 2), (s.cfg.aBatIOut, 2)]) rfl rfl ?_
  simp only [List.forall_mem_cons]
  exact ⟨hin, hout, nofun⟩

/-- The net current of two spans of two bytes (R152, R164). -/
theorem batI_result (c : Config) (m m' : Memory) (p q : Nat) :
    Quantity.batI.result c (Memory.span m p 2 ++ Memory.span m' q 2)
      = 500 * (((32 * (Memory.byte m p).toNat + (Memory.byte m (p + 1)).toNat : Nat) : Int)
        - (32 * (Memory.byte m' q).toNat + (Memory.byte m' (q + 1)).toNat : Nat)) := by
  simp [Quantity.result, raw13, dec13_eq, byteAt, Memory.span, List.range_succ]

/-- Settles O19: the plan is the two reads in order, and its result is the net current, which fits `RES`. -/
theorem rdBatiGivesNetCurrent : Obligations.RdBatiGivesNetCurrent := by
  intro s hin hout
  have hexec := exec_rdBati hin hout
  refine ⟨decodeOfEncode .rdBati, fun h => ⟨_, hexec, ?bothSucceed⟩, fun l h => ⟨_, hexec, ?firstFails⟩,
    fun l hack hnack => ⟨_, hexec, ?secondFails⟩⟩
  case bothSucceed =>
    have heq := runCommand_two_rd_ack (a := s.cfg.aBatIIn) (n := 2) (b := s.cfg.aBatIOut) (m := 2) (fin := .quantity .batI) h
    refine ⟨.of_runCommand ?_ ?_ ?_, ?res, ?_, ?_, ?_, ?replies, ?_, ?_⟩
    case res =>
      rw [heq, State.complete_quantity_res, Quantity.toInt_result (by simp [Quantity.maxResult]), batI_result]
      rfl
    case replies => simp [heq, ← List.drop_one, List.drop_drop]
    all_goals simp [heq, Status.completed, Status.started, State.okStatus]
  case firstFails =>
    rw [runCommand_first_rd_nack _ h]
    exact .of_runCommand h
  case secondFails =>
    have heq := runCommand_second_rd_nack (a := s.cfg.aBatIIn) (n := 2) (b := s.cfg.aBatIOut) (m := 2) (fin := .quantity .batI)
      hack hnack
    refine ⟨.of_runCommand ?_ ?_ ?_, ?_, ?_, ?_, ?_, ?replies, ?_, ?_⟩
    case replies => simp [heq, ← List.drop_one, List.drop_drop]
    all_goals simp [heq, State.targetNow_eq_targetAt, Status.failed, Status.started, State.errStatus]

/-! ### The range of `RES` along a command (R186) -/

/-- The highest result of all quantities: the highest coulomb count or the highest power, whichever is higher. -/
def highestResult (c : Config) : Nat := max (c.kCoulombNum * (2 ^ 32 - 1)) 9227468250

theorem highestResult_lt {c : Config} (h : c.resultsFit = true) : highestResult c < 2 ^ 95 :=
  max_lt (resultsFit_iff.mp h) (by decide)

theorem Quantity.maxResult_le_highest (c : Config) (q : Quantity) : q.maxResult c ≤ highestResult c := by
  cases q with
  | ccIn | ccOut => exact Nat.le_max_left _ _
  | _ => exact Nat.le_max_right _ _

/-- What `RES` holds lies in the range of R186. -/
def ResInRange (c : Config) (res : BitVec 96) : Prop := -4207500 ≤ res.toInt ∧ res.toInt ≤ highestResult c

theorem resInRange_ofInt {c : Config} (hc : c.resultsFit = true) {v : Int} (hlow : -4207500 ≤ v) (hhigh : v ≤ highestResult c) :
    ResInRange c (BitVec.ofInt 96 v) := by
  rw [ResInRange, toInt_ofInt_of_range hlow hhigh (highestResult_lt hc)]
  exact ⟨hlow, hhigh⟩

/-- With the source's `K_COULOMB` the highest coulomb count is the highest result. -/
theorem highestResult_of_sourceK {c : Config} (h : c.kCoulombNum = 3640888888888889) :
    highestResult c = 3640888888888889 * (2 ^ 32 - 1) := by
  rw [highestResult, h]
  rfl

/-- A command that finishes with `fin` puts a value of the range into `RES`, whatever bytes it has read. -/
def Finish.InRange (fin : Finish) (c : Config) : Prop :=
  ∀ (s : State) (got : List Byte), s.cfg = c → ResInRange c (s.complete fin got).res

theorem Finish.quantity_inRange {c : Config} (hc : c.resultsFit = true) (q : Quantity) : (Finish.quantity q).InRange c := by
  rintro s got rfl
  obtain ⟨hlow, hhigh⟩ := q.result_range s.cfg got
  exact resInRange_ofInt hc hlow (hhigh.trans (Int.ofNat_le.mpr (q.maxResult_le_highest s.cfg)))

theorem Finish.pct_inRange {c : Config} (hc : c.resultsFit = true) (v : Nat) : (Finish.value (pct v)).InRange c := by
  rintro s got -
  have hpct := pct_le v
  have hmax : 9227468250 ≤ highestResult c := Nat.le_max_right _ _
  exact resInRange_ofInt hc (by omega) (by omega)

theorem quantityOf_of_readConverter {i : Instr} (h : readConverter i = true) : ∃ q, quantityOf i = some q := by
  cases i with
  | rdBatv | rdBati | rdBatichg | rdBatp | rdVinv | rdVini | rdVbusv | rdVbusi | rdApsv | rdTemp | rdCcin | rdCcout | rdBatpct =>
    exact ⟨_, rfl⟩
  | _ => cases h

theorem planOf_inRange {i : Instr} {c : Config} {arg : Word} {d : DataBuf} {p : List Line × Finish}
    (hi : readConverter i = true ∨ i = .cvtPct) (hc : c.resultsFit = true) (hp : planOf i c arg d = some p) : p.2.InRange c := by
  rcases hi with hi | rfl
  · obtain ⟨q, hq⟩ := quantityOf_of_readConverter hi
    rw [planOf_of_quantityOf hq, readPlan] at hp
    split at hp <;> cases hp
    exact Finish.quantity_inRange hc q
  · cases hp
    exact Finish.pct_inRange hc _

/-- The only move that writes `RES` is the completion (R25). -/
theorem EngineMove.res_cases {fin : Finish} {s t : State} (h : EngineMove fin s t) :
    t.res = s.res ∨ ∃ got, t = s.complete fin got := by
  cases h with
  | completed got => exact .inr ⟨got, rfl⟩
  | read | readFailed | wrote | writeFailed | slept | latched | moved | blocked => exact .inl rfl

/-- Along a command that finishes in the range, `RES` is as it was or in the range. -/
theorem Along.res_inRange {i : Instr} {s t : State} {p : List Line × Finish} (h : Along i s t)
    (hp : planOf i s.cfg s.arg s.dbuf = some p) (hfin : p.2.InRange s.cfg) : t.res = s.res ∨ ResInRange s.cfg t.res := by
  refine (h.induct_moves (P := fun t => t.cfg = s.cfg ∧ (t.res = s.res ∨ ResInRange s.cfg t.res)) hp ⟨rfl, .inl rfl⟩ ?move
    ?waits).2
  case move =>
    intro t u hmove ⟨hcfg, hres⟩
    obtain ⟨hkeep, -⟩ := EngineMoves.keeps (.single hmove)
    refine ⟨hkeep.trans hcfg, ?_⟩
    rcases hmove.res_cases with hsame | ⟨got, rfl⟩
    · rwa [hsame]
    · exact .inr (hfin t got hcfg)
  case waits =>
    intro t r ins sn
    simp

/-- Settles O22: the only move that writes `RES` is the completion (`Along.res_inRange`), and what it writes is in the range whatever
bytes were read (`planOf_inRange`). -/
theorem quantityResultsInRange : Obligations.QuantityResultsInRange := by
  refine ⟨⟨by decide, fun c hk => ?sourceFits⟩, fun s t i hi hc h => ?inRange⟩
  case sourceFits =>
    rw [resultsFit_iff, hk]
    decide
  case inRange =>
    cases hp : planOf i s.cfg s.arg s.dbuf with
    | none => exact .inl (by rw [h.rejected hp, State.reject_res])
    | some p =>
      refine (h.res_inRange hp (planOf_inRange hi hc hp)).imp_right fun ⟨hlow, hhigh⟩ => ⟨hlow, hhigh, fun hk => ?_⟩
      rw [highestResult_of_sourceK hk] at hhigh
      exact hhigh

end Sys2Proof.Machine

/-! The family of 44_quantity_write.md: the four write converters, each a code of the request in `ARG` put into a field of one register
by read-modify-write, or a rejection before any traffic (R190 to R197), and the range of the codes (R293). -/

namespace Sys2Proof.Machine

/-! ### A code in a field of a byte (R17) -/

/-- The bits above the low `w` are kept, and the code is the low `w` bits (R190, R192). -/
theorem rmwByte_lowField {w n : Nat} (h : n < 2 ^ w) (b : Byte) :
    rmwByte (~~~BitVec.ofNat 8 (2 ^ w - 1)) (BitVec.ofNat 8 n) b = BitVec.ofNat 8 (b.toNat / 2 ^ w * 2 ^ w + n) := by
  have hsum : b.toNat / 2 ^ w * 2 ^ w + n = b.toNat >>> w <<< w ||| n := by
    rw [← Nat.shiftLeft_add_eq_or_of_lt h, Nat.shiftLeft_eq, Nat.shiftRight_eq_div_pow]
  have hkept : b &&& ~~~BitVec.ofNat 8 (2 ^ w - 1) = BitVec.ofNat 8 (b.toNat >>> w <<< w) := by
    apply BitVec.eq_of_getLsbD_eq
    intro i hi
    simp only [BitVec.getLsbD_and, BitVec.getLsbD_not, BitVec.getLsbD_ofNat, Nat.testBit_two_pow_sub_one, Nat.testBit_shiftLeft,
      Nat.testBit_shiftRight, BitVec.testBit_toNat, hi, decide_true, Bool.true_and]
    by_cases hw : w ≤ i
    · simp [hw]
    · simp [hw, Nat.lt_of_not_le hw]
  rw [hsum, BitVec.ofNat_or, ← hkept]
  rfl

/-- The low nibble is kept, and the code is the high one (R192, R196). -/
theorem rmwByte_highNibble (n : Nat) (b : Byte) :
    rmwByte 0x0F#8 (BitVec.ofNat 8 n <<< 4) b = BitVec.ofNat 8 (16 * n + b.toNat % 16) := by
  have hsum : 16 * n + b.toNat % 16 = n <<< 4 ||| b.toNat &&& 15 := by
    rw [← Nat.shiftLeft_add_eq_or_of_lt (Nat.and_lt_two_pow _ (by decide)), Nat.shiftLeft_eq, Nat.mul_comm,
      Nat.and_two_pow_sub_one_eq_mod _ 4]
  have hmoved : BitVec.ofNat 8 (n <<< 4) = BitVec.ofNat 8 n <<< 4 := by
    apply BitVec.eq_of_toNat_eq
    simp [Nat.shiftLeft_eq]
  rw [hsum, BitVec.ofNat_or, BitVec.ofNat_and, BitVec.ofNat_toNat, BitVec.setWidth_eq, BitVec.or_comm, hmoved]
  rfl

theorem highNibble_and_mask (x : Byte) : (x <<< 4) &&& 0xF0#8 = x <<< 4 := by
  ext i hi
  interval_cases i <;> simp

/-! ### The codes of the requests (R191, R193, R195, R197) -/

theorem Config.dcdcScale_iff {c : Config} : c.dcdcScale = true ↔ c.dcdcBaseMv = 700 ∧ c.dcdcStepMv = 25 := by
  simp [Config.dcdcScale]

theorem Config.brightScale_iff {c : Config} :
    c.brightScale = true ↔ c.brightMask = 0xF0#8 ∧ c.brightShift.val = 4 ∧ c.brightMax = 12 := by
  simp [Config.brightScale, and_assoc]

theorem encDcdc_eq {c : Config} (h : c.dcdcScale = true) (mv w : Nat) :
    encDcdc c mv w = if mv < 700 then 0 else (mv - 700) / 25 % 2 ^ w := by
  obtain ⟨hbase, hstep⟩ := Config.dcdcScale_iff.mp h
  rw [encDcdc, hbase, hstep]

theorem encDcdc_lt (c : Config) (mv w : Nat) : encDcdc c mv w < 2 ^ w := by
  unfold encDcdc
  split
  · exact Nat.two_pow_pos w
  · exact Nat.mod_lt _ (Nat.two_pow_pos w)

theorem encChg_eq_none_iff {c : Config} {ma : Nat} : encChg c ma = none ↔ ma ∉ c.chgTable := by
  simp only [encChg, List.findIdx?_eq_none_iff, beq_eq_false_iff_ne]
  exact List.forall_mem_ne'

/-- The index of a value in a table of distinct values is the place where it stands (R7, R195). -/
theorem encChg_of_getElem? {c : Config} (h : c.chgTable.Nodup) {ma k : Nat} (hk : c.chgTable[k]? = some ma) :
    encChg c ma = some k := by
  obtain ⟨hlt, rfl⟩ := List.getElem?_eq_some_iff.mp hk
  refine List.findIdx?_eq_some_iff_getElem.mpr ⟨hlt, beq_self_eq_true _, fun j hj => ?_⟩
  simp [h.getElem_inj_iff, hj.ne]

theorem encBright_of_ne_zero (c : Config) {b : Nat} (h : b ≠ 0) : encBright c b = some (min b c.brightMax) := if_neg h

theorem encBright_eq_none_iff {c : Config} {b : Nat} : encBright c b = none ↔ b = 0 := by
  simp [encBright]

/-- With the field of R7 a brightness write is one of the high nibble (R196). -/
theorem brightEntry_eq {c : Config} (h : c.brightScale = true) (k : Nat) :
    brightEntry c k = .rmw c.aBright 0x0F#8 (BitVec.ofNat 8 k <<< 4) := by
  obtain ⟨hmask, hshift, -⟩ := Config.brightScale_iff.mp h
  rw [brightEntry, fieldBits, hmask, hshift, highNibble_and_mask]
  rfl

/-! ### The indices (R92) -/

theorem railOf_of_toNat {index : Byte} {r : Fin 3} (h : index.toNat = r.val) : railOf index = some r := by
  unfold railOf
  rw [h]
  match r with
  | 0 | 1 | 2 => rfl

theorem railOf_eq_none_iff {index : Byte} : railOf index = none ↔ 2 < index.toNat := by
  unfold railOf
  split
  iterate 3 next h => simp [h]
  next h0 h1 h2 =>
    simp only [imp_false] at h0 h1 h2
    simp only [true_iff]
    omega

theorem ldoOf_of_toNat {index : Byte} {k : Fin 2} (h : index.toNat = k.val) : ldoOf index = some k := by
  unfold ldoOf
  rw [h]
  match k with
  | 0 | 1 => rfl

theorem ldoOf_eq_none_iff {index : Byte} : ldoOf index = none ↔ 1 < index.toNat := by
  unfold ldoOf
  split
  iterate 2 next h => simp [h]
  next h0 h1 =>
    simp only [imp_false] at h0 h1
    simp only [true_iff]
    omega

/-! ### A write converter that runs, and one that rejects -/

section
variable {s : State}

/-- A command whose plan is one read-modify-write (R17). -/
theorem RunsRmw.of_plan {i : Instr} {a keep orBits : Byte} {new : Byte → Byte}
    (hplan : planOf i s.cfg s.arg s.dbuf = some ([{ entry := .rmw a keep orBits }], .keep))
    (hnew : ∀ b, rmwByte keep orBits b = new b) : RunsRmw i s a new :=
  .of_runCommand (exec_of_plan hplan) fun b => (hnew b).symm

theorem exec_wrDcdc_rejects {index : Byte} (h : 2 < index.toNat) :
    ∃ t, exec (.wrDcdc index) s = .next t ∧ Rejected s t .invalidArgument :=
  exec_rejects_of_no_plan (Option.map_eq_none_iff.mpr (railOf_eq_none_iff.mpr h))

theorem exec_wrLdo_rejects {index : Byte} (h : 1 < index.toNat) :
    ∃ t, exec (.wrLdo index) s = .next t ∧ Rejected s t .invalidArgument :=
  exec_rejects_of_no_plan (Option.map_eq_none_iff.mpr (ldoOf_eq_none_iff.mpr h))

theorem exec_wrChgi_rejects (h : s.arg.toNat ∉ s.cfg.chgTable) :
    ∃ t, exec .wrChgi s = .next t ∧ Rejected s t .invalidArgument :=
  exec_rejects_of_no_plan (Option.map_eq_none_iff.mpr (encChg_eq_none_iff.mpr h))

theorem exec_wrBright_rejects (h : s.arg.toNat = 0) : ∃ t, exec .wrBright s = .next t ∧ Rejected s t .invalidArgument :=
  exec_rejects_of_no_plan (Option.map_eq_none_iff.mpr (encBright_eq_none_iff.mpr h))

end

/-! ### The statements -/

/-- Settles O30: in range the remainder of the DC-DC code does nothing; at the first request above the range it gives 0; and an LDO
code is below 16 (`encLdo_lt`). -/
theorem codesInRangeAndWrap : Obligations.CodesInRangeAndWrap := by
  intro c mv w
  refine ⟨fun h hlow hhigh => ?inRange, fun h => ?wrap, encDcdc_lt c mv w, fun h => Nat.le_of_lt_succ (encLdo_lt h mv)⟩
  case inRange =>
    have hfits : (mv - 700) / 25 < 2 ^ w := by omega
    rw [encDcdc_eq h, if_neg (by omega), Nat.mod_eq_of_lt hfits]
    omega
  case wrap =>
    rw [encDcdc_eq h, if_neg (by omega), Nat.add_sub_cancel_left, Nat.mul_div_cancel_left _ (by decide), Nat.mod_self]

/-- Settles O23: the index decides whether the command has a plan; the plan is one read-modify-write of the rail's low `w` bits, with a
code below `2^w`. -/
theorem wrDcdcWritesCode : Obligations.WrDcdcWritesCode := by
  intro s index hscale
  refine ⟨decodeOfEncode (.wrDcdc index), fun r hr => ?_, exec_wrDcdc_rejects⟩
  have hplan : planOf (.wrDcdc index) s.cfg s.arg s.dbuf = some ([{ entry := dcdcEntry s.cfg r s.arg.toNat }], .keep) :=
    Option.map_eq_some_iff.mpr ⟨r, railOf_of_toNat hr, rfl⟩
  simp only [← encDcdc_eq hscale]
  exact .of_plan hplan (rmwByte_lowField (encDcdc_lt s.cfg _ _))

/-- Settles O24: the index decides whether the command has a plan; the plan is one read-modify-write of the high nibble or of the low
one, with a code below 16. -/
theorem wrLdoWritesNibble : Obligations.WrLdoWritesNibble := by
  intro s index hfits
  refine ⟨decodeOfEncode (.wrLdo index), fun k hk => ?_, exec_wrLdo_rejects⟩
  have hplan : planOf (.wrLdo index) s.cfg s.arg s.dbuf = some ([{ entry := ldoEntry s.cfg k s.arg.toNat }], .keep) :=
    Option.map_eq_some_iff.mpr ⟨k, ldoOf_of_toNat hk, rfl⟩
  by_cases hhi : k = s.cfg.ldoHiIndex
  · rw [ldoEntry, if_pos hhi] at hplan
    simp only [if_pos hhi]
    exact .of_plan hplan (rmwByte_highNibble (encLdo s.cfg s.arg.toNat))
  · rw [ldoEntry, if_neg hhi] at hplan
    simp only [if_neg hhi]
    exact .of_plan hplan (rmwByte_lowField (encLdo_lt hfits _))

/-- Settles O25: the table decides whether the command has a plan, and its code is the place of the request in the table
(`encChg_of_getElem?`); the byte is the one of the plan's masks. -/
theorem wrChgiWritesIndex : Obligations.WrChgiWritesIndex := by
  intro s hnodup
  refine ⟨decodeOfEncode .wrChgi, fun k hk => ?_, exec_wrChgi_rejects⟩
  have hplan : planOf .wrChgi s.cfg s.arg s.dbuf = some ([{ entry := chgEntry s.cfg k }], .keep) :=
    Option.map_eq_some_iff.mpr ⟨k, encChg_of_getElem? hnodup hk, rfl⟩
  exact .of_plan hplan fun _ => rfl

/-- Settles O26: the request decides whether the command has a plan; the plan is one read-modify-write of the high nibble, and the
clamp of R7 is 12. -/
theorem wrBrightWritesNibble : Obligations.WrBrightWritesNibble := by
  intro s hscale
  refine ⟨decodeOfEncode .wrBright, fun hne => ?_, exec_wrBright_rejects⟩
  obtain ⟨-, -, hmax⟩ := Config.brightScale_iff.mp hscale
  have hplan : planOf .wrBright s.cfg s.arg s.dbuf = some ([{ entry := brightEntry s.cfg (min s.arg.toNat 12) }], .keep) :=
    Option.map_eq_some_iff.mpr ⟨_, hmax ▸ encBright_of_ne_zero s.cfg hne, rfl⟩
  rw [brightEntry_eq hscale] at hplan
  exact .of_plan hplan (rmwByte_highNibble _)

end Sys2Proof.Machine

/-! The family of 45_sequencer.md: `PWROFF` is a `SETBIT` (R242); the sequence commands on the reference target, where each one is
its list of register operations (R211, R232, R236 to R240); and the order of their events on every target (R211, R225, R231, R233). -/

namespace Sys2Proof.Machine

/-! ### A bit write as a register operation (R131, R210, R242) -/

/-- A command of one bit write that does not wait is the read-modify-write with its masks (R131, R210). -/
theorem runCommand_sb {a : Byte} {bit : Nat} {v : Bool} {fin : Finish} {s : State}
    (h : (runCommand [{ entry := .rmw a (sbKeep bit v) (sbOr bit v) }] fin s).run = none) :
    runCommand [{ entry := .sb a bit v }] fin s = runCommand [{ entry := .rmw a (sbKeep bit v) (sbOr bit v) }] fin s := by
  rcases s.startCommand.bus_cases with hlate | ⟨hdelay, hread⟩ | ⟨l, hdelay, hread⟩
  · simp [runCommand, drive, runEntry, rmwEntry, State.memRead_waiting _ _ hlate] at h
  · have hhalf : ∀ prog j, rmwEntry a (sbKeep bit v) (sbOr bit v) j ⟨prog, fin, [], false⟩ s.startCommand
        = rmwWrite a (sbKeep bit v) (sbOr bit v) j ⟨prog, fin, [], true⟩ (s.startCommand.latchRead a) :=
      fun prog j => rmwEntry_read _ _ _ _ _ _ rfl hdelay hread
    rcases (s.startCommand.latchRead a).bus_cases with hlate | ⟨hdelay, hwrite⟩ | ⟨l, hdelay, hwrite⟩
    · simp [runCommand, drive, runEntry, hhalf, rmwWrite_waiting _ _ _ _ _ _ hlate] at h
    · simp [runCommand, drive, runEntry, hhalf, rmwWrite_ack _ _ _ _ _ _ hdelay hwrite]
    · simp [runCommand, drive, runEntry, hhalf, rmwWrite_nack _ _ _ _ _ _ hdelay hwrite]
  · simp [runCommand, drive, runEntry, rmwEntry, State.memRead_nack _ _ hdelay hread]

/-- What a command of one read-modify-write does, a command does that ends as it does. -/
theorem RunsRmw.of_same_end {i j : Instr} {s : State} {a : Byte} {new : Byte → Byte} (h : RunsRmw j s a new)
    (hsame : ∀ t, exec j s = .next t → t.run = none → exec i s = .next t) : RunsRmw i s a new := by
  obtain ⟨hends, hreadFails, hwriteFails⟩ := h
  refine ⟨fun hacks => ?_, fun l hnack => ?_, fun l hack hnack => ?_⟩
  · obtain ⟨t, ht, hend⟩ := hends hacks
    exact ⟨t, hsame t ht hend.ended.run, hend⟩
  · obtain ⟨t, ht, hend⟩ := hreadFails l hnack
    exact ⟨t, hsame t ht hend.ended.run, hend⟩
  · obtain ⟨t, ht, hend⟩ := hwriteFails l hack hnack
    exact ⟨t, hsame t ht hend.ended.run, hend⟩

/-- Settles O31: `PWROFF` ends as the `SETBIT` of its register and bit does. -/
theorem pwroffSetsItsBit : Obligations.PwroffSetsItsBit := by
  refine ⟨decodeOfEncode .pwroff, fun s => ?_⟩
  obtain ⟨-, hset⟩ := setbitWritesOneBit s s.cfg.aPwroff (BitVec.ofFin s.cfg.bPwroff) true
  refine RunsRmw.of_same_end hset fun t ht hrun => ?_
  cases ht
  exact congrArg _ (runCommand_sb hrun)

/-! ### The lines of the tables as register operations (R210) -/

theorem bitMask_eq_twoPow (bit : Nat) : bitMask bit = BitVec.twoPow 8 bit := by
  rw [BitVec.twoPow_eq]
  rfl

theorem Line.runsAs_entry (op : RegOp) : Line.runsAs { entry := op.entry } op := ⟨rfl, fun _ _ => rfl⟩

theorem Line.runsAs_sb (a : Byte) (bit : Fin 8) (v : Bool) : Line.runsAs { entry := .sb a bit v } (.setBit a bit v) := by
  refine ⟨rfl, fun r s => ?_⟩
  have hmask := bitMask_eq_twoPow bit.val
  cases v <;> simp [runEntry, RegOp.setBit, RegOp.entry, sbKeep, sbOr, hmask]

theorem ldoEntry_eq (c : Config) (k : Fin 2) (mv : Nat) : ldoEntry c k mv = (ldoOp c k mv).entry := by
  have hshift : ∀ n : Nat, BitVec.ofNat 8 n <<< 4 = BitVec.ofNat 8 (n * 16) := fun n => by
    apply BitVec.eq_of_toNat_eq
    simp [Nat.shiftLeft_eq]
  unfold ldoEntry ldoOp
  split
  · rw [hshift]
    rfl
  · rfl

theorem dcdcEntry_eq {c : Config} (h : c.dcdcScale = true) (r : Fin 3) (mv : Nat) :
    dcdcEntry c r mv = (dcdcOp c r mv).entry := by
  have hcode : encDcdc c mv (widthBits (atRail c.wDcdc r)) = (mv - 700) / 25 % 2 ^ widthBits (atRail c.wDcdc r) := by
    rw [encDcdc_eq h, ite_eq_right_iff]
    intro hlt
    rw [Nat.sub_eq_zero_of_le hlt.le, Nat.zero_div, Nat.zero_mod]
  have hkeep : ~~~BitVec.ofNat 8 (2 ^ widthBits (atRail c.wDcdc r) - 1)
      = BitVec.ofNat 8 (256 - 2 ^ widthBits (atRail c.wDcdc r)) := by
    cases atRail c.wDcdc r <;> decide
  simp only [dcdcEntry, dcdcOp, RegOp.entry, hcode, hkeep]

section
variable (c : Config)

theorem sleepPrepProgram_runsAs : List.Forall₂ Line.runsAs (sleepPrepProgram c) (sleepPrepOps c) :=
  .cons (Line.runsAs_entry (.store c.aAdcen c.vAdcOff)) (.cons (Line.runsAs_sb ..) (.cons (Line.runsAs_sb ..) .nil))

theorem sleepRestoreProgram_runsAs : List.Forall₂ Line.runsAs (sleepRestoreProgram c) (sleepRestoreOps c) :=
  .cons (Line.runsAs_sb ..) (.cons (Line.runsAs_sb ..) (.cons (Line.runsAs_entry (.store c.aAdcen c.vAdcOn)) .nil))

theorem buspwrProgram_eq (m : BusMode) : buspwrProgram c m = linesOf (bpmOps c m) := by cases m <;> rfl

theorem linesOf_runsAs (ops : List RegOp) : List.Forall₂ Line.runsAs (linesOf ops) ops :=
  List.forall₂_map_left_iff.mpr (List.forall₂_same.mpr fun op _ => Line.runsAs_entry op)

theorem buspwrProgram_runsAs (m : BusMode) : List.Forall₂ Line.runsAs (buspwrProgram c m) (bpmOps c m) := by
  rw [buspwrProgram_eq]
  exact linesOf_runsAs _

end

/-! ### A straight micro-program on the reference target (R78) -/

/-- A micro-program of register operations runs them in order and completes (R27, R35). -/
theorem runCommand_ops {lines : List Line} {ops : List RegOp} (hops : List.Forall₂ Line.runsAs lines ops)
    (hlen : lines.length < 256) (fin : Finish) {s : State} (h : s.onReference) :
    ∃ t, runCommand lines fin s = t.complete fin [] ∧ RanOps s.startCommand t ops (BitVec.ofNat 8 ops.length) := by
  obtain ⟨t, hdrive, hran⟩ := drive_ops (n := 1) (r := ⟨lines, fin, [], false⟩) (s := s.startCommand) (pre := [])
    (post := []) hops h rfl (by simp) rfl hlen
  rw [List.length_nil, Nat.zero_add, hops.length_eq] at hran
  refine ⟨t, ?_, hran⟩
  have hend : lines[t.seqPc.toNat]? = none := by
    rw [hran.seqPc, BitVec.toNat_ofNat, ← hops.length_eq, Nat.mod_eq_of_lt hlen]
    exact List.getElem?_eq_none_iff.mpr le_rfl
  rw [runCommand, Nat.add_comm, hdrive, drive_end hend]

/-- A command whose plan is a list of register operations: it does them and completes, and leaves a reference target. -/
theorem exec_ops {i : Instr} {lines : List Line} {ops : List RegOp} {s : State}
    (hplan : planOf i s.cfg s.arg s.dbuf = some (lines, .keep)) (hops : List.Forall₂ Line.runsAs lines ops)
    (hne : ops ≠ []) (h : s.onReference) :
    ∃ t, exec i s = .next t ∧ SequenceEnds s t ops ∧ t.target = applyOps s.target ops ∧ t.onReference := by
  have hlen : lines.length ≤ 26 := (planOf_legal hplan).1.1
  obtain ⟨t, hrun, hran⟩ := runCommand_ops hops (by omega) .keep h
  have hstatus : t.status = s.status.started.afterWrite := hran.status.trans (if_neg hne)
  refine ⟨_, exec_of_plan hplan, ⟨.of_runCommand ?status ?seqPc ?run, ?trace, ?res, ?dbuf, ?timer, ?memory⟩,
    ?target, ?ref⟩
  all_goals simp only [hrun]
  case status => simp [hstatus, Status.started, Status.afterWrite, Status.completed, State.okStatus]
  case seqPc => simpa using hran.seqPc
  case run => simp
  case trace => simpa using hran.trace
  case res => simpa using hran.res
  case dbuf => simpa using hran.dbuf
  case timer => simpa using hran.timer
  case memory => simp [hran.target]
  case target => simpa using hran.target
  case ref => simpa [State.onReference] using hran.onReference h

/-! ### No guard: the engine does not look at `INITED` (R240) -/

/-- The same state, `INITED` at a level. -/
def State.setInited (s : State) (b : Bool) : State := { s with status := { s.status with inited := b } }

/-- The same result, `INITED` at a level in its state. -/
def EntryResult.setInited (b : Bool) : EntryResult → EntryResult
  | .done r s => .done r (s.setInited b)
  | .raised s => .raised (s.setInited b)
  | .waiting r s => .waiting r (s.setInited b)

section
variable (s : State) (b : Bool)

@[simp] theorem State.setInited_tmp : (s.setInited b).tmp = s.tmp := rfl

theorem State.memRead_setInited (a : Byte) (n : Nat) :
    (s.setInited b).memRead a n = (s.memRead a n).map (·.setInited b) := by
  rcases s.bus_cases with hlate | ⟨hdelay, hread⟩ | ⟨l, hdelay, hread⟩
  · rw [State.memRead_waiting a n hlate, State.memRead_waiting a n (by exact hlate)]
    rfl
  · rw [State.memRead_ack a n hdelay hread, State.memRead_ack a n (by exact hdelay) (by exact hread)]
    rfl
  · rw [State.memRead_nack a n hdelay hread, State.memRead_nack (l := l) a n (by exact hdelay) (by exact hread)]
    rfl

theorem State.memWrite_setInited (a : Byte) (bytes : List Byte) :
    (s.setInited b).memWrite a bytes = (s.memWrite a bytes).map (·.setInited b) := by
  rcases s.bus_cases with hlate | ⟨hdelay, hwrite⟩ | ⟨l, hdelay, hwrite⟩
  · rw [State.memWrite_waiting a bytes hlate, State.memWrite_waiting a bytes (by exact hlate)]
    rfl
  · rw [State.memWrite_ack a bytes hdelay hwrite, State.memWrite_ack a bytes (by exact hdelay) (by exact hwrite)]
    rfl
  · rw [State.memWrite_nack a bytes hdelay hwrite, State.memWrite_nack (l := l) a bytes (by exact hdelay) (by exact hwrite)]
    rfl

theorem State.sleep_setInited (ms : Nat) : (s.setInited b).sleep ms = (s.sleep ms).map (·.setInited b) := by
  cases h : s.timerReady with
  | false => rw [State.sleep_waiting ms h, State.sleep_waiting ms (by exact h)]; rfl
  | true => rw [State.sleep_ready ms h, State.sleep_ready ms (by exact h)]; rfl

variable (r : Running)

theorem rmwWrite_setInited (a keep orBits : Byte) (j : Option Nat) :
    rmwWrite a keep orBits j r (s.setInited b) = (rmwWrite a keep orBits j r s).setInited b := by
  simp only [rmwWrite, State.memWrite_setInited, State.setInited_tmp]
  cases s.memWrite a [rmwByte keep orBits s.tmp] <;> cases j <;> rfl

theorem rmwEntry_setInited (a keep orBits : Byte) (j : Option Nat) :
    rmwEntry a keep orBits j r (s.setInited b) = (rmwEntry a keep orBits j r s).setInited b := by
  simp only [rmwEntry, State.memRead_setInited]
  split
  · exact rmwWrite_setInited s b r a keep orBits j
  · cases s.memRead a 1 with
    | answered bytes s1 => exact rmwWrite_setInited { s1 with tmp := byteAt bytes 0 } b _ a keep orBits j
    | failed s1 => rfl
    | waiting => rfl

theorem runEntry_setInited (l : Line) : runEntry l r (s.setInited b) = (runEntry l r s).setInited b := by
  unfold runEntry
  cases l.entry with
  | rd a n =>
    simp only [State.memRead_setInited]
    cases s.memRead a n <;> cases l.jmp <;> rfl
  | wr a bytes =>
    simp only [State.memWrite_setInited]
    cases s.memWrite a bytes <;> cases l.jmp <;> rfl
  | rmw a keep orBits => exact rmwEntry_setInited s b r a keep orBits _
  | sb a bit v => exact rmwEntry_setInited s b r a _ _ _
  | slp ms =>
    simp only [State.sleep_setInited]
    cases s.sleep ms <;> cases l.jmp <;> rfl
  | br a bit t1 t0 =>
    simp only [State.memRead_setInited]
    cases s.memRead a 1 <;> rfl

theorem drive_setInited (n : Nat) (hfin : r.fin = .keep) : drive n r (s.setInited b) = (drive n r s).setInited b := by
  induction n generalizing r s with
  | zero => rfl
  | succ n ih =>
    have hentry := runEntry_setInited s b r
    cases hl : r.prog[s.seqPc.toNat]? with
    | none =>
      rw [drive_end hl, drive_end (by exact hl), hfin]
      rfl
    | some l =>
      have hvia := runEntry_via l r s
      cases he : runEntry l r s with
      | done r' s' =>
        rw [he] at hvia
        rw [drive_done hl he, drive_done (by exact hl) ((hentry l).trans (congrArg _ he)), ih s' r' (hvia.2.1.trans hfin)]
      | raised s' => rw [drive_raised hl he, drive_raised (by exact hl) ((hentry l).trans (congrArg _ he))]
      | waiting r' s' =>
        rw [drive_waiting hl he, drive_waiting (by exact hl) ((hentry l).trans (congrArg _ he))]
        rfl

end

/-- A command other than `INIT` does the same whatever `INITED` is, and keeps it. -/
theorem exec_setInited {i : Instr} {s t : State} {lines : List Line} (hplan : planOf i s.cfg s.arg s.dbuf = some (lines, .keep))
    (b : Bool) (h : exec i s = .next t) : exec i (s.setInited b) = .next (t.setInited b) := by
  rw [exec_of_plan hplan] at h
  cases h
  rw [exec_of_plan (s := s.setInited b) hplan]
  exact congrArg _ (drive_setInited s.startCommand b _ _ rfl)

/-! ### The statements about the reference target -/

/-- Settles O32: the table is its register operations, which the reference target runs; and no entry looks at `INITED`. -/
theorem sleepPrepOnReference : Obligations.SleepPrepOnReference := by
  refine ⟨fun s _ h => ?_, fun s t b => exec_setInited rfl b⟩
  obtain ⟨t, hexec, hends, -⟩ := exec_ops (i := .sleepPrep) rfl (sleepPrepProgram_runsAs s.cfg) nofun h
  exact ⟨t, hexec, hends⟩

/-- Settles O33, as O32. -/
theorem sleepRestoreOnReference : Obligations.SleepRestoreOnReference := by
  refine ⟨fun s _ h => ?_, fun s t b => exec_setInited rfl b⟩
  obtain ⟨t, hexec, hends, -⟩ := exec_ops (i := .sleepRestore) rfl (sleepRestoreProgram_runsAs s.cfg) nofun h
  exact ⟨t, hexec, hends⟩

/-- Settles O34: the table is its register operations, which the reference target runs. -/
theorem buspwrOnReference : Obligations.BuspwrOnReference := by
  intro s m h
  obtain ⟨t, hexec, hends, -⟩ := exec_ops (i := .buspwr m) rfl (buspwrProgram_runsAs s.cfg m)
    (by cases m <;> exact List.cons_ne_nil _ _) h
  exact ⟨t, hexec, hends⟩

/-! ### What register operations leave in a register (R17, R131) -/

/-- The bits a register operation keeps; a blind write keeps nothing. -/
def RegOp.keep : RegOp → Byte
  | .patch _ keep _ => keep
  | .store _ _ => 0#8

/-- The bits a register operation sets. -/
def RegOp.orBits : RegOp → Byte
  | .patch _ _ orBits => orBits
  | .store _ v => v

/-- The register an operation works on. -/
def RegOp.addr : RegOp → Byte
  | .patch a _ _ => a
  | .store a _ => a

/-- An operation works on its own register, each bit kept, cleared or set. -/
theorem RegOp.byte_apply (op : RegOp) (m : Memory) (x : Nat) :
    Memory.byte (op.apply m) x = if op.addr.toNat = x then rmwByte op.keep op.orBits (Memory.byte m x) else Memory.byte m x := by
  cases op with
  | patch a keep orBits =>
    rw [RegOp.apply, Memory.byte_put _ _ _ _ a.isLt]
    refine ite_congr rfl (fun h => ?_) fun _ => rfl
    rw [← h]
    rfl
  | store a v =>
    rw [RegOp.apply, Memory.byte_put _ _ _ _ a.isLt]
    simp [RegOp.addr, RegOp.keep, RegOp.orBits, rmwByte]

theorem RegOp.byte_apply_store (a v : Byte) (m : Memory) (x : Nat) :
    Memory.byte ((RegOp.store a v).apply m) x = if a.toNat = x then v else Memory.byte m x :=
  Memory.byte_put m _ v x a.isLt

theorem RegOp.byte_apply_setBit (a : Byte) (bit : Fin 8) (v : Bool) (m : Memory) (x : Nat) :
    Memory.byte ((RegOp.setBit a bit v).apply m) x =
      if a.toNat = x then withBit (Memory.byte m x) bit v else Memory.byte m x := by
  rw [← rmwByte_sb, RegOp.byte_apply]
  cases v <;> simp [RegOp.setBit, RegOp.addr, RegOp.keep, RegOp.orBits, sbKeep, sbOr, bitMask_eq_twoPow]

theorem rmwByte_rmwByte (k o k' o' b : Byte) : rmwByte k' o' (rmwByte k o b) = rmwByte (k &&& k') (o &&& k' ||| o') b := by
  ext i hi
  simp only [rmwByte, BitVec.getElem_or, BitVec.getElem_and]
  grind

/-- Doing the same to a byte a second time changes nothing. -/
theorem rmwByte_idem (k o b : Byte) : rmwByte k o (rmwByte k o b) = rmwByte k o b := by
  ext i hi
  simp only [rmwByte, BitVec.getElem_or, BitVec.getElem_and]
  grind

/-- A list of operations, also one that names a register twice, is one read-modify-write of each register. -/
theorem applyOps_byte (ops : List RegOp) (x : Nat) :
    ∃ keep orBits, ∀ m, Memory.byte (applyOps m ops) x = rmwByte keep orBits (Memory.byte m x) := by
  induction ops with
  | nil =>
    refine ⟨BitVec.allOnes 8, 0#8, fun m => ?_⟩
    rw [rmwByte, BitVec.and_allOnes, BitVec.or_zero]
    rfl
  | cons op ops ih =>
    obtain ⟨k, o, hrest⟩ := ih
    have hcons : ∀ m, Memory.byte (applyOps m (op :: ops)) x = rmwByte k o (Memory.byte (op.apply m) x) := fun m => hrest _
    by_cases h : op.addr.toNat = x
    · refine ⟨op.keep &&& k, op.orBits &&& k ||| o, fun m => ?_⟩
      rw [hcons, RegOp.byte_apply, if_pos h, rmwByte_rmwByte]
    · refine ⟨k, o, fun m => ?_⟩
      rw [hcons, RegOp.byte_apply, if_neg h]

/-- A list of operations done twice leaves what it leaves done once (R238). -/
theorem applyOps_idem (ops : List RegOp) (m : Memory) (x : Nat) :
    Memory.byte (applyOps (applyOps m ops) ops) x = Memory.byte (applyOps m ops) x := by
  obtain ⟨k, o, h⟩ := applyOps_byte ops x
  rw [h, h, rmwByte_idem]

/-- Which transactions a list of operations makes does not depend on what the registers hold. -/
theorem opsEvents_shape (ops : List RegOp) (m m' : Memory) :
    (opsEvents m ops).map Event.shape = (opsEvents m' ops).map Event.shape := by
  induction ops generalizing m m' with
  | nil => rfl
  | cons op ops ih =>
    have hop : (op.events m).map Event.shape = (op.events m').map Event.shape := by cases op <;> rfl
    rw [opsEvents, opsEvents, List.map_append, List.map_append, hop, ih]

theorem bpmOps_ne_nil (c : Config) (m : BusMode) : bpmOps c m ≠ [] := by cases m <;> exact List.cons_ne_nil _ _

/-- A list of operations issued twice on the reference target (R70, R238). -/
theorem exec_ops_twice {i : Instr} {lines : Config → List Line} {ops : Config → List RegOp}
    (hplan : ∀ c arg d, planOf i c arg d = some (lines c, .keep)) (hops : ∀ c, List.Forall₂ Line.runsAs (lines c) (ops c))
    (hne : ∀ c, ops c ≠ []) {s t u : State} (h : s.onReference) (hfirst : exec i s = .next t) (hagain : exec i t = .next u) :
    (∀ x, Memory.byte u.target x = Memory.byte t.target x) ∧ u.trace.map Event.shape = t.trace.map Event.shape := by
  obtain ⟨t', hexec, hends, htarget, href⟩ := exec_ops (hplan s.cfg s.arg s.dbuf) (hops s.cfg) (hne s.cfg) h
  cases hfirst.symm.trans hexec
  obtain ⟨u', hexec, hends', htarget', -⟩ := exec_ops (hplan t.cfg t.arg t.dbuf) (hops t.cfg) (hne t.cfg) href
  cases hagain.symm.trans hexec
  rw [hends.ended.cfg] at hends' htarget'
  refine ⟨fun x => ?_, ?_⟩
  · rw [htarget', htarget, applyOps_idem]
  · rw [hends'.trace, hends.trace, opsEvents_shape]

/-- Settles O40: each of the commands is a list of register operations. -/
theorem sequencesIdempotentOnReference : Obligations.SequencesIdempotentOnReference := by
  rintro i s t u (⟨-, rfl | rfl⟩ | ⟨m, rfl⟩) h hfirst hagain
  · exact exec_ops_twice (i := .sleepPrep) (fun _ _ _ => rfl) sleepPrepProgram_runsAs (fun _ => List.cons_ne_nil _ _) h
      hfirst hagain
  · exact exec_ops_twice (i := .sleepRestore) (fun _ _ _ => rfl) sleepRestoreProgram_runsAs (fun _ => List.cons_ne_nil _ _) h
      hfirst hagain
  · exact exec_ops_twice (i := .buspwr m) (fun _ _ _ => rfl) (buspwrProgram_runsAs · m) (bpmOps_ne_nil · m) h hfirst hagain

theorem getLsbD_withBit (b : Byte) (bit : Fin 8) (v : Bool) (k : Nat) :
    (withBit b bit v).getLsbD k = if k = bit.val then v else b.getLsbD k := by
  have hbit := bit.isLt
  unfold withBit
  by_cases hk : k = bit.val
  · cases v <;> simp [hk, hbit]
  · have hne : ¬bit.val = k := fun h => hk h.symm
    cases v with
    | false => simpa [hk, hne, BitVec.getLsbD_twoPow] using BitVec.lt_of_getLsbD (x := b)
    | true => simp [hk, hne, BitVec.getLsbD_twoPow]

/-- Of two writes of one bit the second decides. -/
theorem withBit_withBit (b : Byte) (bit : Fin 8) (v w : Bool) : withBit (withBit b bit v) bit w = withBit b bit w := by
  apply BitVec.eq_of_getLsbD_eq
  intro k _
  simp only [getLsbD_withBit]
  split <;> rfl

/-- What `SLEEP_PREP` and then `SLEEP_RESTORE` leave in their three registers and in the others (R238). -/
theorem byte_prep_restore {c : Config} (hledOut : c.aLed ≠ c.aOuten) (m : Memory) (x : Nat) :
    Memory.byte (applyOps (applyOps m (sleepPrepOps c)) (sleepRestoreOps c)) x =
      if c.aAdcen.toNat = x then c.vAdcOn
      else if c.aLed.toNat = x then withBit (Memory.byte m x) c.bLed c.ledOnLevel
      else if c.aOuten.toNat = x then withBit (Memory.byte m x) c.bSleepDcdc true
      else Memory.byte m x := by
  rw [Ne, ← BitVec.toNat_inj] at hledOut
  simp only [applyOps, sleepPrepOps, sleepRestoreOps, List.foldl_cons, List.foldl_nil, RegOp.byte_apply_store,
    RegOp.byte_apply_setBit]
  by_cases hadc : c.aAdcen.toNat = x
  · simp only [hadc, if_true]
  · by_cases hled : c.aLed.toNat = x
    · have hout : ¬c.aOuten.toNat = x := fun h => hledOut (hled.trans h.symm)
      simp only [hadc, hled, hout, if_true, if_false, withBit_withBit]
    · by_cases hout : c.aOuten.toNat = x
      · simp only [hadc, hled, hout, if_true, if_false, withBit_withBit]
      · simp only [hadc, hled, hout, if_false]

/-- Settles O41: the second command's operation on each of the three registers decides what it holds. -/
theorem sleepAndRestore : Obligations.SleepAndRestore := by
  intro s t u _ h hadcLed hadcOut hledOut hprep hrestore
  obtain ⟨t', hexec, hends, htarget, href⟩ := exec_ops (i := .sleepPrep) rfl (sleepPrepProgram_runsAs s.cfg) nofun h
  cases hprep.symm.trans hexec
  obtain ⟨u', hexec, -, htarget', -⟩ := exec_ops (i := .sleepRestore) rfl (sleepRestoreProgram_runsAs t.cfg) nofun href
  cases hrestore.symm.trans hexec
  rw [hends.ended.cfg, htarget] at htarget'
  have hbyte := byte_prep_restore hledOut s.target
  rw [htarget']
  rw [Ne, ← BitVec.toNat_inj] at hadcLed hadcOut hledOut
  refine ⟨?adc, fun k _ => ?led, fun k _ => ?out, fun x hadc hled hout => ?others⟩
  case adc => rw [hbyte, if_pos rfl]
  case led => rw [hbyte, if_neg hadcLed, if_pos rfl, getLsbD_withBit]
  case out => rw [hbyte, if_neg hadcOut, if_neg hledOut, if_pos rfl, getLsbD_withBit]
  case others => rw [hbyte, if_neg hadc.symm, if_neg hled.symm, if_neg hout.symm]

/-! ### The order of the events on every target (R73, R233, R236, R237) -/

theorem Line.same_sb (a : Byte) (bit : Fin 8) (v : Bool) :
    Line.Same { entry := .sb a bit v } { entry := (RegOp.setBit a bit v).entry } := ⟨rfl, Entry.same_sb a bit v⟩

theorem Line.same_refl (l : Line) : l.Same l := ⟨rfl, .refl _⟩

section
variable (c : Config)

theorem sleepPrepProgram_same : SameLines (sleepPrepProgram c) (linesOf (sleepPrepOps c)) :=
  .cons (Line.same_refl _) (.cons (Line.same_sb ..) (.cons (Line.same_sb ..) .nil))

theorem sleepRestoreProgram_same : SameLines (sleepRestoreProgram c) (linesOf (sleepRestoreOps c)) :=
  .cons (Line.same_sb ..) (.cons (Line.same_sb ..) (.cons (Line.same_refl _) .nil))

theorem buspwrProgram_same (m : BusMode) : SameLines (buspwrProgram c m) (linesOf (bpmOps c m)) := by
  cases m <;> exact List.forall₂_same.mpr fun l _ => l.same_refl

end

/-- What holds of a command's own table holds of the table of its rule. -/
theorem Along.tracks_same {i : Instr} {s t : State} {lines rule : List Line} {fin : Finish} (h : Along i s t)
    (hplan : planOf i s.cfg s.arg s.dbuf = some (lines, fin)) (hsame : SameLines lines rule) :
    t.Tracks rule ∧ s.Served t.trace t.target :=
  ⟨(h.tracks hplan).1.same hsame, h.follows.served⟩

/-- Settles O37: each command's table is its operations, line by line. -/
theorem sequencesKeepTheOrder : Obligations.SequencesKeepTheOrder := by
  intro s t
  exact ⟨fun m h => h.tracks_same rfl (buspwrProgram_same s.cfg m), fun _ h => h.tracks_same rfl (sleepPrepProgram_same s.cfg),
    fun _ h => h.tracks_same rfl (sleepRestoreProgram_same s.cfg)⟩

/-! ### How an `INIT` ends (R29, R231) -/

/-- Only the completion of an `INIT` sets `INITED`; until then, and after a failure, it is as it was. -/
def State.InitedFrom (t : State) (b : Bool) : Prop :=
  if t.run = none ∧ t.status.err = .ok then t.status.inited = true else t.status.inited = b

theorem drive_inited {n : Nat} {r : Running} {s : State} (hfin : r.fin = .inited) :
    (drive n r s).InitedFrom s.status.inited := by
  refine drive_induction (P := fun r' s' => r'.fin = .inited ∧ s'.status.inited = s.status.inited)
    (Q := fun t => t.InitedFrom s.status.inited) ?fuel ?ends ?done ?raised ?waits n r s ⟨hfin, rfl⟩
  case fuel =>
    rintro r s ⟨-, hinited⟩
    simpa [State.InitedFrom] using hinited
  case ends =>
    rintro r s ⟨hfin, -⟩ _
    simp [State.InitedFrom, hfin, Status.withInited, Status.completed]
  case done =>
    rintro r s l r' s' ⟨hfin, hinited⟩ _ he
    have hvia := runEntry_via l r s
    have hflags := runEntry_flags l r s
    rw [he] at hvia hflags
    refine ⟨hvia.2.1.trans hfin, ?_⟩
    rcases hflags with hstatus | hstatus <;> rw [hstatus] <;> exact hinited
  case raised =>
    rintro r s l s' ⟨-, hinited⟩ _ he
    have hflags := runEntry_flags l r s
    rw [he] at hflags
    obtain ⟨-, w, hstatus⟩ := hflags
    simpa [State.InitedFrom, hstatus] using hinited
  case waits =>
    rintro r s l r' s' ⟨-, hinited⟩ _ he
    have hflags := runEntry_flags l r s
    rw [he] at hflags
    have hstatus : s'.status = s.status := hflags
    simpa [State.InitedFrom, hstatus] using hinited

theorem Along.inited {s t : State} {lines : List Line} (hplan : planOf .init s.cfg s.arg s.dbuf = some (lines, .inited))
    (h : Along .init s t) :
    t.InitedFrom s.status.inited := by
  induction h with
  | first h =>
    rw [exec_of_plan hplan] at h
    cases h
    exact drive_inited (s := s.startCommand) rfl
  | @later t u r h hr hc hs ih =>
    have hwas : t.status.inited = s.status.inited := by simpa [State.InitedFrom, hr] using ih
    rcases Along.step_cases hr hc hs with ⟨-, rfl⟩ | ⟨-, ins, sn, rfl, -⟩
    · exact hwas ▸ drive_inited ((h.tracks hplan).2 r hr).2
    · simpa [State.InitedFrom, hr] using hwas

/-- What `INIT` needs of R7. -/
structure InitNeeds (c : Config) : Prop where
  nodup : c.chgTable.Nodup
  listed : 100 ∈ c.chgTable
  default : c.maChgDefault = 100
  scale : c.dcdcScale = true
  hold : 100 ≤ c.tHoldMs

theorem InitNeeds.of_meetsR7 {c : Config} (h : c.meetsR7 = true) : InitNeeds c := by
  simp only [Config.meetsR7, Bool.and_eq_true, decide_eq_true_eq, List.contains_iff_mem] at h
  obtain ⟨⟨⟨⟨⟨⟨⟨⟨⟨-, hnodup⟩, hlisted⟩, -⟩, -⟩, hdefault⟩, -⟩, hscale⟩, hhold⟩, -⟩ := h
  exact ⟨hnodup, hlisted, hdefault, hscale, hhold⟩

/-- With the index of 100 mA in the table, `INIT` has its micro-program (R7, R223). -/
theorem InitNeeds.plan {c : Config} (h : InitNeeds c) {k : Nat} (hk : c.chgTable[k]? = some 100) (arg : Word) (d : DataBuf) :
    planOf .init c arg d = some (initProgram c k, .inited) :=
  Option.map_eq_some_iff.mpr ⟨k, encChg_of_getElem? h.nodup (h.default ▸ hk), rfl⟩

/-- A command that ended with an exception stopped at an entry of its table (R256). -/
theorem State.Tracks.failed {t : State} {prog : List Line} (h : t.Tracks prog) (hr : t.run = none) (he : t.status.err ≠ .ok) :
    t.status.err = .busError ∧ t.seqPc.toNat < prog.length := by
  obtain ⟨done, part, -, -, hend⟩ := h
  rw [hr] at hend
  rcases hend with ⟨hok, -⟩ | ⟨hbus, l, hl, -⟩
  · exact absurd hok he
  · exact ⟨hbus, (List.getElem?_eq_some_iff.mp hl).1⟩

/-- Settles O47: the trace is tracked by the table of R211 (`initProgram_same`), and only completion sets `INITED`
(`Along.inited`). -/
theorem initFailureAndInited : Obligations.InitFailureAndInited := by
  intro s t hr7 h
  have hneeds := InitNeeds.of_meetsR7 hr7
  obtain ⟨k, hk⟩ := List.mem_iff_getElem?.mp hneeds.listed
  have hplan := hneeds.plan hk s.arg s.dbuf
  have hinited := h.inited hplan
  obtain ⟨htracks, -⟩ := h.tracks hplan
  obtain ⟨hdbuf, hres, -⟩ := whoWritesResultRegisters s t .init h
  obtain ⟨-, hpc⟩ := seqPcFollowsTheProgram s t .init h
  obtain ⟨-, -, harg, -⟩ := h.keeps_host_registers
  obtain ⟨hrule, hserved⟩ := h.tracks_same hplan (initProgram_same hneeds.scale k)
  refine ⟨⟨k, hk, hrule⟩, hserved, fun hr he => ?failed, fun hr he => ?ended, fun hr => ?waits, hres rfl, hdbuf nofun,
    harg⟩
  case failed =>
    obtain ⟨hbus, hlt⟩ := htracks.failed hr he
    exact ⟨hbus, hlt, by simpa [State.InitedFrom, he] using hinited⟩
  case ended => exact ⟨by simpa [State.InitedFrom, hr, he] using hinited, hpc hr he⟩
  case waits => simpa [State.InitedFrom, hr] using hinited

/-! ### The two paths of `INIT` (R211, R212) -/

/-- The lines have completed in this order, with the events `es`. -/
def LinesRan : List Line → List Event → Prop
  | [], es => es = []
  | l :: ls, es => ∃ first rest, es = first ++ rest ∧ (∃ next k, l.entry.Ran next first k) ∧ LinesRan ls rest

theorem linesRan_append {xs ys : List Line} {es : List Event} :
    LinesRan (xs ++ ys) es ↔ ∃ first rest, es = first ++ rest ∧ LinesRan xs first ∧ LinesRan ys rest := by
  induction xs generalizing es with
  | nil => simp [LinesRan]
  | cons x xs ih =>
    simp only [List.cons_append, LinesRan, ih]
    constructor
    · rintro ⟨a, _, rfl, ha, b, d, rfl, hb, hd⟩
      exact ⟨a ++ b, d, by simp, ⟨a, b, rfl, ha, hb⟩, hd⟩
    · rintro ⟨_, d, rfl, ⟨a, b, rfl, ha, hb⟩, hd⟩
      exact ⟨a, b ++ d, by simp, ha, b, d, rfl, hb, hd⟩

/-- One line more of a stretch of the table. -/
theorem LinesRan.next {before ls : List Line} {j next k : Nat} {l : Line} {done es : List Event}
    (h : LinesRan (before ++ ls.take j) done) (hl : ls[j]? = some l) (he : l.entry.Ran next es k) :
    LinesRan (before ++ ls.take (j + 1)) (done ++ es) := by
  rw [List.take_add_one, hl, ← List.append_assoc, linesRan_append]
  exact ⟨done, es, rfl, h, es, [], by simp, ⟨next, k, he⟩, rfl⟩

theorem Line.ran_straight {l : Line} {n n' : Nat} {es : List Event} (hl : l.targets = [])
    (he : l.entry.Ran (l.jmp.getD (n + 1)) es n') : n' = n + 1 := by
  rcases Line.ran_index he with hn | hn
  · exact hn
  · simp [hl] at hn

section
variable (c : Config) (k : Nat)

/-- The lines of `INIT` on one of its two paths: with external power entries 0 to 21, without it 0 to 16 and 22 to 25. -/
def initPath (external : Bool) : List Line := initHead c k ++ if external then initTaken c else initNotTaken c

/-- Where an `INIT` is that has come to index `n` with the events `es`: in the head, on one of its branches, or past the jump. -/
inductive InitAt : Nat → List Event → Prop where
  | head {j : Nat} {es : List Event} (hj : j ≤ 16) (h : LinesRan ((initHead c k).take j) es) : InitAt j es
  | taken {j : Nat} {es : List Event} (hj : j ≤ 4) (h : LinesRan (initHead c k ++ (initTaken c).take j) es) : InitAt (17 + j) es
  | notTaken {j : Nat} {es : List Event} (hj : j ≤ 4) (h : LinesRan (initHead c k ++ (initNotTaken c).take j) es) :
      InitAt (22 + j) es
  | joined {es : List Event} (h : LinesRan (initHead c k ++ initTaken c) es) : InitAt 26 es

theorem initProgram_head {j : Nat} (hj : j ≤ 16) : (initProgram c k)[j]? = (initHead c k)[j]? := by
  rw [initProgram, List.append_assoc, List.getElem?_append_left (by simp [initHead]; omega)]

theorem initProgram_taken {j : Nat} (hj : j ≤ 4) : (initProgram c k)[17 + j]? = (initTaken c)[j]? := by
  rw [initProgram, List.append_assoc, List.getElem?_append_right (by simp [initHead]),
    List.getElem?_append_left (by simp [initHead, initTaken]; omega)]
  simp [initHead]

theorem initProgram_notTaken (j : Nat) : (initProgram c k)[22 + j]? = (initNotTaken c)[j]? := by
  rw [initProgram, List.getElem?_append_right (by simp [initHead, initTaken])]
  simp [initHead, initTaken]

theorem initHead_targets {j : Nat} (hj : j < 16) {l : Line} (hl : (initHead c k)[j]? = some l) : l.targets = [] := by
  have hldo := ldoEntry_targets c
  have hnone : ∀ l ∈ (initHead c k).take 16, l.targets = [] := by
    simp only [initHead, List.take_succ_cons, List.take_zero, List.forall_mem_cons, hldo, dcdcEntry_targets]
    simp [chgEntry, Line.targets]
  exact hnone l (List.mem_of_getElem? (by rwa [List.getElem?_take_of_lt hj]))

theorem initTaken_targets {j : Nat} (hj : j < 4) {l : Line} (hl : (initTaken c)[j]? = some l) : l.targets = [] := by
  have hnone : ∀ l ∈ (initTaken c).take 4, l.targets = [] := by simp [initTaken, patchEntry, Line.targets]
  exact hnone l (List.mem_of_getElem? (by rwa [List.getElem?_take_of_lt hj]))

theorem initNotTaken_targets {l : Line} (hl : l ∈ initNotTaken c) : l.targets = [] := by
  revert l
  simp [initNotTaken, patchEntry, Line.targets]

variable {c k}

/-- Each completed entry leads on along a path (R211). -/
theorem InitAt.next {n n' : Nat} {done es : List Event} {l : Line} (h : InitAt c k n done)
    (hl : (initProgram c k)[n]? = some l) (he : l.entry.Ran (l.jmp.getD (n + 1)) es n') : InitAt c k n' (done ++ es) := by
  cases h with
  | head hj h =>
    rw [initProgram_head c k hj] at hl
    have hran := LinesRan.next (before := []) h hl he
    by_cases hlast : n = 16
    · subst hlast
      obtain rfl : { entry := .br c.aStatus c.bExtpwr 17 22 } = l := Option.some.inj hl
      obtain ⟨b, -, rfl⟩ := he
      split
      · exact .taken (j := 0) (by omega) (by simpa [initHead] using hran)
      · exact .notTaken (j := 0) (by omega) (by simpa [initHead] using hran)
    · rw [Line.ran_straight (initHead_targets c k (by omega) hl) he]
      exact .head (by omega) hran
  | @taken j _ hj h =>
    rw [initProgram_taken c k hj] at hl
    have hran := LinesRan.next h hl he
    by_cases hlast : j = 4
    · subst hlast
      obtain rfl : { entry := patchEntry c.bpmSource.e3, jmp := some 26 } = l := Option.some.inj hl
      obtain ⟨rfl, -⟩ := he
      exact .joined (by simpa [initTaken] using hran)
    · rw [Line.ran_straight (initTaken_targets c (by omega) hl) he]
      exact .taken (by omega) hran
  | @notTaken j _ hj h =>
    rw [initProgram_notTaken c k] at hl
    have hran := LinesRan.next h hl he
    rw [Line.ran_straight (initNotTaken_targets c (List.mem_of_getElem? hl)) he]
    have hlt : j < (initNotTaken c).length := (List.getElem?_eq_some_iff.mp hl).1
    exact .notTaken (by simpa [initNotTaken] using hlt) hran
  | joined h => simp [initProgram, initHead, initTaken, initNotTaken] at hl

theorem ProgramRan.initAt {n : Nat} {es : List Event} (h : ProgramRan (initProgram c k) n es) : InitAt c k n es := by
  induction h with
  | start => exact .head (Nat.zero_le _) rfl
  | entry _ hl he ih => exact ih.next hl he

/-- How far an `INIT` has come on its path: `done` has completed, and the entry at `n` is the first of `rest`. -/
theorem InitAt.path {n : Nat} {es : List Event} (h : InitAt c k n es) :
    ∃ external done rest, initPath c k external = done ++ rest ∧ LinesRan done es ∧ (initProgram c k)[n]? = rest.head? := by
  cases h with
  | head hj h =>
    refine ⟨true, _, (initHead c k).drop n ++ initTaken c, by simp [initPath, ← List.append_assoc], h, ?_⟩
    have hlt : n < (initHead c k).length := by
      simp only [initHead, List.length_cons, List.length_nil]
      omega
    simp [initProgram_head c k hj, hlt]
  | @taken j _ hj h =>
    exact ⟨true, _, (initTaken c).drop j, by simp [initPath], h, by rw [initProgram_taken c k hj, List.head?_drop]⟩
  | @notTaken j _ hj h =>
    exact ⟨false, _, (initNotTaken c).drop j, by simp [initPath], h, by rw [initProgram_notTaken, List.head?_drop]⟩
  | joined h => exact ⟨true, _, [], by simp [initPath], h, rfl⟩

end

/-! ### The transactions of the lines (R36, R210) -/

/-- The transactions of an entry, or its sleep, in order. -/
def Entry.shapes : Entry → List EventShape
  | .rd a _ => [.read a]
  | .wr a _ => [.write a]
  | .rmw a _ _ => rmwShape a
  | .sb a _ _ => rmwShape a
  | .slp ms => [.sleep ms]
  | .br a _ _ _ => [.read a]

theorem Entry.Ran.shapes {e : Entry} {next k : Nat} {es : List Event} (h : e.Ran next es k) :
    es.map Event.shape = e.shapes := by
  cases e with
  | rd a n => obtain ⟨-, bytes, -, rfl⟩ := h; rfl
  | wr a bytes => obtain ⟨-, rfl⟩ := h; rfl
  | rmw a keep orBits => obtain ⟨-, b, rfl⟩ := h; rfl
  | sb a bit v => obtain ⟨-, b, rfl⟩ := h; rfl
  | slp ms => obtain ⟨-, rfl⟩ := h; rfl
  | br a bit t1 t0 => obtain ⟨b, rfl, -⟩ := h; rfl

theorem Entry.Failed.shapes {e : Entry} {failw : Bool} {es : List Event} (h : e.Failed failw es) :
    es.map Event.shape <+: e.shapes := by
  cases e with
  | rd a n => obtain ⟨-, rfl⟩ := h; exact List.prefix_rfl
  | wr a bytes => obtain ⟨-, rfl⟩ := h; exact List.prefix_rfl
  | rmw a keep orBits =>
    rcases h with ⟨-, rfl⟩ | ⟨-, b, rfl⟩
    · exact ⟨[.write a], rfl⟩
    · exact List.prefix_rfl
  | sb a bit v =>
    rcases h with ⟨-, rfl⟩ | ⟨-, b, rfl⟩
    · exact ⟨[.write a], rfl⟩
    · exact List.prefix_rfl
  | slp ms => exact h.elim
  | br a bit t1 t0 => obtain ⟨-, rfl⟩ := h; exact List.prefix_rfl

theorem Entry.Begun.shapes {e : Entry} {half : Bool} {tmp : Byte} {es : List Event} (h : e.Begun half tmp es) :
    es.map Event.shape <+: e.shapes := by
  have hhalf : ∀ a, (if half then [Event.rd a 1 [tmp]] else []).map Event.shape <+: rmwShape a := by
    cases half
    · exact fun a => List.nil_prefix
    · exact fun a => ⟨[.write a], rfl⟩
  cases e with
  | rmw a keep orBits => exact h ▸ hhalf a
  | sb a bit v => exact h ▸ hhalf a
  | rd | wr | slp | br => simp [h.2]

theorem LinesRan.shapes {ls : List Line} {es : List Event} (h : LinesRan ls es) :
    es.map Event.shape = ls.flatMap (·.entry.shapes) := by
  induction ls generalizing es with
  | nil => exact congrArg (List.map Event.shape) h
  | cons l ls ih =>
    obtain ⟨first, rest, rfl, ⟨next, k, hfirst⟩, hrest⟩ := h
    rw [List.map_append, hfirst.shapes, ih hrest, List.flatMap_cons]

theorem ldoEntry_shapes (c : Config) (k : Fin 2) (mv : Nat) : (ldoEntry c k mv).shapes = rmwShape c.aLdo := by
  unfold ldoEntry
  split <;> rfl

theorem initPath_shapes (c : Config) (k : Nat) (external : Bool) :
    (initPath c k external).flatMap (·.entry.shapes) = initShape c external := by
  have hldo := ldoEntry_shapes c
  unfold initPath initShape
  simp only [initHead, List.cons_append, List.nil_append, List.flatMap_cons, hldo]
  cases external <;> simp [initTaken, initNotTaken, Entry.shapes, dcdcEntry, chgEntry, patchEntry, bpmShape]

/-! ### The trace of an `INIT` on every target -/

/-- The trace of an `INIT` is a start of one of its paths: lines that have completed, then what the entry at `SEQ_PC` has done. -/
theorem State.Tracks.initShape_prefix {t : State} {c : Config} {k : Nat} (h : t.Tracks (initProgram c k)) :
    ∃ external, t.trace.map Event.shape <+: initShape c external := by
  obtain ⟨done, part, htrace, hdone, hpart⟩ := h
  obtain ⟨external, ran, rest, hpath, hran, hat⟩ := hdone.initAt.path
  refine ⟨external, ?_⟩
  have hrest : part.map Event.shape <+: rest.flatMap (·.entry.shapes) := by
    have hstarts : ∀ {l}, (initProgram c k)[t.seqPc.toNat]? = some l → part.map Event.shape <+: l.entry.shapes →
        part.map Event.shape <+: rest.flatMap (·.entry.shapes) := fun hl hshapes => by
      obtain ⟨rest', rfl⟩ := List.head?_eq_some_iff.mp (hat ▸ hl)
      exact hshapes.trans (by simp)
    cases hr : t.run with
    | some r =>
      rw [hr] at hpart
      obtain ⟨-, l, hl, hbegun⟩ := hpart
      exact hstarts hl hbegun.shapes
    | none =>
      rw [hr] at hpart
      rcases hpart with ⟨-, -, rfl⟩ | ⟨-, l, hl, hfailed⟩
      · exact List.nil_prefix
      · exact hstarts hl hfailed.shapes
  rw [htrace, ← initPath_shapes c k, hpath, List.map_append, List.flatMap_append, hran.shapes]
  exact (List.prefix_append_right_inj _).mpr hrest

/-- An `INIT` that ended well has done one of its paths whole. -/
theorem State.Tracks.init_ended {t : State} {c : Config} {k : Nat} (h : t.Tracks (initProgram c k)) (hr : t.run = none)
    (he : t.status.err = .ok) : ∃ external, LinesRan (initPath c k external) t.trace := by
  obtain ⟨done, part, htrace, hdone, hpart⟩ := h
  rw [hr] at hpart
  rcases hpart with ⟨-, hend, rfl⟩ | ⟨hbus, -⟩
  · obtain ⟨external, ran, rest, hpath, hran, hat⟩ := hdone.initAt.path
    have hrest : rest = [] := List.head?_eq_none_iff.mp (hat ▸ List.getElem?_eq_none_iff.mpr hend.ge)
    rw [hrest, List.append_nil] at hpath
    rw [List.append_nil] at htrace
    exact ⟨external, hpath ▸ htrace ▸ hran⟩
  · simp [he] at hbus

/-- An `INIT` runs the table of its default charging current, or is rejected (log entry 6). -/
theorem Along.init_cases {s t : State} (h : Along .init s t) :
    (∃ k, t.Tracks (initProgram s.cfg k)) ∨ t = s.reject .invalidArgument := by
  cases hk : encChg s.cfg s.cfg.maChgDefault with
  | none => exact .inr (h.rejected (Option.map_eq_none_iff.mpr hk))
  | some k => exact .inl ⟨k, (h.tracks (Option.map_eq_some_iff.mpr ⟨k, hk, rfl⟩)).1⟩

theorem Along.init_ended {s t : State} (h : Along .init s t) (hr : t.run = none) (he : t.status.err = .ok) :
    ∃ k external, LinesRan (initPath s.cfg k external) t.trace := by
  rcases h.init_cases with ⟨k, htracks⟩ | rfl
  · exact ⟨k, htracks.init_ended hr he⟩
  · cases he

/-- Settles O36: in every state the trace is a start of one of the two paths, and one that ended well has done its path whole. -/
theorem initKeepsTheOrder : Obligations.InitKeepsTheOrder := by
  intro s t h
  by_cases hend : t.run = none ∧ t.status.err = .ok
  · obtain ⟨k, external, hran⟩ := h.init_ended hend.1 hend.2
    have hshape : t.trace.map Event.shape = initShape s.cfg external := hran.shapes.trans (initPath_shapes s.cfg k external)
    exact ⟨external, hshape ▸ List.prefix_rfl, fun _ _ => hshape⟩
  · have hprefix : ∃ external, t.trace.map Event.shape <+: initShape s.cfg external := by
      rcases h.init_cases with ⟨k, htracks⟩ | rfl
      · exact htracks.initShape_prefix
      · exact ⟨true, List.nil_prefix⟩
    obtain ⟨external, hshape⟩ := hprefix
    exact ⟨external, hshape, fun hr he => absurd ⟨hr, he⟩ hend⟩

/-! ### The counts of `INIT` (R211) and its display reset (R225, R227) -/

/-- A write, told by the shape alone. -/
def EventShape.isWrite : EventShape → Bool
  | .write _ => true
  | _ => false

/-- A sleep, told by the shape alone. -/
def EventShape.isSleep : EventShape → Bool
  | .sleep _ => true
  | _ => false

theorem Event.isWrite_shape : EventShape.isWrite ∘ Event.shape = Event.isWrite := by
  funext e
  cases e <;> rfl

theorem Event.isSleep_shape : EventShape.isSleep ∘ Event.shape = Event.isSleep := by
  funext e
  cases e <;> rfl

/-- The counts of R211: with external power 20 reads and 20 writes, without it 19 and 19, and one sleep. -/
theorem initShape_counts (c : Config) (external : Bool) :
    (initShape c external).length = 2 * (if external then 20 else 19) + 1
      ∧ (initShape c external).countP EventShape.isWrite = (if external then 20 else 19)
      ∧ (initShape c external).countP EventShape.isSleep = 1 := by
  unfold initShape
  cases external <;> simp [bpmShape, rmwShape, EventShape.isWrite, EventShape.isSleep, List.countP_cons]

theorem Along.init_counts {s t : State} (h : Along .init s t) (hr : t.run = none) (he : t.status.err = .ok) :
    ∃ external : Bool, t.trace.length = 2 * (if external then 20 else 19) + 1
      ∧ t.trace.countP Event.isWrite = (if external then 20 else 19) ∧ t.trace.countP Event.isSleep = 1 := by
  obtain ⟨external, -, hshape⟩ := initKeepsTheOrder s t h
  obtain ⟨hlength, hwrites, hsleeps⟩ := initShape_counts s.cfg external
  rw [← hshape hr he, List.countP_map, Event.isWrite_shape] at hwrites
  rw [← hshape hr he, List.countP_map, Event.isSleep_shape] at hsleeps
  rw [← hshape hr he, List.length_map] at hlength
  exact ⟨external, hlength, hwrites, hsleeps⟩

/-- Settles O39: the counts are those of the path's fixed sequence. -/
theorem initEventCounts : Obligations.InitEventCounts := by
  intro s t h hr he
  obtain ⟨external, hcounts⟩ := h.init_counts hr he
  exact ⟨_, by cases external <;> simp, hcounts⟩

/-- Entries 13 to 15 of `INIT`: the display-reset bit, the hold, the bit again (R225 to R227). -/
def pulseLines (c : Config) : List Line :=
  [ { entry := .sb c.aDisprst c.bDisprst c.lRstDeassert }, { entry := .slp c.tHoldMs },
    { entry := .sb c.aDisprst c.bDisprst (!c.lRstDeassert) } ]

theorem initPath_pulse (c : Config) (k : Nat) (external : Bool) : ∃ before after,
    initPath c k external = before ++ pulseLines c ++ after :=
  ⟨(initHead c k).take 13, (initPath c k external).drop 16, by cases external <;> rfl⟩

theorem LinesRan.pulse {c : Config} {es : List Event} (h : LinesRan (pulseLines c) es) :
    ∃ b d : Byte, es = [.rd c.aDisprst 1 [b], .wr c.aDisprst [withBit b c.bDisprst c.lRstDeassert], .slp c.tHoldMs,
      .rd c.aDisprst 1 [d], .wr c.aDisprst [withBit d c.bDisprst (!c.lRstDeassert)]] := by
  obtain ⟨_, _, rfl, ⟨_, _, -, b, rfl⟩, _, _, rfl, ⟨_, _, -, rfl⟩, _, _, rfl, ⟨_, _, -, d, rfl⟩, rfl⟩ := h
  exact ⟨b, d, rfl⟩

/-- Settles O38: the three lines of the pulse stand together on both paths, and their sleep is the one that `INIT` makes. -/
theorem displayResetPulse : Obligations.DisplayResetPulse := by
  intro s t hr7 h hr he
  obtain ⟨k, external, hran⟩ := h.init_ended hr he
  obtain ⟨before, after, hpath⟩ := initPath_pulse s.cfg k external
  rw [hpath, linesRan_append] at hran
  obtain ⟨_, post, htrace, hran, -⟩ := hran
  obtain ⟨pre, mid, rfl, -, hpulse⟩ := linesRan_append.mp hran
  obtain ⟨b, d, rfl⟩ := hpulse.pulse
  refine ⟨pre, post, b, _, d, _, htrace, rfl, rfl, (InitNeeds.of_meetsR7 hr7).hold, ?_⟩
  obtain ⟨-, -, -, hsleeps⟩ := h.init_counts hr he
  have hothers : (pre ++ post).countP Event.isSleep = 0 := by
    have hone : ∀ x y : Byte, [Event.rd s.cfg.aDisprst 1 [b], .wr s.cfg.aDisprst [x], .slp s.cfg.tHoldMs,
        .rd s.cfg.aDisprst 1 [d], .wr s.cfg.aDisprst [y]].countP Event.isSleep = 1 := fun _ _ => rfl
    rw [htrace, List.countP_append, List.countP_append, hone] at hsleeps
    rw [List.countP_append]
    omega
  simpa using List.countP_eq_zero.mp hothers

/-! ### `INIT` on the reference target (R211 to R230) -/

theorem initHead_runsAs {c : Config} (h : c.dcdcScale = true) (k : Nat) :
    List.Forall₂ Line.runsAs ((initHead c k).take 14) (initOpsBeforeHold c k) := by
  have hentry := Line.runsAs_entry
  have hsb := Line.runsAs_sb
  simp only [initHead, dcdcEntry_eq h, ldoEntry_eq, List.take_succ_cons, List.take_zero]
  have hrmw := fun a keep orBits => hentry (.patch a keep orBits)
  exact .cons (hrmw ..) (.cons (hrmw ..) (.cons (hrmw ..) (.cons (hrmw ..) (.cons (hentry _) (.cons (hentry _)
    (.cons (hentry _) (.cons (hentry _) (.cons (hsb ..) (.cons (hsb ..) (.cons (hsb ..) (.cons (hrmw ..)
      (.cons (hentry (.store ..)) (.cons (hsb ..) .nil)))))))))))))

/-- The entries after the branch, up to the one with the jump. -/
theorem initTaken_runsAs (c : Config) :
    List.Forall₂ Line.runsAs ((initTaken c).take 4) ((initOpsAfterBranch c true).take 4) :=
  .cons (Line.runsAs_sb ..) (linesOf_runsAs ((bpmOps c .source).take 3))

theorem initNotTaken_runsAs (c : Config) : List.Forall₂ Line.runsAs (initNotTaken c) (initOpsAfterBranch c false) :=
  linesOf_runsAs (bpmOps c .sink)

/-- A command started in `s` has come to `t` on the reference target: it has made the events `es`, a write among them, and the
registers are `m`. -/
structure Reached (s t : State) (es : List Event) (m : Memory) (pc : BitVec 8) : Prop where
  trace : t.trace = es
  target : t.target = m
  seqPc : t.seqPc = pc
  status : t.status = s.status.started.afterWrite
  onReference : t.onReference

section
variable {s t : State} {es : List Event} {m : Memory} {pc : BitVec 8} {n : Nat} {r : Running}

theorem Reached.start {ops : List RegOp} (h : s.onReference) (hne : ops ≠ []) (hran : RanOps s.startCommand t ops pc) :
    Reached s t (opsEvents s.target ops) (applyOps s.target ops) pc where
  trace := by simpa using hran.trace
  target := by simpa using hran.target
  seqPc := hran.seqPc
  status := hran.status.trans (if_neg hne)
  onReference := hran.onReference h

theorem Reached.ops {ops : List RegOp} {u : State} {pc' : BitVec 8} (h : Reached s t es m pc) (hran : RanOps t u ops pc') :
    Reached s u (es ++ opsEvents m ops) (applyOps m ops) pc' where
  trace := by rw [hran.trace, h.trace, h.target]
  target := by rw [hran.target, h.target]
  seqPc := hran.seqPc
  status := by
    rw [hran.status, h.status]
    split <;> rfl
  onReference := hran.onReference h.onReference

/-- One register operation, in whatever form its line has it (R210). -/
theorem Reached.op {l : Line} {op : RegOp} {j : Option Nat} (h : Reached s t es m pc) (hl : r.prog[t.seqPc.toNat]? = some l)
    (hsame : ∀ r s, runEntry l r s = runEntry { entry := op.entry, jmp := j } r s) (hhalf : r.half = false) :
    ∃ u, drive (n + 1) r t = drive n r u ∧ Reached s u (es ++ op.events m) (op.apply m) (nextPc pc j) := by
  obtain ⟨u, hentry, hran⟩ := runEntry_ranOps op j r t h.onReference hhalf
  refine ⟨u, drive_done hl ((hsame r t).trans hentry), ?_⟩
  rw [h.seqPc] at hran
  simpa [opsEvents, applyOps] using h.ops hran

theorem runEntry_slp_ready {ms : Nat} (h : t.timerReady = true) : runEntry { entry := .slp ms } r t =
    .done r (({ t with timer := t.timer.tail }.log (.slp ms)).advance none) := by
  simp only [runEntry, State.sleep_ready _ h]

theorem runEntry_br_ack {a : Byte} {bit t1 t0 : Nat} (hdelay : t.nextReply.delay = 0) (hack : t.nextReply.result = .ack) :
    runEntry { entry := .br a bit t1 t0 } r t =
      .done r { t.takeReply.log (.rd a 1 [Memory.byte t.targetNow a.toNat]) with
        seqPc := BitVec.ofNat 8 (if (Memory.byte t.targetNow a.toNat).getLsbD bit then t1 else t0) } := by
  have hspan : Memory.span t.targetNow a.toNat 1 = [Memory.byte t.targetNow a.toNat] := by simp [Memory.span]
  simp only [runEntry, State.memRead_ack _ _ hdelay hack, hspan, byteAt, List.getD_cons_zero, bitSet_eq_getLsbD]

/-- A sleep returns at once on the reference target (R16, R78). -/
theorem Reached.sleep {ms : Nat} (h : Reached s t es m pc) (hl : r.prog[t.seqPc.toNat]? = some { entry := .slp ms }) :
    ∃ u, drive (n + 1) r t = drive n r u ∧ Reached s u (es ++ [.slp ms]) m (pc + 1) := by
  have hready : t.timerReady = true := by simp [State.timerReady, h.onReference.nextTimer]
  obtain ⟨hreplies, htimer⟩ := h.onReference
  exact ⟨_, drive_done hl (runEntry_slp_ready hready), by simp [h.trace], h.target, by simp [h.seqPc], h.status, hreplies,
    fun x hx => htimer x (List.mem_of_mem_tail hx)⟩

/-- A branch reads its register and goes on where the bit sends it (R210). -/
theorem Reached.branch {a : Byte} {bit t1 t0 : Nat} (h : Reached s t es m pc)
    (hl : r.prog[t.seqPc.toNat]? = some { entry := .br a bit t1 t0 }) :
    ∃ u, drive (n + 1) r t = drive n r u ∧ Reached s u (es ++ [.rd a 1 [Memory.byte m a.toNat]]) m
      (BitVec.ofNat 8 (if (Memory.byte m a.toNat).getLsbD bit then t1 else t0)) := by
  have hnext := h.onReference.nextReply
  have hnow : t.targetNow = m := h.onReference.targetNow.trans h.target
  obtain ⟨hreplies, htimer⟩ := h.onReference
  exact ⟨_, drive_done hl (runEntry_br_ack (congrArg Reply.delay hnext) (congrArg Reply.result hnext)), by simp [h.trace, hnow],
    hnow, by simp [hnow], h.status, fun x hx => hreplies x (List.mem_of_mem_tail hx), htimer⟩

end

section
variable {s : State} (k : Nat)

/-- Entries 0 to 16: the operations before the hold, the hold, the second write of the display-reset bit, and the branch. -/
theorem init_reaches_branch (hscale : s.cfg.dcdcScale = true) (h : s.onReference) :
    let before := initOpsBeforeHold s.cfg k
    let m1 := applyOps s.target before
    let m2 := (initOpAfterHold s.cfg).apply m1
    let b := Memory.byte m2 s.cfg.aStatus.toNat
    ∃ t, runCommand (initProgram s.cfg k) .inited s = drive 10 (.start (initProgram s.cfg k, .inited)) t
      ∧ Reached s t (opsEvents s.target before ++ [.slp s.cfg.tHoldMs] ++ (initOpAfterHold s.cfg).events m1
          ++ [.rd s.cfg.aStatus 1 [b]]) m2 (BitVec.ofNat 8 (if b.getLsbD s.cfg.bExtpwr then 17 else 22)) := by
  intro before m1 m2 b
  let r : Running := .start (initProgram s.cfg k, .inited)
  obtain ⟨t1, hrun1, hran1⟩ := drive_ops (n := 13) (r := r) (s := s.startCommand) (pre := [])
    (post := (initProgram s.cfg k).drop 14) (initHead_runsAs hscale k) h rfl rfl rfl (by decide : 26 < 256)
  have h1 := Reached.start h (List.cons_ne_nil _ _) hran1
  obtain ⟨t2, hrun2, h2⟩ := h1.sleep (n := 12) (r := r) (ms := s.cfg.tHoldMs) (by rw [h1.seqPc]; rfl)
  obtain ⟨t3, hrun3, h3⟩ := h2.op (n := 11) (r := r) (by rw [h2.seqPc]; rfl)
    (Line.runsAs_sb s.cfg.aDisprst s.cfg.bDisprst (!s.cfg.lRstDeassert)).2 rfl
  obtain ⟨t4, hrun4, h4⟩ := h3.branch (n := 10) (r := r) (a := s.cfg.aStatus) (bit := s.cfg.bExtpwr) (t1 := 17) (t0 := 22)
    (by rw [h3.seqPc]; rfl)
  refine ⟨t4, ?_, h4⟩
  calc runCommand (initProgram s.cfg k) .inited s
    _ = drive 13 r t1 := hrun1
    _ = drive 12 r t2 := hrun2
    _ = drive 11 r t3 := hrun3
    _ = drive 10 r t4 := hrun4

variable {k} {t : State} {es : List Event} {m : Memory} {c : Config}

/-- Entries 17 to 21 or 22 to 25, and the end: the operations of the branch taken. -/
theorem Reached.init_end {external : Bool} (h : Reached s t es m (if external then 17 else 22)) :
    ∃ u, drive 10 (.start (initProgram c k, .inited)) t = u.complete .inited []
      ∧ Reached s u (es ++ opsEvents m (initOpsAfterBranch c external)) (applyOps m (initOpsAfterBranch c external)) 26 := by
  let r : Running := .start (initProgram c k, .inited)
  cases external with
  | true =>
    obtain ⟨t1, hrun1, hran1⟩ := drive_ops (n := 6) (r := r) (pre := initHead c k) (post := (initProgram c k).drop 21)
      (initTaken_runsAs c) h.onReference rfl rfl (by rw [h.seqPc]; rfl) (by decide : 26 < 256)
    have h1 := h.ops hran1
    obtain ⟨t2, hrun2, h2⟩ := h1.op (n := 5) (r := r) (op := patchOp c.bpmSource.e3) (j := some 26) (by rw [h1.seqPc]; rfl)
      (fun _ _ => rfl) rfl
    refine ⟨t2, ?_, ?_⟩
    · calc drive 10 r t
        _ = drive 6 r t1 := hrun1
        _ = drive 5 r t2 := hrun2
        _ = t2.complete .inited [] := drive_end (by rw [h2.seqPc]; rfl)
    · have hops : initOpsAfterBranch c true = (initOpsAfterBranch c true).take 4 ++ [patchOp c.bpmSource.e3] := rfl
      rw [hops, opsEvents_append, applyOps_append, ← List.append_assoc]
      simp only [opsEvents, List.append_nil]
      exact h2
  | false =>
    obtain ⟨t1, hrun1, hran1⟩ := drive_ops (n := 6) (r := r) (pre := initHead c k ++ initTaken c) (post := [])
      (initNotTaken_runsAs c) h.onReference rfl (List.append_nil _).symm (by rw [h.seqPc]; rfl) (by decide : 26 < 256)
    have h1 := h.ops hran1
    refine ⟨t1, ?_, h1⟩
    calc drive 10 r t
      _ = drive 6 r t1 := hrun1
      _ = t1.complete .inited [] := drive_end (by rw [h1.seqPc]; rfl)

end

/-- Settles O35: the run up to the branch, and then the branch that the status bit selects. -/
theorem initOnReference : Obligations.InitOnReference := by
  intro s k hr7 href hk before m1 m2 b after
  have hneeds := InitNeeds.of_meetsR7 hr7
  obtain ⟨t, hrun, hbranch⟩ := init_reaches_branch k hneeds.scale href
  have hpc : BitVec.ofNat 8 (if b.getLsbD s.cfg.bExtpwr then 17 else 22) = if b.getLsbD s.cfg.bExtpwr then 17 else 22 := by
    split <;> rfl
  obtain ⟨u, hend, hu⟩ := (hpc ▸ hbranch).init_end (c := s.cfg) (k := k)
  have hall := hrun.trans hend
  refine ⟨_, exec_of_plan (hneeds.plan hk s.arg s.dbuf), .of_runCommand ?status ?seqPc ?run, ?trace, ?memory, ?res, ?dbuf⟩
  case res => exact (runCommand_moves _ _ s).res (.inr (.inl rfl))
  case dbuf => exact (runCommand_moves _ _ s).dbuf nofun
  all_goals simp only [hall]
  case status => simp [hu.status, Status.started, Status.afterWrite, Status.completed, Status.withInited]
  case seqPc => simpa using hu.seqPc
  case run => simp
  case trace => exact (u.complete_trace _ _).trans hu.trace
  case memory => exact fun x => congrArg (Memory.byte · x) ((u.complete_target _ _).trans hu.target)

end Sys2Proof.Machine

/-! The family of 60_exceptions.md: `IllegalCommand` (R252), `InvalidArgument` (R251) and `BusError` (R250), which command raises which
(R253), what an exception leaves as it was (R256, R262), and commands whose collaborators answer or hang (R264). -/

namespace Sys2Proof.Machine

/-! ### Which exception a command can raise (R250 to R253) -/

/-- Settles O7: an illegal word is rejected, and a rejection changes nothing but what `Rejected` says. -/
theorem illegalWordRaisesIllegalCommand : Obligations.IllegalWordRaisesIllegalCommand :=
  fun _ _ _ _ hr hi hw => ⟨_, step_illegal hr hi hw, Rejected.of_reject _ _⟩

/-- A command that runs its micro-program has no exception but a `BusError`, and that one ends it inside its table. -/
theorem State.Tracks.err_cases {t : State} {prog : List Line} (h : t.Tracks prog) :
    t.status.err = .ok ∨ (t.run = none ∧ t.status.err = .busError ∧ t.seqPc.toNat < prog.length) := by
  by_cases he : t.status.err = .ok
  · exact .inl he
  · cases hr : t.run with
    | none => exact .inr ⟨rfl, h.failed hr he⟩
    | some r =>
      obtain ⟨done, part, -, -, hpart⟩ := h
      rw [hr] at hpart
      exact absurd hpart.1 he

/-- A command without traffic has no entries, and no operand of it is rejected (R67, R94). -/
theorem planOf_trafficFree {i : Instr} (h : trafficFree i = true) (c : Config) (arg : Word) (d : DataBuf) :
    ∃ fin, planOf i c arg d = some ([], fin) := by
  cases i with
  | dec8 | dec12 | dec13 | dec16 | dec24 | dec32 | cvtPct => exact ⟨_, rfl⟩
  | _ => cases h

/-- Settles O46: a command is rejected with `InvalidArgument` or ends by its table (`State.Tracks.err_cases`), and an empty table has no
entry to fail in. -/
theorem whichCommandRaisesWhat : Obligations.WhichCommandRaisesWhat := by
  intro s t i h
  refine ⟨?notIllegal, fun hfree => ?trafficFree⟩
  case notIllegal =>
    cases hp : planOf i s.cfg s.arg s.dbuf with
    | none => simp [h.rejected hp]
    | some p => rcases (h.tracks hp).1.err_cases with he | ⟨-, he, -⟩ <;> simp [he]
  case trafficFree =>
    obtain ⟨fin, hp⟩ := planOf_trafficFree hfree s.cfg s.arg s.dbuf
    exact (h.tracks hp).1.err_cases.resolve_right fun ⟨_, _, hpc⟩ => Nat.not_lt_zero _ hpc

/-- The plan of a command is missing exactly outside its domain (R251), for a `CFG` that puts the spans of a read converter inside the
256 addresses (R62) and lists the default current of `INIT` (R7). -/
theorem planOf_eq_none_iff {i : Instr} {s : State} (hfit : ∀ q, quantityOf i = some q → q.spansFit s.cfg = true)
    (hinit : i = .init → s.cfg.maChgDefault ∈ s.cfg.chgTable) :
    planOf i s.cfg s.arg s.dbuf = none ↔ OutOfDomain i s := by
  have span : ∀ {a : Byte} {n : Nat} {p : List Line × Finish},
      (if spanLegal a n then some p else none) = none ↔ n = 0 ∨ 4 < n ∨ 256 < a.toNat + n := by
    intro a n p
    rw [← Nat.lt_one_iff, ← not_spanLegal_iff]
    simp
  have read : ∀ {q : Quantity}, quantityOf i = some q → (planOf i s.cfg s.arg s.dbuf = none ↔ False) := by
    intro q hq
    simp [planOf_of_quantityOf hq, readPlan, hfit q hq]
  cases i with
  | rdreg a len => exact span
  | wrreg a len => exact span
  | wrDcdc index => exact Option.map_eq_none_iff.trans railOf_eq_none_iff
  | wrLdo index => exact Option.map_eq_none_iff.trans ldoOf_eq_none_iff
  | wrChgi => exact Option.map_eq_none_iff.trans encChg_eq_none_iff
  | wrBright => exact Option.map_eq_none_iff.trans encBright_eq_none_iff
  | init => exact (Option.map_eq_none_iff.trans encChg_eq_none_iff).trans (iff_false_intro (not_not_intro (hinit rfl)))
  | rdBatv | rdBati | rdBatichg | rdBatp | rdVinv | rdVini | rdVbusv | rdVbusi | rdApsv | rdTemp | rdCcin | rdCcout | rdBatpct =>
    exact read rfl
  | _ => exact iff_false_intro nofun

/-- Settles O29: outside its domain a command has no plan and is rejected (`planOf_eq_none_iff`); a command with a plan raises nothing but
`BusError` (`State.Tracks.err_cases`). -/
theorem invalidArgumentExactlyOutOfDomain : Obligations.InvalidArgumentExactlyOutOfDomain := by
  intro s t i hfit hinit h
  rw [← planOf_eq_none_iff hfit hinit]
  cases hp : planOf i s.cfg s.arg s.dbuf with
  | none =>
    rw [h.rejected hp]
    exact ⟨iff_of_true rfl rfl, fun _ => .of_reject s _⟩
  | some p =>
    have hne : t.status.err ≠ .invalidArgument := by
      rcases (h.tracks hp).1.err_cases with he | ⟨-, he, -⟩ <;> simp [he]
    exact ⟨iff_of_false hne nofun, fun he => absurd he hne⟩

/-! ### The failing transaction (R250, R255) -/

theorem Entry.Ran.noFailure {e : Entry} {next k : Nat} {es : List Event} (h : e.Ran next es k) : ∀ x ∈ es, x.failed = false := by
  cases e with
  | rd a n =>
    obtain ⟨-, bytes, -, rfl⟩ := h
    simp [Event.failed]
  | wr a bytes =>
    obtain ⟨-, rfl⟩ := h
    simp [Event.failed]
  | rmw a keep orBits =>
    obtain ⟨-, b, rfl⟩ := h
    simp [Event.failed]
  | sb a bit v =>
    obtain ⟨-, b, rfl⟩ := h
    simp [Event.failed]
  | slp ms =>
    obtain ⟨-, rfl⟩ := h
    simp [Event.failed]
  | br a bit t1 t0 =>
    obtain ⟨b, rfl, -⟩ := h
    simp [Event.failed]

theorem ProgramRan.noFailure {prog : List Line} {k : Nat} {es : List Event} (h : ProgramRan prog k es) :
    ∀ x ∈ es, x.failed = false := by
  induction h with
  | start => simp
  | entry _ _ he ih => exact List.forall_mem_append.mpr ⟨ih, he.noFailure⟩

theorem Entry.Begun.noFailure {e : Entry} {half : Bool} {tmp : Byte} {es : List Event} (h : e.Begun half tmp es) :
    ∀ x ∈ es, x.failed = false := by
  have hhalf : ∀ a, ∀ x ∈ (if half then [Event.rd a 1 [tmp]] else []), x.failed = false := by
    cases half <;> simp [Event.failed]
  cases e with
  | rmw a keep orBits => exact h ▸ hhalf a
  | sb a bit v => exact h ▸ hhalf a
  | rd | wr | slp | br => simp [h.2]

/-- The last event is a failed transaction, the only one; `failw` says whether it was a write. -/
def FailsLast (failw : Bool) (es : List Event) : Prop :=
  ∃ pre e, es = pre ++ [e] ∧ e.failed = true ∧ failw = e.isWrite ∧ ∀ x ∈ pre, x.failed = false

/-- Events without a failure may stand before. -/
theorem FailsLast.append {failw : Bool} {done es : List Event} (h : FailsLast failw es) (hdone : ∀ x ∈ done, x.failed = false) :
    FailsLast failw (done ++ es) := by
  obtain ⟨pre, e, rfl, hfailed, hfailw, hpre⟩ := h
  exact ⟨done ++ pre, e, (List.append_assoc ..).symm, hfailed, hfailw, List.forall_mem_append.mpr ⟨hdone, hpre⟩⟩

theorem Entry.Failed.failsLast {e : Entry} {failw : Bool} {es : List Event} (h : e.Failed failw es) : FailsLast failw es := by
  have hrd : ∀ a n, FailsLast false [.rdFail a n] := fun a n => ⟨[], _, rfl, rfl, rfl, nofun⟩
  have hwr : ∀ a bytes, FailsLast true [.wrFail a bytes] := fun a bytes => ⟨[], _, rfl, rfl, rfl, nofun⟩
  have hrmw : ∀ a b new, FailsLast true [.rd a 1 [b], .wrFail a [new]] :=
    fun a b new => (hwr a [new]).append (done := [.rd a 1 [b]]) (by simp [Event.failed])
  cases e with
  | rd a n =>
    obtain ⟨rfl, rfl⟩ := h
    exact hrd a n
  | wr a bytes =>
    obtain ⟨rfl, rfl⟩ := h
    exact hwr a bytes
  | rmw a keep orBits | sb a bit v =>
    rcases h with ⟨rfl, rfl⟩ | ⟨rfl, b, rfl⟩
    · exact hrd a 1
    · exact hrmw a b _
  | slp ms => exact h.elim
  | br a bit t1 t0 =>
    obtain ⟨rfl, rfl⟩ := h
    exact hrd a 1

/-- Of a command that runs its micro-program, the trace ends with the failure that raised `BusError`, or has none. -/
theorem State.Tracks.failure {t : State} {prog : List Line} (h : t.Tracks prog) :
    (t.status.err = .busError ∧ FailsLast t.status.failw t.trace)
      ∨ (t.status.err = .ok ∧ ∀ x ∈ t.trace, x.failed = false) := by
  obtain ⟨done, part, htrace, hdone, hpart⟩ := h
  have hdone := hdone.noFailure
  rw [htrace]
  cases hr : t.run with
  | some r =>
    rw [hr] at hpart
    obtain ⟨hok, l, -, hbegun⟩ := hpart
    exact .inr ⟨hok, List.forall_mem_append.mpr ⟨hdone, hbegun.noFailure⟩⟩
  | none =>
    rw [hr] at hpart
    rcases hpart with ⟨hok, -, rfl⟩ | ⟨hbus, l, -, hfailed⟩
    · exact .inr ⟨hok, by simpa using hdone⟩
    · exact .inl ⟨hbus, hfailed.failsLast.append hdone⟩

/-- Along every command the flags say whether it waits or has ended (R29, R35). -/
theorem Along.flags {i : Instr} {s t : State} (h : Along i s t) : t.status.Fits t.run := by
  refine h.induct (P := fun t => t.status.Fits t.run) ?first ?goesOn ?waits
  case first =>
    intro t ht
    rw [exec_eq_follow] at ht
    cases ht
    cases planOf i s.cfg s.arg s.dbuf with
    | none => exact Status.final_failed _ nofun
    | some p => exact drive_flags _ _ s.status.working_started
  case goesOn =>
    intro t r ht hr _
    rw [hr] at ht
    exact drive_flags _ r ht
  case waits =>
    intro t r ins sn ht _ _ _ _
    simpa using ht

/-- `FAILW` comes only with `BusError` (R29). -/
theorem Status.Fits.failw {t : Status} {run : Option Running} (h : t.Fits run) (he : t.err ≠ .busError) : t.failw = false := by
  cases run with
  | none => exact Bool.eq_false_iff.mpr fun hw => he (Status.Final.failw h hw)
  | some r => exact Status.Working.failw h

/-- Settles O44: the entry that failed is the last one begun, and its failing transaction the last one of it (`State.Tracks.failure`). -/
theorem busErrorIsTheLastEvent : Obligations.BusErrorIsTheLastEvent := by
  intro s t i h
  cases hp : planOf i s.cfg s.arg s.dbuf with
  | none =>
    rw [h.rejected hp]
    exact ⟨nofun, fun _ => ⟨rfl, nofun⟩⟩
  | some p =>
    rcases (h.tracks hp).1.failure with ⟨hbus, hlast⟩ | ⟨hok, hnone⟩
    · exact ⟨fun _ => hlast, fun he => absurd hbus he⟩
    · exact ⟨fun he => by simp [hok] at he, fun he => ⟨h.flags.failw he, hnone⟩⟩

/-! ### What an exception leaves as it was (R256) -/

/-- The state in which an entry has ended or waits. -/
def EntryResult.state : EntryResult → State
  | .done _ s => s
  | .raised s => s
  | .waiting _ s => s

theorem EntryResult.Via.moves {r : Running} {s : State} {x : EntryResult} (h : x.Via r s) : EngineMoves r.fin s x.state := by
  cases x with
  | done r' s' => exact h.2.2
  | raised s' => exact h
  | waiting r' s' => exact h.2.2

section
variable (r : Running) (fin : Finish) (s : State)

theorem rmwWrite_state_of_fin (a keep orBits : Byte) (j : Option Nat) :
    (rmwWrite a keep orBits j { r with fin := fin } s).state = (rmwWrite a keep orBits j r s).state := by
  unfold rmwWrite
  cases s.memWrite a [rmwByte keep orBits s.tmp] <;> rfl

theorem rmwEntry_state_of_fin (a keep orBits : Byte) (j : Option Nat) :
    (rmwEntry a keep orBits j { r with fin := fin } s).state = (rmwEntry a keep orBits j r s).state := by
  unfold rmwEntry
  split
  · exact rmwWrite_state_of_fin r fin s a keep orBits j
  · cases s.memRead a 1 with
    | answered bytes s1 => exact rmwWrite_state_of_fin { r with half := true } fin _ a keep orBits j
    | failed s1 => rfl
    | waiting => rfl

/-- What an entry does is not a matter of what its command writes when it completes. -/
theorem runEntry_state_of_fin (l : Line) : (runEntry l { r with fin := fin } s).state = (runEntry l r s).state := by
  unfold runEntry
  cases l.entry with
  | rd a n => dsimp only; cases s.memRead a n <;> rfl
  | wr a bytes => dsimp only; cases s.memWrite a bytes <;> rfl
  | rmw a keep orBits => exact rmwEntry_state_of_fin r fin s a keep orBits _
  | sb a bit v => exact rmwEntry_state_of_fin r fin s a _ _ _
  | slp ms => dsimp only; cases s.sleep ms <;> rfl
  | br a bit t1 t0 => dsimp only; cases s.memRead a 1 <;> rfl

end

/-- `RES`, `DBUF` and `INITED`, the registers that a completion may write, are in `t` as they are in `s` (R24, R25, R29). -/
structure SameResults (s t : State) : Prop where
  res : t.res = s.res
  dbuf : t.dbuf = s.dbuf
  inited : t.status.inited = s.status.inited

theorem SameResults.trans {s t u : State} (h : SameResults s t) (k : SameResults t u) : SameResults s u :=
  ⟨k.res.trans h.res, k.dbuf.trans h.dbuf, k.inited.trans h.inited⟩

/-- A command that writes nothing when it completes leaves all three alone. -/
theorem EngineMoves.sameResults {s t : State} (h : EngineMoves .keep s t) : SameResults s t where
  res := h.res (.inl rfl)
  dbuf := h.dbuf nofun
  inited := by
    induction h with
    | refl => rfl
    | tail _ hm ih => exact (hm.inited nofun).trans ih

/-- No entry of any command writes a result: only the completion does. -/
theorem runEntry_sameResults (l : Line) (r : Running) (s : State) : SameResults s (runEntry l r s).state := by
  rw [← runEntry_state_of_fin r .keep s l]
  exact (runEntry_via l { r with fin := .keep } s).moves.sameResults

/-- The command has completed without exception, or its results are what they were in `s`. -/
def State.CompletedOrSame (s t : State) : Prop := (t.run = none ∧ t.status.err = .ok) ∨ SameResults s t

theorem State.complete_err (s : State) (fin : Finish) (got : List Byte) : (s.complete fin got).status.err = .ok := by
  cases fin <;> rfl

theorem drive_completedOrSame {s0 : State} (n : Nat) (r : Running) {s : State} (h : SameResults s0 s) :
    s0.CompletedOrSame (drive n r s) := by
  have entry : ∀ {r s l x}, SameResults s0 s → runEntry l r s = x → SameResults s0 x.state := by
    rintro r s l x h rfl
    exact h.trans (runEntry_sameResults l r s)
  refine drive_induction (P := fun _ s => SameResults s0 s) (Q := s0.CompletedOrSame) ?fuel ?ends ?done ?raised ?waits n r s h
  case fuel => exact fun r s h => .inr ⟨h.res, h.dbuf, h.inited⟩
  case ends => exact fun r s _ _ => .inl ⟨s.complete_run _ _, s.complete_err _ _⟩
  case done => exact fun r s l r' s' h _ he => entry h he
  case raised => exact fun r s l s' h _ he => .inr (entry h he)
  case waits =>
    intro r s l r' s' h _ he
    obtain ⟨hres, hdbuf, hinited⟩ := entry h he
    exact .inr ⟨hres, hdbuf, hinited⟩

/-- Until a command completes without exception, its results are what they were before it (R256). -/
theorem Along.completedOrSame {i : Instr} {s t : State} (h : Along i s t) : s.CompletedOrSame t := by
  refine h.induct (P := s.CompletedOrSame) ?first ?goesOn ?waits
  case first =>
    intro t ht
    rw [exec_eq_follow] at ht
    cases ht
    cases planOf i s.cfg s.arg s.dbuf with
    | none => exact .inr ⟨rfl, rfl, rfl⟩
    | some p => exact drive_completedOrSame _ _ ⟨rfl, rfl, rfl⟩
  case goesOn =>
    rintro t r (⟨hnone, -⟩ | hsame) hr _
    · simp [hnone] at hr
    · exact drive_completedOrSame _ r hsame
  case waits =>
    rintro t r ins sn (⟨hnone, -⟩ | ⟨hres, hdbuf, hinited⟩) hr _ _ _
    · simp [hnone] at hr
    · exact .inr ⟨by simpa using hres, by simpa using hdbuf, by simpa using hinited⟩

/-- A command with an exception has ended (R256). -/
theorem Along.ended_of_err {i : Instr} {s t : State} (h : Along i s t) (he : t.status.err ≠ .ok) :
    t.run = none ∧ t.status.Final := by
  have hflags := h.flags
  cases hr : t.run with
  | none =>
    rw [hr] at hflags
    exact ⟨rfl, hflags⟩
  | some r =>
    rw [hr] at hflags
    exact absurd hflags.err he

/-- Settles O43: only a completion without exception writes results (`Along.completedOrSame`); the trace and the target are those of the
table up to the entry that failed (`Along.tracks`, `Along.follows`). -/
theorem exceptionsArePrecise : Obligations.ExceptionsArePrecise := by
  intro s t i h he
  obtain ⟨hrun, hfinal⟩ := h.ended_of_err he
  obtain ⟨hres, hdbuf, hinited⟩ := h.completedOrSame.resolve_left fun hc => he hc.2
  obtain ⟨-, -, harg, -⟩ := h.keeps_host_registers
  refine ⟨hrun, hfinal.busy, hfinal.errDone he, hres, hdbuf, harg, hinited, fun hbus => ?precise, fun hbus => ?rejected,
    h.follows.served⟩
  all_goals cases hp : planOf i s.cfg s.arg s.dbuf with
    | none => ?_
    | some p => ?_
  case precise.none => simp [h.rejected hp] at hbus
  case precise.some => exact ⟨p, rfl, (h.tracks hp).1⟩
  case rejected.none => simp [h.rejected hp]
  case rejected.some => exact absurd ((h.tracks hp).1.failed hrun he).1 hbus


/-! ### A collaborator that never answers (R264) -/

theorem core_run_of_fixed {M : Host.Core} {s : M.State} (h : M.step s = .next s) (n : Nat) : M.run n s = .next s := by
  induction n with
  | zero => rfl
  | succ n ih => rw [core_run_succ h, ih]

theorem Reply.tick_of_delay_zero {x : Reply} (h : x.delay = 0) : x.tick = x := by
  obtain ⟨delay, changes, result⟩ := x
  subst h
  rfl

theorem TimerReply.tick_of_delay_zero {x : TimerReply} (h : x.delay = 0) : x.tick = x := by
  obtain ⟨delay, returns⟩ := x
  subst h
  rfl

section
variable {s : State} {r : Running}

theorem State.tick_of_bus_delay_zero (hb : r.sleeping s = false) (hd : s.nextReply.delay = 0) : s.tick r = s := by
  cases hs : s.replies with
  | nil =>
    simp only [State.tick, hb, hs, Bool.false_eq_true, if_false]
    rw [← hs]
  | cons x rest =>
    have hx : x.delay = 0 := by simpa [State.nextReply, hs] using hd
    simp only [State.tick, hb, hs, Reply.tick_of_delay_zero hx, Bool.false_eq_true, if_false]
    rw [← hs]

theorem State.tick_of_timer_delay_zero (hb : r.sleeping s = true) (hd : s.nextTimer.delay = 0) : s.tick r = s := by
  cases hs : s.timer with
  | nil =>
    simp only [State.tick, hb, hs, if_true]
    rw [← hs]
  | cons x rest =>
    have hx : x.delay = 0 := by simpa [State.nextTimer, hs] using hd
    simp only [State.tick, hb, hs, TimerReply.tick_of_delay_zero hx, if_true]
    rw [← hs]

end

/-- Settles O52: a hung collaborator is not ready, and no delay is left to count down, so the step changes nothing. -/
theorem hungCommandNeverEnds : Obligations.HungCommandNeverEnds := by
  intro s r hr hi
  have stays : r.ready s = false → s.tick r = s → ∀ n, Sys2Proof.core.run n s = .next s := by
    intro hn htick
    have hstep := step_of_not_ready hr hi hn
    rw [htick] at hstep
    exact core_run_of_fixed (M := Sys2Proof.core) hstep
  refine ⟨fun hb hd hnever => stays ?busNotReady (State.tick_of_bus_delay_zero hb hd),
    fun hb hd hnever => stays ?timerNotReady (State.tick_of_timer_delay_zero hb hd)⟩
  case busNotReady => simp [Running.ready, hb, State.busReady, hnever]
  case timerNotReady => simp [Running.ready, hb, State.timerReady, hnever]

/-! ### Where the engine stops and waits (R41, R264) -/

section
variable {s : State}

theorem State.memRead_eq_waiting_iff {a : Byte} {n : Nat} : s.memRead a n = .waiting ↔ s.busReady = false := by
  refine ⟨fun h => ?_, State.memRead_waiting a n⟩
  rcases s.bus_cases with hb | ⟨hd, hr⟩ | ⟨l, hd, hr⟩
  · exact hb
  · simp [State.memRead_ack _ _ hd hr] at h
  · simp [State.memRead_nack _ _ hd hr] at h

theorem State.memWrite_eq_waiting_iff {a : Byte} {bytes : List Byte} : s.memWrite a bytes = .waiting ↔ s.busReady = false := by
  refine ⟨fun h => ?_, State.memWrite_waiting a bytes⟩
  rcases s.bus_cases with hb | ⟨hd, hr⟩ | ⟨l, hd, hr⟩
  · exact hb
  · simp [State.memWrite_ack _ _ hd hr] at h
  · simp [State.memWrite_nack _ _ hd hr] at h

theorem State.sleep_eq_waiting_iff {ms : Nat} : s.sleep ms = .waiting ↔ s.timerReady = false := by
  refine ⟨fun h => ?_, State.sleep_waiting ms⟩
  cases hb : s.timerReady with
  | false => rfl
  | true => simp [State.sleep_ready ms hb] at h

end

/-- The collaborator that the entry asks answers in this step. -/
def Entry.answered (e : Entry) (s : State) : Bool :=
  match e with
  | .slp _ => s.timerReady
  | _ => s.busReady

theorem Running.ready_eq_answered {r : Running} {s : State} {l : Line} (hl : r.prog[s.seqPc.toNat]? = some l) :
    r.ready s = l.entry.answered s := by
  simp only [Running.ready, Running.sleeping, hl]
  cases l.entry <;> rfl

section
variable {r r' : Running} {s s' : State}

theorem rmwWrite_waits {a keep orBits : Byte} {j : Option Nat} (h : rmwWrite a keep orBits j r s = .waiting r' s') :
    s'.busReady = false := by
  unfold rmwWrite at h
  split at h <;> cases h
  exact State.memWrite_eq_waiting_iff.mp ‹_›

theorem rmwEntry_waits {a keep orBits : Byte} {j : Option Nat} (h : rmwEntry a keep orBits j r s = .waiting r' s') :
    s'.busReady = false := by
  unfold rmwEntry at h
  split at h
  · exact rmwWrite_waits h
  · split at h
    · cases h
      exact State.memRead_eq_waiting_iff.mp ‹_›
    · cases h
    · exact rmwWrite_waits h

/-- An entry waits only for a collaborator that does not answer. -/
theorem runEntry_waits {l : Line} (h : runEntry l r s = .waiting r' s') : l.entry.answered s' = false := by
  cases he : l.entry with
  | rd a n | br a bit t1 t0 =>
    simp only [runEntry, he] at h
    split at h <;> cases h
    exact State.memRead_eq_waiting_iff.mp ‹_›
  | wr a bytes =>
    simp only [runEntry, he] at h
    split at h <;> cases h
    exact State.memWrite_eq_waiting_iff.mp ‹_›
  | rmw a keep orBits | sb a bit v =>
    simp only [runEntry, he] at h
    exact rmwEntry_waits h
  | slp ms =>
    simp only [runEntry, he] at h
    split at h <;> cases h
    exact State.sleep_eq_waiting_iff.mp ‹_›

end

/-- The engine, with rounds enough for its table, stops before the end only where its collaborator does not answer. -/
theorem drive_waits {n : Nat} {r r' : Running} {s : State} (hl : r.legal s.seqPc) (hn : r.prog.length < n + s.seqPc.toNat)
    (hw : (drive n r s).run = some r') : r'.ready (drive n r s) = false := by
  induction n generalizing r s with
  | zero =>
    obtain ⟨-, hpc, -⟩ := hl
    omega
  | succ n ih =>
    cases hp : r.prog[s.seqPc.toNat]? with
    | none => simp [drive_end hp] at hw
    | some l =>
      have hmoves := runEntry_moves l r s
      cases he : runEntry l r s with
      | done r1 s1 =>
        obtain ⟨hlt, hprog, hlegal⟩ := hl.forward hp he
        rw [drive_done hp he] at hw ⊢
        exact ih hlegal (by rw [hprog]; omega) hw
      | raised s1 =>
        rw [he] at hmoves
        rw [drive_raised hp he, show s1.run = none from hmoves] at hw
        cases hw
      | waiting r1 s1 =>
        rw [he] at hmoves
        obtain ⟨hprog, hpc⟩ := hmoves
        rw [drive_waiting hp he] at hw ⊢
        cases hw
        have hget : r'.prog[s1.seqPc.toNat]? = some l := by rw [hprog, hpc, hp]
        change r'.ready s1 = false
        rw [Running.ready_eq_answered hget]
        exact runEntry_waits he

theorem State.Tracks.legal {t : State} {r : Running} {prog : List Line} (h : t.Tracks prog) (hp : ProgramLegal prog)
    (hprog : r.prog = prog) : r.legal t.seqPc := by
  subst hprog
  exact ⟨hp.1, h.seqPc_le, hp.2⟩

/-- A command in progress is one of the block's (R210). -/
theorem Along.legal {i : Instr} {s t : State} {r : Running} (h : Along i s t) (hr : t.run = some r) : r.legal t.seqPc := by
  cases hp : planOf i s.cfg s.arg s.dbuf with
  | none => simp [h.rejected hp] at hr
  | some p =>
    obtain ⟨htracks, hrun⟩ := h.tracks hp
    exact htracks.legal (planOf_legal hp).1 (hrun r hr).1

theorem exec_waits {i : Instr} {s t : State} {r : Running} (h : exec i s = .next t) (hr : t.run = some r) : r.ready t = false := by
  rw [exec_eq_follow] at h
  cases h
  cases hp : planOf i s.cfg s.arg s.dbuf with
  | none => simp [hp, State.follow] at hr
  | some p =>
    rw [hp, follow_eq_drive] at hr
    rw [follow_eq_drive]
    have hlegal := (planOf_legal hp).1
    exact drive_waits ⟨hlegal.1, Nat.zero_le _, hlegal.2⟩ (Nat.lt_succ_self _) hr

/-! ### The answers to come -/

/-- The steps for which the answers to come will let the engine wait. -/
def State.delays (s : State) : Nat := (s.replies.map Reply.delay).sum + (s.timer.map TimerReply.delay).sum

/-- Of the answers to come some may have been used up. -/
structure AnswersLeft (s t : State) : Prop where
  replies : t.replies <:+ s.replies
  timer : t.timer <:+ s.timer

theorem EngineMoves.answersLeft {fin : Finish} {s t : State} (h : EngineMoves fin s t) : AnswersLeft s t := by
  induction h with
  | refl => exact ⟨List.suffix_rfl, List.suffix_rfl⟩
  | tail _ hm ih =>
    obtain ⟨hreplies, htimer⟩ := ih
    cases hm with
    | read | readFailed | wrote | writeFailed => exact ⟨(List.tail_suffix _).trans hreplies, htimer⟩
    | slept => exact ⟨hreplies, (List.tail_suffix _).trans htimer⟩
    | latched | moved | blocked => exact ⟨hreplies, htimer⟩
    | completed => exact ⟨by simpa using hreplies, by simpa using htimer⟩

theorem exec_answersLeft {i : Instr} {s t : State} (h : exec i s = .next t) : AnswersLeft s t := by
  rw [exec_eq_follow] at h
  cases h
  cases planOf i s.cfg s.arg s.dbuf with
  | none => exact ⟨List.suffix_rfl, List.suffix_rfl⟩
  | some p =>
    obtain ⟨hreplies, htimer⟩ := (runCommand_moves p.1 p.2 s).answersLeft
    exact ⟨hreplies, htimer⟩

theorem AnswersLeft.allAnswer {s t : State} (h : AnswersLeft s t) (ha : s.allAnswer) : t.allAnswer :=
  ⟨fun x hx => ha.1 x (h.replies.mem hx), fun x hx => ha.2 x (h.timer.mem hx)⟩

theorem AnswersLeft.delays_le {s t : State} (h : AnswersLeft s t) : t.delays ≤ s.delays := by
  obtain ⟨⟨usedReplies, hreplies⟩, usedTimer, htimer⟩ := h
  simp only [State.delays, ← hreplies, ← htimer, List.map_append, List.sum_append]
  omega

theorem State.noDelay.delays_eq_zero {s : State} (h : s.noDelay) : s.delays = 0 := by
  have hreplies : (s.replies.map Reply.delay).sum = 0 := List.sum_eq_zero (by simpa using h.1)
  have htimer : (s.timer.map TimerReply.delay).sum = 0 := List.sum_eq_zero (by simpa using h.2)
  rw [State.delays, hreplies, htimer]

/-- A step of a wait counts down the delay of one answer, and changes no answer. -/
theorem State.allAnswer.tick {s : State} (h : s.allAnswer) (r : Running) : (s.tick r).allAnswer := by
  obtain ⟨hreplies, htimer⟩ := h
  unfold State.tick
  split
  · refine ⟨hreplies, ?_⟩
    cases hs : s.timer <;> simp_all [TimerReply.tick]
  · refine ⟨?_, htimer⟩
    cases hs : s.replies <;> simp_all [Reply.tick]

/-- A collaborator that will answer, and does not in this step, is late: the step of the wait leaves fewer steps to wait. -/
theorem State.delays_tick_lt {s : State} {r : Running} (ha : s.allAnswer) (hn : r.ready s = false) :
    (s.tick r).delays < s.delays := by
  obtain ⟨hreplies, htimer⟩ := ha
  cases hb : r.sleeping s with
  | true =>
    cases hs : s.timer with
    | nil => simp [Running.ready, hb, State.timerReady, State.nextTimer, hs] at hn
    | cons x rest =>
      have hx : x.delay ≠ 0 := by
        have hreturns := htimer x (by simp [hs])
        simpa [Running.ready, hb, State.timerReady, State.nextTimer, hs, hreturns] using hn
      simp only [State.delays, State.tick, hb, if_true, hs, List.map_cons, List.sum_cons, TimerReply.tick]
      omega
  | false =>
    cases hs : s.replies with
    | nil => simp [Running.ready, hb, State.busReady, State.nextReply, hs] at hn
    | cons x rest =>
      have hx : x.delay ≠ 0 := by
        have hresult := hreplies x (by simp [hs])
        simpa [Running.ready, hb, State.busReady, State.nextReply, hs, hresult] using hn
      simp only [State.delays, State.tick, hb, Bool.false_eq_true, if_false, hs, List.map_cons, List.sum_cons, Reply.tick]
      omega

/-- Along a command whose collaborators answer every request, they will answer every request to come. -/
theorem Along.allAnswer {i : Instr} {s t : State} (h : Along i s t) (ha : s.allAnswer) : t.allAnswer := by
  refine h.induct (P := fun t => t.allAnswer) ?first ?goesOn ?waits
  case first => exact fun t ht => (exec_answersLeft ht).allAnswer ha
  case goesOn => exact fun t r ht _ _ => (drive_moves _ r t).answersLeft.allAnswer ht
  case waits => exact fun t r ins sn ht _ _ _ _ => ht.tick r

/-! ### Every command that is answered completes (R256, R264) -/

theorem State.cutOff_of_noReset {s : State} (h : s.noReset) (r : Running) : s.cutOff r = false := by
  unfold State.cutOff
  split
  case h_1 landed rest hi => exact absurd (by simp [hi]) (h landed)
  all_goals exact Bool.and_false _

theorem Along.noReset {i : Instr} {s t : State} (h : Along i s t) (hs : s.noReset) : t.noReset := by
  obtain ⟨-, -, -, hinputs, -⟩ := h.keeps_host_registers
  exact fun landed hin => hs landed (hinputs.mem hin)

section
variable {i : Instr} {s t : State} {r : Running} (h : Along i s t) (hr : t.run = some r) (ha : t.allAnswer) (hs : t.noReset)
include h hr ha hs

/-- After a step of the wait a command has fewer steps to wait. -/
theorem Along.waits_less (hn : r.ready t = false) : ∃ u, Along i s u ∧ u.delays < t.delays := by
  have hc := State.cutOff_of_noReset hs r
  have hstep := step_waiting hr hn
  refine ⟨_, h.later hr hc hstep, ?_⟩
  rcases Along.step_cases hr hc hstep with ⟨hready, -⟩ | ⟨-, ins, sn, heq, -⟩
  · rw [hn] at hready
    cases hready
  · rw [heq]
    exact State.delays_tick_lt ha hn

/-- A command in progress ends, or comes to have fewer steps to wait. -/
theorem Along.ends_or_waits_less : ∃ u, Along i s u ∧ (u.run = none ∨ u.delays < t.delays) := by
  cases hn : r.ready t with
  | false =>
    obtain ⟨u, hu, hlt⟩ := h.waits_less hr ha hs hn
    exact ⟨u, hu, .inr hlt⟩
  | true =>
    have hlater := h.later hr (State.cutOff_of_noReset hs r) (step_of_ready hr hn)
    have hmoves := drive_moves (r.prog.length + 1) r t
    have hwaits := fun r' => drive_waits (n := r.prog.length + 1) (r' := r') (h.legal hr) (by omega)
    obtain ⟨-, -, -, hinputs, -⟩ := hmoves.keeps
    generalize drive (r.prog.length + 1) r t = u at hlater hmoves hwaits hinputs
    cases hu : u.run with
    | none => exact ⟨u, hlater, .inl hu⟩
    | some r' =>
      have hreset : u.noReset := by
        rw [State.noReset, hinputs]
        exact hs
      obtain ⟨v, hv, hlt⟩ := hlater.waits_less hu (hmoves.answersLeft.allAnswer ha) hreset (hwaits r' hu)
      exact ⟨v, hv, .inr (hlt.trans_le hmoves.answersLeft.delays_le)⟩

end

/-- By induction on the steps left to wait, a command whose collaborators answer ends. -/
theorem Along.ends {i : Instr} {s t : State} (h : Along i s t) (ha : s.allAnswer) (hs : s.noReset) :
    ∃ u, Along i s u ∧ u.run = none := by
  induction hd : t.delays using Nat.strong_induction_on generalizing t with
  | h d ih =>
    cases hr : t.run with
    | none => exact ⟨t, h, hr⟩
    | some r =>
      obtain ⟨u, hu, hend | hlt⟩ := h.ends_or_waits_less hr (h.allAnswer ha) (h.noReset hs)
      · exact ⟨u, hu, hend⟩
      · exact ih _ (hd ▸ hlt) hu rfl

/-- If the command has ended, `DONE` says so (R29, R35). -/
def State.EndIsDone (t : State) : Prop := t.run = none → t.status.done = true

theorem drive_endIsDone (n : Nat) (r : Running) (s : State) : (drive n r s).EndIsDone := by
  refine drive_induction (P := fun _ _ => True) (Q := State.EndIsDone) ?fuel ?ends ?done ?raised ?waits n r s trivial
  case fuel | waits => intros; exact nofun
  case ends =>
    intro r s _ _ _
    cases r.fin <;> rfl
  case done => intros; trivial
  case raised =>
    intro r s l s' _ _ he _
    have hflags := runEntry_flags l r s
    rw [he] at hflags
    obtain ⟨-, w, hstatus⟩ := hflags
    rw [hstatus]
    rfl

/-- A command that has ended shows `BUSY` = 0 and `DONE` = 1 (R35, R256). -/
theorem Along.ended_flags {i : Instr} {s t : State} (h : Along i s t) (hr : t.run = none) :
    t.status.busy = false ∧ t.status.done = true := by
  have hflags := h.flags
  rw [hr] at hflags
  refine ⟨hflags.busy, ?_⟩
  refine h.induct (P := State.EndIsDone) ?first ?goesOn ?waits hr
  case first =>
    intro t ht
    rw [exec_eq_follow] at ht
    cases ht
    cases planOf i s.cfg s.arg s.dbuf with
    | none => exact fun _ => rfl
    | some p => exact drive_endIsDone _ _ _
  case goesOn => exact fun t r _ _ _ => drive_endIsDone _ r t
  case waits =>
    intro t r ins sn _ hr _ _ _ hnone
    simp [hr] at hnone

/-- Settles O51: late answers are waited for until none is left to wait for (`Along.ends`); with no delay in them there is nothing to
wait for (`State.delays_tick_lt`). -/
theorem answeredCommandsComplete : Obligations.AnsweredCommandsComplete := by
  intro s i ha
  have hexec := exec_eq_follow i s
  have hfirst := Along.first hexec
  refine ⟨fun hs => ?late, fun hd => ?atOnce⟩
  case late =>
    obtain ⟨u, hu, hr⟩ := hfirst.ends ha hs
    exact ⟨u, hu, hr, hu.ended_flags hr⟩
  case atOnce =>
    refine ⟨_, hexec, ?ended, hfirst.ended_flags ?ended⟩
    generalize s.follow _ = t at hexec hfirst
    cases hr : t.run with
    | none => rfl
    | some r =>
      have hlt := State.delays_tick_lt (hfirst.allAnswer ha) (exec_waits hexec hr)
      have hle := (exec_answersLeft hexec).delays_le
      have hzero := State.noDelay.delays_eq_zero hd
      omega

end Sys2Proof.Machine

/-! The family of 70_reset_and_hazards.md: what reset leaves (R280), what a rejected request leaves (R297, log entry 6), and what
`INIT` establishes with `CFG_REF` (R283). -/

namespace Sys2Proof.Machine

/-! ### Rejected requests (R251, R297) -/

/-- Settles O28: each of the four writers has no plan outside its domain. -/
theorem rejectedRequestsWriteNothing : Obligations.RejectedRequestsWriteNothing :=
  fun _ => ⟨fun _ => exec_wrDcdc_rejects, fun _ => exec_wrLdo_rejects, exec_wrChgi_rejects, exec_wrBright_rejects⟩

theorem readPlan_eq_none_iff {c : Config} {q : Quantity} : readPlan q c = none ↔ ∃ x ∈ q.spans c, 256 < x.1.toNat + x.2 := by
  have hfits : readPlan q c = none ↔ ¬q.spansFit c = true := by simp [readPlan]
  rw [hfits, Quantity.spansFit_iff]
  push Not
  rfl

/-- Settles O27: a span past the last address leaves a read converter without a plan (`readPlan_eq_none_iff`), and a default current
that is not listed leaves `INIT` without one. -/
theorem configOutsideContractRejected : Obligations.ConfigOutsideContractRejected := by
  refine ⟨fun s i q hq hpast => exec_rejects_of_no_plan ?read, fun s hdefault => exec_rejects_of_no_plan ?init⟩
  case read => rw [planOf_of_quantityOf hq, readPlan_eq_none_iff.mpr hpast]
  case init => exact Option.map_eq_none_iff.mpr (encChg_eq_none_iff.mpr hdefault)

/-! ### Reset of an idle engine (R45, R280) -/

theorem step_reset_idle {s : State} {landed : List Bool} {rest : List Input} (hr : s.run = none)
    (hi : s.inputs = .reset landed :: rest) : step s = .next ({ s with inputs := rest } : State).resetEngine := by
  rw [step_idle hr (by simp [State.fetch, hi])]
  simp [State.idleStep, hi, State.resetNow, hr]

/-- Settles O56: with no command in progress a reset is the reset of the engine's own registers. -/
theorem resetLeavesIdleEngine : Obligations.ResetLeavesIdleEngine := by
  refine ⟨⟨rfl, rfl, rfl, rfl⟩, fun s landed rest hr hi => ?_⟩
  refine ⟨_, step_reset_idle hr hi, ?status, rfl, rfl, State.resetEngine_allEvents _, rfl, rfl, rfl, rfl⟩
  case status =>
    rw [State.resetEngine_status]
    rfl

/-! ### What a list of register operations does to one register, as masks (R17) -/

section
variable (k o b : Byte)

theorem rmwByte_keep_all : rmwByte 0xFF#8 o b = b ||| o := congrArg (· ||| o) BitVec.and_allOnes

theorem rmwByte_keep_none : rmwByte 0#8 o b = o := by simp [rmwByte]

theorem rmwByte_set_none : rmwByte k 0#8 b = b &&& k := BitVec.or_zero

/-- Bits cleared and then set are set, whatever they were. -/
theorem rmwByte_set_cleared : rmwByte (~~~o) o b = b ||| o := by
  ext i hi
  simp only [rmwByte, BitVec.getElem_or, BitVec.getElem_and, BitVec.getElem_not]
  cases o[i] <;> simp

theorem rmwByte_unchanged : rmwByte 0xFF#8 0#8 b = b := (rmwByte_set_none _ b).trans BitVec.and_allOnes

end

theorem applyOps_snoc (m : Memory) (ops : List RegOp) (op : RegOp) : applyOps m (ops ++ [op]) = op.apply (applyOps m ops) :=
  applyOps_append m ops [op]

/-- The bits of register `x` that a list of operations keeps, and the bits it sets: the masks of `applyOps_byte`, computed. -/
def netMasks (x : Nat) : List RegOp → Byte × Byte
  | [] => (0xFF#8, 0#8)
  | op :: ops =>
    let (k, o) := netMasks x ops
    if op.addr.toNat = x then (op.keep &&& k, (op.orBits &&& k) ||| o) else (k, o)

theorem byte_applyOps_eq (ops : List RegOp) (m : Memory) (x : Nat) :
    Memory.byte (applyOps m ops) x = rmwByte (netMasks x ops).1 (netMasks x ops).2 (Memory.byte m x) := by
  induction ops generalizing m with
  | nil => exact (rmwByte_unchanged _).symm
  | cons op ops ih =>
    have hrest : Memory.byte (applyOps m (op :: ops)) x = _ := ih (op.apply m)
    rw [hrest, RegOp.byte_apply]
    by_cases h : op.addr.toNat = x
    · simp only [netMasks, if_pos h, rmwByte_rmwByte]
    · simp only [netMasks, if_neg h]

/-- A register that no operation names is as it was. -/
theorem netMasks_of_unnamed {ops : List RegOp} {x : Nat} (h : x ∉ ops.map fun op => op.addr.toNat) :
    netMasks x ops = (0xFF#8, 0#8) := by
  induction ops with
  | nil => rfl
  | cons op ops ih =>
    rw [List.map_cons, List.mem_cons, not_or] at h
    obtain ⟨hop, hops⟩ := h
    simp only [netMasks, ih hops, if_neg (Ne.symm hop)]

/-! ### What `INIT` establishes with `CFG_REF` (R283) -/

/-- The operations of `INIT` with `CFG_REF` up to its branch: 100 mA is entry 0 of the table. -/
def initReferenceHead : List RegOp := initOpsBeforeHold Config.reference 0 ++ [initOpAfterHold Config.reference]

/-- All operations of `INIT` with `CFG_REF`, in order. -/
def initReferenceOps (external : Bool) : List RegOp := initReferenceHead ++ initOpsAfterBranch Config.reference external

/-- The registers `INIT` works on with `CFG_REF`, whichever way it branches. -/
theorem initReferenceOps_addrs (external : Bool) : ∀ op ∈ initReferenceOps external, op.addr.toNat ∈
    [0x12, 0x26, 0x27, 0x28, 0x30, 0x33, 0x35, 0x82, 0x92, 0x93, 0x94, 0x96, 0xE0, 0xE1, 0xE2, 0xE3] := by
  cases external <;> decide

/-- For each of these registers, the bits `INIT` keeps and the bits it sets. -/
def initReferenceMasks (external : Bool) : List (Nat × Byte × Byte) :=
  [ (0x12, 0xFF#8, 0x06#8), (0x26, 0x80#8, 0x6A#8), (0x27, 0x80#8, 0x54#8), (0x28, 0x00#8, 0xF2#8),
    (0x30, 0x04#8, if external then 0x82#8 else 0x02#8), (0x33, 0xF0#8, 0x00#8), (0x35, 0x1C#8, 0xA2#8), (0x82, 0x00#8, 0xFF#8),
    (0x92, 0xF8#8, 0x00#8), (0x93, 0xF8#8, 0x00#8), (0x94, 0xFD#8, 0x00#8), (0x96, 0xFD#8, 0x02#8),
    (0xE0, if external then 0xFF#8 else 0x0F#8, if external then 0x00#8 else 0xF0#8),
    (0xE1, 0xF8#8, if external then 0x07#8 else 0x02#8),
    (0xE2, if external then 0xFB#8 else 0xFF#8, if external then 0x00#8 else 0x04#8), (0xE3, 0xFF#8, 0x00#8) ]

theorem netMasks_initReferenceOps (external : Bool) :
    ∀ row ∈ initReferenceMasks external, netMasks row.1 (initReferenceOps external) = row.2 := by
  cases external <;> decide

/-- No operation before the branch names the status register, so the branch goes by what it held at the start. -/
theorem byte_initReferenceHead_status (m : Memory) : Memory.byte (applyOps m initReferenceHead) 0x00 = Memory.byte m 0x00 := by
  rw [byte_applyOps_eq, netMasks_of_unnamed (by decide)]
  exact rmwByte_unchanged _

theorem init_reference_target {s t : State} (hcfg : s.cfg = Config.reference) (href : s.onReference)
    (hexec : exec .init s = .next t) (x : Nat) : Memory.byte t.target x =
      Memory.byte (applyOps s.target (initReferenceOps ((Memory.byte s.target 0x00).getLsbD 3))) x := by
  obtain ⟨t', hexec', -, -, hmemory, -⟩ := initOnReference s 0 (hcfg ▸ by decide) href (hcfg ▸ rfl)
  cases hexec.symm.trans hexec'
  have hstatus : Memory.byte (applyOps s.target initReferenceHead) Config.reference.aStatus.toNat = Memory.byte s.target 0x00 :=
    byte_initReferenceHead_status s.target
  have hbit : (Config.reference.bExtpwr : Nat) = 3 := rfl
  rw [hmemory, hcfg, ← applyOps_snoc, ← initReferenceHead, hstatus, hbit, initReferenceOps, applyOps_append]

/-- Settles O42: the bits that all operations of `INIT` together keep and set in each register (`netMasks_initReferenceOps`), the
branch going by the status bit as it was at the start (`init_reference_target`). -/
theorem initEstablishesOnReferenceConfig : Obligations.InitEstablishesOnReferenceConfig := by
  intro s t hcfg href hexec b e external
  have hnet : ∀ x, e x = rmwByte (netMasks x (initReferenceOps external)).1 (netMasks x (initReferenceOps external)).2 (b x) :=
    fun x => (init_reference_target hcfg href hexec x).trans (byte_applyOps_eq _ _ x)
  clear_value external
  have hrow : ∀ {x : Nat} {k o : Byte}, (x, k, o) ∈ initReferenceMasks external → e x = rmwByte k o (b x) := by
    intro x k o hmem
    rw [hnet, netMasks_initReferenceOps external _ hmem]
  refine ⟨?x30, ?x92, ?x93, ?x35, ?x26, ?x27, ?x28, ?x12, ?x94, ?x33, ?x82, ?x96, ?xE0, ?xE1, ?xE2, ?xE3, fun x hx => ?others⟩
  case x35 | x26 | x27 | xE1 => exact hrow (by simp [initReferenceMasks])
  case x28 | x82 => exact (hrow (by simp [initReferenceMasks])).trans (rmwByte_keep_none _ _)
  case x12 => exact (hrow (by simp [initReferenceMasks])).trans (rmwByte_keep_all _ _)
  case x96 => exact (hrow (by simp [initReferenceMasks])).trans (rmwByte_set_cleared 0x02#8 _)
  case x92 | x93 | x94 | x33 => exact (hrow (by simp [initReferenceMasks])).trans (rmwByte_set_none _ _)
  case xE3 => exact (hrow (by simp [initReferenceMasks])).trans (rmwByte_unchanged _)
  case x30 =>
    cases external with
    | false => exact (hrow (by decide)).trans BitVec.or_zero.symm
    | true => exact (hrow (by decide)).trans (BitVec.or_assoc ..).symm
  case xE0 =>
    cases external with
    | false => exact hrow (by decide)
    | true => exact (hrow (by decide)).trans (rmwByte_unchanged _)
  case xE2 =>
    cases external with
    | false => exact (hrow (by decide)).trans (rmwByte_keep_all _ _)
    | true => exact (hrow (by decide)).trans (rmwByte_set_none _ _)
  case others =>
    have hunnamed : x ∉ (initReferenceOps external).map fun op => op.addr.toNat := by
      intro h
      obtain ⟨op, hop, rfl⟩ := List.mem_map.mp h
      exact hx (initReferenceOps_addrs external op hop)
    rw [hnet, netMasks_of_unnamed hunnamed, rmwByte_unchanged]

end Sys2Proof.Machine
